-- ==== Sys2Proof/Word.lean ====
section
/-!
DEFINITION. Word.lean: the machine's words and the exact numbers of the ideal semantics, as plain data.
Notation of spec/00_scope.md rules R8 and R9. The types only, with the plainest arithmetic; every operation that a
test could show wrong stands under Sys2Proof/Machine/.
-/

namespace Sys2Proof

/-- A host register word (R20: "sixteen 64-bit host registers"). -/
abbrev Word := BitVec 64

/-- A word address of the host register space (R50: "256 word addresses, 0x00 to 0xFF"). -/
abbrev Addr := BitVec 8

/-- `2^k` as an integer (R8). -/
def pow2 (k : Nat) : Int := ((2 ^ k : Nat) : Int)

namespace Machine

/-- The exact rational `num / 2^exp`. Every rational value of the block has this form: host values (R76), values of a
format (R12), ROM words (R88) and all that the ideal strategy's shifts and adds make of them (R160). -/
structure Dyad where
  num : Int
  exp : Nat
deriving DecidableEq, Repr

/-- An elementary angle that is no rational: `atan (num/den)` or `atanh (num/den)` (R141, R206). -/
inductive Atom where
  | atan (num den : Nat)
  | atanh (num den : Nat)
deriving DecidableEq, Repr

/-- One signed elementary angle of a sum: minus the atom where `neg` holds. -/
structure AngleTerm where
  neg : Bool
  atom : Atom
deriving DecidableEq, Repr

/-- The exact real `base + Σ terms`: the residual `z` of an ideal run (R30), newest term first. -/
structure Angle where
  base : Dyad
  terms : List AngleTerm
deriving DecidableEq, Repr

/-- The exact real of an ideal result cell (R25, R173, R208).
`scaled v n d` is `v · sqrt (n/d)` (a gain-corrected component), `quot v d` is `v / d` (a normalized stage accumulator). -/
inductive ExactReal where
  | scaled (v : Dyad) (radNum radDen : Nat)
  | quot (v : Dyad) (d : Nat)
  | angle (a : Angle)
deriving DecidableEq, Repr

/-- The value of a result cell: `ResVal = word(w) | real(r)` (R25). -/
inductive ResVal where
  | word (w : Word)
  | real (r : ExactReal)
deriving DecidableEq, Repr

end Machine

end Sys2Proof
end

