-- ==== Sys2Proof/Syntax.lean ====
section
/-!
DEFINITION. Syntax.lean: the commands of CRE-CMD v1 (spec/30_encoding.md rules R79 to R81), one constructor per row of
spec/opcode_table.json, with the fields the command reads (R80). A field a command ignores is no operand of it.
-/

namespace Sys2Proof

/-- The fourteen commands. `shamt` is SHAMT, `ee` is EE, `iter` is ITER. The `A` commands are approximate (SEM = 0),
the `I` commands ideal (SEM = 1). -/
inductive Instr where
  | quant
  | neg
  | add
  | shr (shamt : Nat)
  | rotCircA (ee : Bool) (iter : Nat)
  | rotCircI (ee : Bool) (iter : Nat)
  | vecCircA (ee : Bool) (iter : Nat)
  | vecCircI (ee : Bool) (iter : Nat)
  | rotHypA (ee : Bool) (iter : Nat)
  | rotHypI (ee : Bool) (iter : Nat)
  | divLinA (ee : Bool) (iter : Nat)
  | divLinI (ee : Bool) (iter : Nat)
  | rotFastA (ee : Bool) (iter : Nat)
  | rotFastI (ee : Bool) (iter : Nat)
deriving DecidableEq, Repr

end Sys2Proof
end

