-- ==== Sys2Proof/WellFormed.lean ====
section
/-!
DEFINITION. WellFormed.lean: which terms of Instr a command word can carry: SHAMT is six bits and ITER is seven
(spec/30_encoding.md rule R79). ITER = 0 and ITER > 64 are well formed as words: they are commands that raise ConfigError
when they are issued (R83, R225).
-/

namespace Sys2Proof

/-- The operand fits its field of the command word (R79). -/
def Instr.wellFormed : Instr → Bool
  | .quant => true
  | .neg => true
  | .add => true
  | .shr shamt => decide (shamt < 64)
  | .rotCircA _ iter => decide (iter < 128)
  | .rotCircI _ iter => decide (iter < 128)
  | .vecCircA _ iter => decide (iter < 128)
  | .vecCircI _ iter => decide (iter < 128)
  | .rotHypA _ iter => decide (iter < 128)
  | .rotHypI _ iter => decide (iter < 128)
  | .divLinA _ iter => decide (iter < 128)
  | .divLinI _ iter => decide (iter < 128)
  | .rotFastA _ iter => decide (iter < 128)
  | .rotFastI _ iter => decide (iter < 128)

end Sys2Proof
end

