-- ==== Sys2Proof/Decode.lean ====
section
/-!
DEFINITION. Decode.lean: the command word (spec/30_encoding.md rules R79 to R85): its fields, the decoder, the encoder.
Decoding is total: a word is one of the fourteen commands or is refused by name.
-/

namespace Sys2Proof

/-- Why a word is no command (R84). -/
inductive DecodeError where
  /-- a reserved bit of CMD is 1 -/
  | reservedBits
  /-- OP is 9 to 15 -/
  | reservedOp
  /-- SEM = 1 with OP 0 to 3 -/
  | semNotAllowed
deriving DecidableEq, Repr

/-- `OP = c[3:0]` (R80). -/
def opField (c : Word) : BitVec 4 := c.extractLsb' 0 4

/-- `SEM = c[4]` (R80). -/
def semField (c : Word) : Bool := c.getLsbD 4

/-- `EE = c[5]` (R80). -/
def eeField (c : Word) : Bool := c.getLsbD 5

/-- `ITER = c[14:8]` (R80). -/
def iterField (c : Word) : Nat := (c.extractLsb' 8 7).toNat

/-- `SHAMT = c[21:16]` (R80). -/
def shamtField (c : Word) : Nat := (c.extractLsb' 16 6).toNat

/-- `RSV = {c[63:22], c[15], c[7:6]}` (R80). -/
def rsvField (c : Word) : BitVec 45 := c.extractLsb' 22 42 ++ c.extractLsb' 15 1 ++ c.extractLsb' 6 2

/-- The command of a word whose reserved bits are 0, by OP and SEM (R81, R84). -/
def decodeOp (c : Word) : Except DecodeError Instr :=
  match (opField c).toNat, semField c with
  | 0, false => .ok .quant
  | 1, false => .ok .neg
  | 2, false => .ok .add
  | 3, false => .ok (.shr (shamtField c))
  | 4, false => .ok (.rotCircA (eeField c) (iterField c))
  | 4, true => .ok (.rotCircI (eeField c) (iterField c))
  | 5, false => .ok (.vecCircA (eeField c) (iterField c))
  | 5, true => .ok (.vecCircI (eeField c) (iterField c))
  | 6, false => .ok (.rotHypA (eeField c) (iterField c))
  | 6, true => .ok (.rotHypI (eeField c) (iterField c))
  | 7, false => .ok (.divLinA (eeField c) (iterField c))
  | 7, true => .ok (.divLinI (eeField c) (iterField c))
  | 8, false => .ok (.rotFastA (eeField c) (iterField c))
  | 8, true => .ok (.rotFastI (eeField c) (iterField c))
  | op, true => if op < 4 then .error .semNotAllowed else .error .reservedOp
  | _, false => .error .reservedOp

/-- Decoding of a CMD word (R80): reserved bits are checked first, then OP, then SEM (R225, steps 1 to 3). -/
def decode (c : Word) : Except DecodeError Instr :=
  if rsvField c = 0 then decodeOp c else .error .reservedBits

/-- The word of R79's layout with the given fields and every other bit 0. -/
def cmdWord (op : BitVec 4) (sem ee : Bool) (iter shamt : Nat) : Word :=
  0#42 ++ BitVec.ofNat 6 shamt ++ 0#1 ++ BitVec.ofNat 7 iter ++ 0#2 ++ BitVec.ofBool ee ++ BitVec.ofBool sem ++ op

/-- The word of a command (R79, R81, and the last row of R89's table): fields the command ignores are 0. -/
def encode : Instr → Word
  | .quant => cmdWord 0 false false 0 0
  | .neg => cmdWord 1 false false 0 0
  | .add => cmdWord 2 false false 0 0
  | .shr shamt => cmdWord 3 false false 0 shamt
  | .rotCircA ee iter => cmdWord 4 false ee iter 0
  | .rotCircI ee iter => cmdWord 4 true ee iter 0
  | .vecCircA ee iter => cmdWord 5 false ee iter 0
  | .vecCircI ee iter => cmdWord 5 true ee iter 0
  | .rotHypA ee iter => cmdWord 6 false ee iter 0
  | .rotHypI ee iter => cmdWord 6 true ee iter 0
  | .divLinA ee iter => cmdWord 7 false ee iter 0
  | .divLinI ee iter => cmdWord 7 true ee iter 0
  | .rotFastA ee iter => cmdWord 8 false ee iter 0
  | .rotFastI ee iter => cmdWord 8 true ee iter 0

/-- The mask of every row of the opcode map (R81): OP, SEM and every reserved bit. -/
def rowMask : Word := 0xFFFFFFFFFFC080DF#64

/-- The match of the command's row, `OP | SEM << 4` (R81). -/
def matchWord : Instr → Word
  | .quant => 0x0#64
  | .neg => 0x1#64
  | .add => 0x2#64
  | .shr _ => 0x3#64
  | .rotCircA _ _ => 0x4#64
  | .rotCircI _ _ => 0x14#64
  | .vecCircA _ _ => 0x5#64
  | .vecCircI _ _ => 0x15#64
  | .rotHypA _ _ => 0x6#64
  | .rotHypI _ _ => 0x16#64
  | .divLinA _ _ => 0x7#64
  | .divLinI _ _ => 0x17#64
  | .rotFastA _ _ => 0x8#64
  | .rotFastI _ _ => 0x18#64

/-- A command given as a number of `nbits` bits, the bits above it 0, as a CMD word. There is one command length and no
byte order (R51, R85). -/
def tableWord (nbits w : Nat) : Word := BitVec.ofNat 64 (w % 2 ^ nbits)

/-- What the decoder reads from a word of the opcode table. -/
def decodeTableWord (nbits w : Nat) : Option Instr :=
  match decode (tableWord nbits w) with
  | .ok i => some i
  | .error _ => none

end Sys2Proof
end

