-- ==== Sys2Proof/Config.lean ====
section
/-!
DEFINITION. Config.lean: what an instance of the block fixes (spec/00_scope.md rule R6). The spec leaves no value open that an
instruction reads, so the model has no free value.
-/

namespace Sys2Proof.Machine

/-- `W_MAX`, the largest total_bits of any format (R6, D4). -/
def wMax : Nat := 32

/-- `ITER_MAX`, the largest iteration budget and the depth of the angle ROMs (R6, D5). -/
def iterMax : Nat := 64

/-- Fractional bits of a host value, Q31.32 (R6, R76, D3). -/
def hvFrac : Nat := 32

/-- `ROM_FRAC`, the fractional bits of a ROM word (R6, R88). -/
def romFrac : Nat := 64

/-- `I0`, the first index of every angle table (R6, R142, D11). -/
def firstIndex : Nat := 1

/-- `ROUND_MODE`, the tie rule of every rounding (R6, R7, R10, D6). -/
inductive RoundMode where
  | halfEven
  | halfAway
deriving DecidableEq, Repr

/-- `HYP_GAIN_RULE`, the gain of a repeated hyperbolic index (R6, R145, D13). -/
inductive HypGainRule where
  | perEntry
  | repoLiteral
deriving DecidableEq, Repr

/-- One entry of `STAGE_TABLE` (R200): the bracket `[lo, hi)` of `|residual|` in ROM words, the matrix `[[a,-b],[b,a]]`,
the scale `2^k`, and the angle word `phi`. -/
structure StageEntry where
  lo : Nat
  hi : Nat
  a : Nat
  b : Nat
  k : Nat
  phi : Nat
deriving DecidableEq, Repr

/-- The parameters of an instance (R6, R36): "fixed for an instance of the block and are arguments of the model".
`fastAccBits` changes no step: the model's accumulators are unbounded (R205, D36). -/
structure Params where
  roundMode : RoundMode
  hypGainRule : HypGainRule
  stageTable : List StageEntry
  fastAccBits : Nat
deriving DecidableEq, Repr

end Sys2Proof.Machine
end

