-- ==== Sys2Proof/Machine/Rom.lean ====
section
/-!
DEFINITION. Machine/Rom.lean: the read-only tables (spec/10_state.md rule R35) and the instance of the parameters that
State.reset names. The words are those of spec/42_angle_table_rom.md rules R150 and R152 and spec/44_stage_compressed.md
rule R213. A ROM word `w` stands for `w · 2^-64` (R88).
-/

namespace Sys2Proof.Machine

/-- `ROM_ATAN[1..64]` (R150); from `i = 21` on the word is `2^(64-i) - 1`. -/
def romAtanTable : List Nat :=
  [0x76B19C1586ED3DA2, 0x3EB6EBF25901BAC5, 0x1FD5BA9AAC2F6DC6, 0x0FFAADDB967EF4E3,
   0x07FF556EEA5D892A, 0x03FFEAAB776E5356, 0x01FFFD555BBBA972, 0x00FFFFAAAADDDDB9,
   0x007FFFF55556EEEE, 0x003FFFFEAAAAB777, 0x001FFFFFD55555BB, 0x000FFFFFFAAAAAAD] ++
  [0x0007FFFFFF555555, 0x0003FFFFFFEAAAAA, 0x0001FFFFFFFD5555, 0x0000FFFFFFFFAAAA,
   0x00007FFFFFFFF555, 0x00003FFFFFFFFEAA, 0x00001FFFFFFFFFD5, 0x00000FFFFFFFFFFA] ++
  (List.range 44).map (fun j => 2 ^ (43 - j) - 1)

/-- `ROM_ATANH[1..64]` (R150); from `i = 21` on the word is `2^(64-i)`. -/
def romAtanhTable : List Nat :=
  [0x8C9F53D5681854BB, 0x4162BBEA0451469C, 0x202B12393D5DEED3, 0x1005588AD375ACDC,
   0x0800AAC448D77125, 0x04001556222B4726, 0x020002AAB111235A, 0x01000055558888AD,
   0x0080000AAAAC4444, 0x0040000155556222, 0x002000002AAAAB11, 0x0010000005555558] ++
  [0x0008000000AAAAAA, 0x0004000000155555, 0x000200000002AAAA, 0x0001000000005555,
   0x0000800000000AAA, 0x0000400000000155, 0x000020000000002A, 0x0000100000000005] ++
  (List.range 44).map (fun j => 2 ^ (43 - j))

/-- `ROM_KC[1..64]` (R152); the word is the same from `N = 34` on. -/
def romKCTable : List Nat :=
  [0xE4F92E2DFF6EC9AB, 0xDE2304975988C25A, 0xDC6BE24170050F45, 0xDBFDFEB41E7E5529,
   0xDBE2841B293159A2, 0xDBDBA55978FE69CF, 0xDBD9EDA755602AFE, 0xDBD97FBAB0FDF4B9,
   0xDBD9643F862DB685, 0xDBD95D60BB5E2BD4, 0xDBD95BA908A89176, 0xDBD95B3B1BFB0F63] ++
  [0xDBD95B1FA0CFAD27, 0xDBD95B18C204D47C, 0xDBD95B170A521E50, 0xDBD95B169C6570C4,
   0xDBD95B1680EA4562, 0xDBD95B167A0B7A89, 0xDBD95B167853C7D3, 0xDBD95B1677E5DB25,
   0xDBD95B1677CA5FFA, 0xDBD95B1677C3812F, 0xDBD95B1677C1C97C, 0xDBD95B1677C15B90] ++
  [0xDBD95B1677C14014, 0xDBD95B1677C13936, 0xDBD95B1677C1377E, 0xDBD95B1677C13710,
   0xDBD95B1677C136F5, 0xDBD95B1677C136EE, 0xDBD95B1677C136EC, 0xDBD95B1677C136EC,
   0xDBD95B1677C136EB, 0xDBD95B1677C136EB] ++
  List.replicate 30 0xDBD95B1677C136EB

/-- `ROM_KH[1..64]`, the PER_ENTRY column (R152); the word is the same from `N = 34` on. -/
def romKHPerEntryTable : List Nat :=
  [0x1279A74590331C4D2, 0x1314C3D92A9E90CE4, 0x133B61605E13A5B60, 0x1345064D5A9C3D85A,
   0x134EB0106E8227DDE, 0x13511A5A60D7FF82F, 0x1351B4EA727582F38, 0x1351DB8E503627C4A,
   0x1351E537453C083EA, 0x1351E7A18256DC5DA, 0x1351E83C119B27279, 0x1351E862B56C13363] ++
  [0x1351E86C5E604BCFA, 0x1351E86EC89D59CF6, 0x1351E87132DA681C6, 0x1351E871CD69ABAD3,
   0x1351E871F40D7C914, 0x1351E871FDB670CA4, 0x1351E8720020ADD88, 0x1351E87200BB3D1C1,
   0x1351E87200E1E0ECF, 0x1351E87200EB89E13, 0x1351E87200EDF41E4, 0x1351E87200EE8EAD8] ++
  [0x1351E87200EEB5515, 0x1351E87200EEBEFA4, 0x1351E87200EEC1648, 0x1351E87200EEC1FF1,
   0x1351E87200EEC225B, 0x1351E87200EEC22F6, 0x1351E87200EEC231D, 0x1351E87200EEC2326,
   0x1351E87200EEC2329, 0x1351E87200EEC2329] ++
  List.replicate 30 0x1351E87200EEC2329

/-- `ROM_KH[1..64]`, the REPO_LITERAL column (R152); the word is the same from `N = 34` on. -/
def romKHLiteralTable : List Nat :=
  [0x1279A74590331C4D2, 0x1314C3D92A9E90CE4, 0x133B61605E13A5B60, 0x1345064D5A9C3D85A,
   0x13585EAC06A2E0660, 0x135ACA2C068F7E9BC, 0x135B65099A5C4ED83, 0x135B8BC0D89564F39,
   0x135B956EA5B82BB34, 0x135B97DA18DA26031, 0x135B9874F5A039233, 0x135B989BACD197340] ++
  [0x135B98A55A9DEC4CC, 0x135B98A7C611016C4, 0x135B98AC9CF72C938, 0x135B98AD37D3F1FFA,
   0x135B98AD5E8B235A9, 0x135B98AD6838EFB14, 0x135B98AD6AA462C6F, 0x135B98AD6B3F3F8C6,
   0x135B98AD6B65F6BDB, 0x135B98AD6B6FA48A1, 0x135B98AD6B720FFD2, 0x135B98AD6B72AAD9E] ++
  [0x135B98AD6B72D1911, 0x135B98AD6B72DB3EE, 0x135B98AD6B72DDAA5, 0x135B98AD6B72DE453,
   0x135B98AD6B72DE6BF, 0x135B98AD6B72DE75A, 0x135B98AD6B72DE780, 0x135B98AD6B72DE78A,
   0x135B98AD6B72DE78C, 0x135B98AD6B72DE78D] ++
  List.replicate 30 0x135B98AD6B72DE78D

/-- Entry `i` of a table whose entries are numbered from 1 (R151: "There is no entry 0"). -/
def romEntry (table : List Nat) (i : Nat) : Nat :=
  match i with
  | 0 => 0
  | j + 1 => table.getD j 0

/-- `ROM_ATAN[i]` (R150). -/
def romAtan (i : Nat) : Nat := romEntry romAtanTable i

/-- `ROM_ATANH[i]` (R150). -/
def romAtanh (i : Nat) : Nat := romEntry romAtanhTable i

/-- `ROM_KC[N]` (R152). -/
def romKC (n : Nat) : Nat := romEntry romKCTable n

/-- `ROM_KH[N]`: "`ROM_KH` holds the column of the instance's `HYP_GAIN_RULE`" (R152). -/
def romKH (rule : HypGainRule) (n : Nat) : Nat :=
  match rule with
  | .perEntry => romEntry romKHPerEntryTable n
  | .repoLiteral => romEntry romKHLiteralTable n

/-- The 37-entry example table of R213 (informative). Only `exampleParams` names it: every meaning takes its table from
`State.params`. -/
def exampleStageTable : List StageEntry :=
  [⟨0x0000000000000000, 0x0003FFFFFFAAAAAB, 1, 0, 0, 0x0000000000000000⟩,
   ⟨0x0003FFFFFFAAAAAB, 0x000BFFFFFD000002, 8192, 1, 13, 0x0007FFFFFF555555⟩,
   ⟨0x000BFFFFFD000002, 0x0013FFFFF4555563, 8192, 2, 13, 0x000FFFFFFAAAAAAD⟩,
   ⟨0x0013FFFFF4555563, 0x001BFFFFE1AAAAEA, 8192, 3, 13, 0x0017FFFFEE000018⟩,
   ⟨0x001BFFFFE1AAAAEA, 0x0023FFFFC10000CF, 8192, 4, 13, 0x001FFFFFD55555BB⟩,
   ⟨0x0023FFFFC10000CF, 0x002BFFFF8E555776, 8192, 5, 13, 0x0027FFFFACAAABE3⟩,
   ⟨0x002BFFFF8E555776, 0x0033FFFF45AAAF78, 8192, 6, 13, 0x002FFFFF70000309⟩,
   ⟨0x0033FFFF45AAAF78, 0x003BFFFEE30009AF, 8192, 7, 13, 0x0037FFFF1B555BE6⟩,
   ⟨0x003BFFFEE30009AF, 0x005FFFFA0000D333, 8192, 8, 13, 0x003FFFFEAAAAB777⟩,
   ⟨0x005FFFFA0000D333, 0x00BFFFD0001A6654, 512, 1, 9, 0x007FFFF55556EEEE⟩] ++
  [⟨0x00BFFFD0001A6654, 0x013FFF455631540B, 512, 2, 9, 0x00FFFFAAAADDDDB9⟩,
   ⟨0x013FFF455631540B, 0x01BFFE1AAEA039E7, 512, 3, 9, 0x017FFEE00184CA5B⟩,
   ⟨0x01BFFE1AAEA039E7, 0x023FFC100CF6FE77, 512, 4, 9, 0x01FFFD555BBBA972⟩,
   ⟨0x023FFC100CF6FE77, 0x02BFF8E577655A58, 512, 5, 9, 0x027FFACABE32537A⟩,
   ⟨0x02BFF8E577655A58, 0x033FF45AF77AA95F, 512, 6, 9, 0x02FFF70030986134⟩,
   ⟨0x033FF45AF77AA95F, 0x03BFEE309AE5A270, 512, 7, 9, 0x037FF1B5BE5CF188⟩,
   ⟨0x03BFEE309AE5A270, 0x043FE6267433F072, 512, 8, 9, 0x03FFEAAB776E5356⟩,
   ⟨0x043FE6267433F072, 0x04BFDBFC9B91A6BD, 512, 9, 9, 0x047FE1A170F98D8C⟩,
   ⟨0x04BFDBFC9B91A6BD, 0x053FCF732F888B77, 512, 10, 9, 0x04FFD657C629BFED⟩,
   ⟨0x053FCF732F888B77, 0x05BFC04A55BF3236, 512, 11, 9, 0x057FC88E98E756FF⟩] ++
  [⟨0x05BFC04A55BF3236, 0x063FAE423BB7E16A, 512, 12, 9, 0x05FFB80612970D6B⟩,
   ⟨0x063FAE423BB7E16A, 0x06BF991B178F3CEC, 512, 13, 9, 0x067FA47E64D8B567⟩,
   ⟨0x06BF991B178F3CEC, 0x073F809528BAB031, 512, 14, 9, 0x06FF8DB7CA45C470⟩,
   ⟨0x073F809528BAB031, 0x07BF6470B8C6928E, 512, 15, 9, 0x077F7372872F9BF1⟩,
   ⟨0x07BF6470B8C6928E, 0x0BFD01A5406E3F07, 512, 16, 9, 0x07FF556EEA5D892A⟩,
   ⟨0x0BFD01A5406E3F07, 0x17E8343B21573155, 32, 2, 5, 0x0FFAADDB967EF4E3⟩,
   ⟨0x17E8343B21573155, 0x286398CA129635E5, 32, 4, 5, 0x1FD5BA9AAC2F6DC6⟩,
   ⟨0x286398CA129635E5, 0x38CC6E4E33C1737D, 31, 6, 5, 0x30F176F978FCFE03⟩,
   ⟨0x38CC6E4E33C1737D, 0x4982D217C480B6C5, 31, 8, 5, 0x40A765A2EE85E8F7⟩,
   ⟨0x4982D217C480B6C5, 0x59E38E1D1C3941B9, 30, 10, 5, 0x525E3E8C9A7B8492⟩] ++
  [⟨0x59E38E1D1C3941B9, 0x6A4627ED6824CC03, 30, 12, 5, 0x6168DDAD9DF6FEE0⟩,
   ⟨0x6A4627ED6824CC03, 0x7C051A55DD8D1A42, 29, 14, 5, 0x7323722D32529926⟩,
   ⟨0x7C051A55DD8D1A42, 0x8FF5DE0E7E134909, 28, 16, 5, 0x84E6C27E88C79B5D⟩,
   ⟨0x8FF5DE0E7E134909, 0xA3E066134959C481, 26, 18, 5, 0x9B04F99E735EF6B3⟩,
   ⟨0xA3E066134959C481, 0xB80DC7BF67C17271, 25, 20, 5, 0xACBBD2881F54924E⟩,
   ⟨0xB80DC7BF67C17271, 0xCEBD1A0798671C45, 23, 22, 5, 0xC35FBCF6B02E5294⟩,
   ⟨0xCEBD1A0798671C45, 0xE577D42968D8AFA6, 21, 24, 5, 0xDA1A7718809FE5F5⟩]

/-- The instance State.reset names (log entry 2): the defaults of R6 for ROUND_MODE and HYP_GAIN_RULE, and, for the two
parameters R6 leaves OPEN, the example table of R213 and the accumulator width R205 gives for it. -/
def exampleParams : Params :=
  { roundMode := .halfEven, hypGainRule := .perEntry, stageTable := exampleStageTable, fastAccBits := 928 }

end Sys2Proof.Machine
end

