-- ==== Sys2Proof/Machine/State.lean ====
section
/-!
DEFINITION. Machine/State.lean: all the state spec/10_state.md gives the block, as plain data, the reasons a step can stop,
and the state after reset (spec/70_reset_and_hazards.md rules R240 and R241).
-/

namespace Sys2Proof.Machine

/-- `STATE`, the engine's state machine (R28). Values 6 and 7 of the field are never produced (R22), and have no name. -/
inductive EngState where
  | idle
  | running
  | convergedEarly
  | exhausted
  | done
  | error
deriving DecidableEq, Repr

/-- The five engine operations, OP 4 to 8 (R81). -/
inductive EngineOp where
  | rotCirc
  | vecCirc
  | rotHyp
  | divLin
  | rotFast
deriving DecidableEq, Repr

/-- The arithmetic semantics of a run (R82, R160). -/
inductive Sem where
  | approx
  | ideal
deriving DecidableEq, Repr

/-- The modes of the angle tables (R141). -/
inductive Mode where
  | circ
  | hyp
  | lin
deriving DecidableEq, Repr

/-- A format `Q(W, F)` (R70, R12). -/
structure Fmt where
  totalBits : Nat
  fracBits : Nat
deriving DecidableEq, Repr

/-- The stored bits of a FMT register: `W` is bits [5:0] and `F` is bits [13:8] (R23, R74). -/
structure FmtReg where
  w : BitVec 6
  f : BitVec 6
deriving DecidableEq, Repr

/-- The stored fields of STATUS (R22). BUSY is derived from STATE, and the reserved bits are not stored. -/
structure Status where
  state : EngState
  ovr : Bool
  errCode : BitVec 2
  errDetail : BitVec 8
  iters : BitVec 7
  lastOp : BitVec 4
  lastSem : Bool
deriving DecidableEq, Repr

/-- The registers the host writes: four formats (R23) and four operands (R24). -/
structure InRegs where
  fmtIn : FmtReg
  fmtOut : FmtReg
  fmtXy : FmtReg
  fmtZ : FmtReg
  opA : Word
  opB : Word
  opC : Word
  opD : Word
deriving DecidableEq, Repr

/-- The registers the block writes: three result cells (R25) and three bit strings (R26). -/
structure OutRegs where
  rx : ResVal
  ry : ResVal
  rz : ResVal
  inA : Word
  inB : Word
  out : Word
deriving DecidableEq, Repr

/-- The latched command (R29). `p`, `z` are the formats P and Z of an approximate command; an ideal command leaves them. -/
structure Latch where
  op : EngineOp
  sem : Sem
  ee : Bool
  n : Nat
  p : Fmt
  z : Fmt
  eps : Dyad
deriving DecidableEq, Repr

/-- The CordicState under approximate semantics: integers of `P`, `P` and `Z` (R30). -/
structure FixState where
  x : Int
  y : Int
  z : Int
deriving DecidableEq, Repr

/-- The CordicState under ideal semantics: exact reals (R30). -/
structure RealState where
  x : Dyad
  y : Dyad
  z : Angle
deriving DecidableEq, Repr

/-- The stage accumulators under approximate semantics: exact integers and the shift total (R33). -/
structure FixAcc where
  X : Int
  Y : Int
  L : Nat
deriving DecidableEq, Repr

/-- The stage accumulators under ideal semantics: exact reals and the cumulative divisor (R33). -/
structure RealAcc where
  X : Dyad
  Y : Dyad
  D : Nat
deriving DecidableEq, Repr

/-- The engine's internal state (R29 to R33): the latched command, the entry list `E`, the entry pointer `k`, the
CordicState and the stage accumulators. `latch.sem` says which of the two CordicStates and accumulators a run uses. -/
structure Engine where
  latch : Latch
  entries : List Nat
  k : Nat
  fix : FixState
  real : RealState
  fixAcc : FixAcc
  realAcc : RealAcc
deriving DecidableEq, Repr

/-- One item of an interleaving of the two agents (R58): a host action (R100), the WAIT loop of the program notation (R90),
or a turn of the engine. -/
inductive HostEvent where
  | write (a : Addr) (w : Word)
  | read (a : Addr)
  | reset
  | wait
  | engine
deriving DecidableEq, Repr

/-- The machine. `params` are the instance's parameters, which no step changes (R36); `status`, `ins`, `outs` are the host
registers (R20); `eng` is the engine's internal state. `pending` and `readData` are the model's own (log entry 3): what the
host and the engine will do, in order, and what the host's last read returned. -/
structure State where
  params : Params
  status : Status
  ins : InRegs
  outs : OutRegs
  eng : Engine
  pending : List HostEvent
  readData : Option ResVal
deriving DecidableEq, Repr

/-- Why the machine stops with a fault. The spec leaves no host action undefined (R235), so no run from reset meets one. -/
inductive Fault where
  /-- Raised by an engine step of a standard mode that is RUNNING with no entry of E left at its pointer. R32 and R107 rule
  it out; the invariant `State.Inv` proves that no step reaches it. SAFE: the model stops where it claims nothing. -/
  | noTableEntry
deriving DecidableEq, Repr

/-- Why the model refuses a step. -/
inductive Refusal where
  /-- Answered by exec's arm of an instruction that has no meaning yet. SAFE: nothing can be proved of it. No arm is left. -/
  | notModelled (mnemonic : String)
deriving DecidableEq, Repr

/-- STATUS at reset: 0, IDLE with no error (R22, R240). -/
def Status.reset : Status :=
  { state := .idle, ovr := false, errCode := 0, errDetail := 0, iters := 0, lastOp := 0, lastSem := false }

/-- A FMT register at reset: `W = 0`, invalid (R23). -/
def FmtReg.reset : FmtReg := { w := 0, f := 0 }

/-- The formats and operands at reset (R20, R240). -/
def InRegs.reset : InRegs :=
  { fmtIn := FmtReg.reset, fmtOut := FmtReg.reset, fmtXy := FmtReg.reset, fmtZ := FmtReg.reset,
    opA := 0, opB := 0, opC := 0, opD := 0 }

/-- The results and bit strings at reset: `word(0)` and 0 (R20, R240). -/
def OutRegs.reset : OutRegs :=
  { rx := .word 0, ry := .word 0, rz := .word 0, inA := 0, inB := 0, out := 0 }

/-- The internal state at reset. DESIGN CHOICE (log entry 1), safe: "A model may set them to any value, zeros included. No
rule can observe the choice" (R241). -/
def Engine.reset : Engine :=
  { latch := { op := .rotCirc, sem := .approx, ee := false, n := 0, p := ⟨0, 0⟩, z := ⟨0, 0⟩, eps := ⟨0, 0⟩ }
    entries := [], k := 0
    fix := ⟨0, 0, 0⟩, real := ⟨⟨0, 0⟩, ⟨0, 0⟩, ⟨⟨0, 0⟩, []⟩⟩
    fixAcc := ⟨0, 0, 0⟩, realAcc := ⟨⟨0, 0⟩, ⟨0, 0⟩, 0⟩ }

/-- An instance with parameters `p` right after power-on, which is the reset action (R240). -/
def State.resetWith (p : Params) : State :=
  { params := p, status := Status.reset, ins := InRegs.reset, outs := OutRegs.reset, eng := Engine.reset,
    pending := [], readData := none }

/-- The machine right after reset, of the instance `exampleParams` (log entry 2). -/
def State.reset : State := State.resetWith exampleParams

end Sys2Proof.Machine
end

