-- ==== Sys2Proof/Machine/Flags.lean ====
section
/-!
DEFINITION. Machine/Flags.lean: the STATUS word (spec/10_state.md rule R22) and the error codes
(spec/30_encoding.md rules R86 and R87, spec/60_exceptions.md rule R220). The datapath has no flags (R34).
-/

namespace Sys2Proof.Machine

/-- The operand a RangeError names (R87). -/
inductive RangeSubject where
  | opA
  | opB
  | opC
  | seedX
  | seedY
deriving DecidableEq, Repr

/-- The format boundary a RangeError names (R87). -/
inductive Bound where
  | aboveMax
  | belowMin
deriving DecidableEq, Repr

/-- The format register a ConfigError names (R87). -/
inductive FmtName where
  | fmtIn
  | fmtOut
  | fmtXy
  | fmtZ
deriving DecidableEq, Repr

/-- What is wrong with a format: `W` out of range, or `F ≥ W` (R87, R226). -/
inductive FmtFlaw where
  | width
  | frac
deriving DecidableEq, Repr

/-- Every error the block raises (R220). -/
inductive Cause where
  | range (subject : RangeSubject) (bound : Bound)
  | zeroDivisor
  | coverage
  | reservedOp
  | reservedBits
  | semNotAllowed
  | format (reg : FmtName) (flaw : FmtFlaw)
  | iterZero
  | iterTooLarge
deriving DecidableEq, Repr

/-- ERR_CODE: 1 RangeError, 2 DomainError, 3 ConfigError (R86). -/
def Cause.code : Cause → BitVec 2
  | .range _ _ => 1
  | .zeroDivisor => 2
  | .coverage => 2
  | .reservedOp => 3
  | .reservedBits => 3
  | .semNotAllowed => 3
  | .format _ _ => 3
  | .iterZero => 3
  | .iterTooLarge => 3

/-- The subject of a RangeError, ERR_DETAIL[3:0] (R87). -/
def RangeSubject.code : RangeSubject → BitVec 4
  | .opA => 1
  | .opB => 2
  | .opC => 3
  | .seedX => 4
  | .seedY => 5

/-- The qualifier of a RangeError, ERR_DETAIL[7:4] (R87). -/
def Bound.code : Bound → BitVec 4
  | .aboveMax => 1
  | .belowMin => 2

/-- The subject of a format's ConfigError (R87). -/
def FmtName.code : FmtName → BitVec 4
  | .fmtIn => 4
  | .fmtOut => 5
  | .fmtXy => 6
  | .fmtZ => 7

/-- The qualifier of a format's ConfigError (R87). -/
def FmtFlaw.code : FmtFlaw → BitVec 4
  | .width => 1
  | .frac => 2

/-- ERR_DETAIL: qualifier in bits [7:4], subject in bits [3:0] (R87). -/
def Cause.detail : Cause → BitVec 8
  | .range s b => b.code ++ s.code
  | .zeroDivisor => 0x01
  | .coverage => 0x02
  | .reservedOp => 0x01
  | .reservedBits => 0x02
  | .semNotAllowed => 0x03
  | .format r q => q.code ++ r.code
  | .iterZero => 0x08
  | .iterTooLarge => 0x09

/-- The ConfigError of a word that is no command (R84, R220). -/
def decodeCause : DecodeError → Cause
  | .reservedBits => .reservedBits
  | .reservedOp => .reservedOp
  | .semNotAllowed => .semNotAllowed

/-- STATE as STATUS shows it (R22). -/
def EngState.code : EngState → BitVec 3
  | .idle => 0
  | .running => 1
  | .convergedEarly => 2
  | .exhausted => 3
  | .done => 4
  | .error => 5

/-- BUSY: "1 exactly when STATE = RUNNING" (R22). -/
def Status.busy (st : Status) : Bool := decide (st.state = .running)

/-- The STATUS word a host read returns (R22): {0 [63:29], LAST_SEM [28], LAST_OP [27:24], 0 [23], ITERS [22:16],
ERR_DETAIL [15:8], 0 [7], ERR_CODE [6:5], OVR [4], BUSY [3], STATE [2:0]}. -/
def Status.word (st : Status) : Word :=
  0#35 ++ BitVec.ofBool st.lastSem ++ st.lastOp ++ 0#1 ++ st.iters ++ st.errDetail ++ 0#1 ++ st.errCode ++
    BitVec.ofBool st.ovr ++ BitVec.ofBool st.busy ++ st.state.code

end Sys2Proof.Machine
end

