-- ==== Sys2Proof/Machine/Operands.lean ====
section
/-!
DEFINITION. Machine/Operands.lean: numbers and formats (spec/00_scope.md rules R9, R10, R12; spec/30_encoding.md rules R71 to
R78) and the four fixed-point primitives as functions (spec/41_fixed_point_primitives.md rules R120 to R128).
-/

namespace Sys2Proof.Machine

/-- `num / 2^exp` in lowest terms, so that equal numbers are equal data. -/
def Dyad.reduce : Int → Nat → Dyad
  | n, 0 => ⟨n, 0⟩
  | n, e + 1 => if n % 2 = 0 then Dyad.reduce (n / 2) e else ⟨n, e + 1⟩

/-- `sgnp(n) = +1` if `n ≥ 0`, as a truth value: the direction `d = +1` (R10, D10). -/
def sgnp (n : Int) : Bool := decide (0 ≤ n)

/-- `clamp(n, lo, hi) = min(hi, max(lo, n))` (R10). -/
def clampInt (n lo hi : Int) : Int := min hi (max lo n)

/-- `RoundInt(n / 2^d)` (R10), computed as the integer datapath of R122 does. -/
def roundInt (m : RoundMode) (n : Int) (d : Nat) : Int :=
  match d with
  | 0 => n
  | e + 1 =>
    match m with
    | .halfAway => if sgnp n then (|n| + pow2 e) >>> (e + 1) else -((|n| + pow2 e) >>> (e + 1))
    | .halfEven =>
      let t0 := n >>> (e + 1)
      let r := n - t0 * pow2 (e + 1)
      if pow2 e < r ∨ (r = pow2 e ∧ t0 % 2 = 1) then t0 + 1 else t0

/-- `f.nmin = -2^(W-1)` (R12). -/
def Fmt.nmin (f : Fmt) : Int := -pow2 (f.totalBits - 1)

/-- `f.nmax = 2^(W-1) - 1` (R12). -/
def Fmt.nmax (f : Fmt) : Int := pow2 (f.totalBits - 1) - 1

/-- Saturation to the format's integer range (R10, R12). -/
def Fmt.clamp (f : Fmt) (n : Int) : Int := clampInt n f.nmin f.nmax

/-- `val_f(n) = n · 2^-F` (R12). -/
def Fmt.val (f : Fmt) (n : Int) : Dyad := ⟨n, f.fracBits⟩

/-- `bits_W(n) = n mod 2^W` (R9). -/
def bitsOf (w : Nat) (n : Int) : Int := n % pow2 w

/-- `sext_W(p)` (R9). -/
def sextOf (w : Nat) (p : Int) : Int := if p < pow2 (w - 1) then p else p - pow2 w

/-- The word `bits_64(n)` (R9, R72). -/
def wordOf (n : Int) : Word := BitVec.ofInt 64 n

/-- A format's result cell, `word(bits_64(n))` (R25, R72). -/
def resWord (n : Int) : ResVal := .word (wordOf n)

/-- `hv(h) = sext_64(h) · 2^-32` (R76). -/
def hv (h : Word) : Dyad := Dyad.reduce h.toInt hvFrac

/-- `decode_fmt(r) = Q(r[5:0], r[13:8])` (R74). -/
def FmtReg.fmt (r : FmtReg) : Fmt := ⟨r.w.toNat, r.f.toNat⟩

/-- What a host write stores in a FMT register: bits [5:0] and [13:8] (R23). -/
def FmtReg.ofWord (c : Word) : FmtReg := ⟨c.extractLsb' 0 6, c.extractLsb' 8 6⟩

/-- What a host read of a FMT register returns: the bits that are not stored read 0 (R23). -/
def FmtReg.word (r : FmtReg) : Word := 0#50 ++ r.f ++ 0#2 ++ r.w

/-- The FMT word `W | F << 8` (R89). -/
def fmtWord (w f : Nat) : Word := FmtReg.word ⟨BitVec.ofNat 6 w, BitVec.ofNat 6 f⟩

/-- The HV word of the dyadic rational `v`: `bits_64(RoundInt_HALF_EVEN(v · 2^32))` (R77). -/
def hvWord (v : Dyad) : Word := wordOf (roundInt .halfEven (v.num * pow2 hvFrac) v.exp)

/-- The format check (R226, R78): a valid format has `1 ≤ W ≤ W_MAX` and `F < W`. -/
def checkFmt (name : FmtName) (r : FmtReg) : Except Cause Fmt :=
  if r.fmt.totalBits = 0 ∨ wMax < r.fmt.totalBits then .error (.format name .width)
  else if r.fmt.totalBits ≤ r.fmt.fracBits then .error (.format name .frac)
  else .ok r.fmt

/-- The budget check (R83, step 5 of R225). -/
def checkIter (n : Nat) : Except Cause Unit :=
  if n = 0 then .error .iterZero else if iterMax < n then .error .iterTooLarge else .ok ()

/-- `RoundInt(v · 2^F)` for the format's `F`. -/
def roundTo (m : RoundMode) (v : Dyad) (f : Fmt) : Int := roundInt m (v.num * pow2 f.fracBits) v.exp

/-- `Quantize(v, f)` (R120). -/
def quantize (m : RoundMode) (v : Dyad) (f : Fmt) : Int := f.clamp (roundTo m v f)

/-- `Enc(v, f, s)` (R121). -/
def enc (m : RoundMode) (v : Dyad) (f : Fmt) (s : RangeSubject) : Except Cause Int :=
  if f.nmax < roundTo m v f then .error (.range s .aboveMax)
  else if roundTo m v f < f.nmin then .error (.range s .belowMin)
  else .ok (roundTo m v f)

/-- `Rq(n, fin, fout) = Quantize(val_fin(n), fout)` (R122). -/
def requantize (m : RoundMode) (n : Int) (fin fout : Fmt) : Int := quantize m (fin.val n) fout

/-- The bit flip of Negate: `sext_W((2^W - 1) - bits_W(n))` (R123). -/
def flipBits (w : Nat) (n : Int) : Int := sextOf w (pow2 w - 1 - bitsOf w n)

/-- `Negate(a, fin, fout, s)` (R123). -/
def negate (m : RoundMode) (a : Dyad) (fin fout : Fmt) (s : RangeSubject) : Except Cause Int :=
  (enc m a fin s).map (fun n => requantize m (flipBits fin.totalBits n) fin fout)

/-- The saturated sum of two integers of `f` (R124). -/
def addSat (f : Fmt) (na nb : Int) : Int := f.clamp (na + nb)

/-- `Add(a, b, fin, fout)` (R124). -/
def addQ (m : RoundMode) (a b : Dyad) (fin fout : Fmt) : Int :=
  requantize m (addSat fin (quantize m a fin) (quantize m b fin)) fin fout

/-- `n >> k`, the arithmetic right shift `floor(n / 2^k)` (R10). -/
def asr (n : Int) (k : Nat) : Int := n >>> k

/-- `SRS(a, k, fin, fout, s)` (R125). -/
def shiftRight (m : RoundMode) (a : Dyad) (k : Nat) (fin fout : Fmt) (s : RangeSubject) : Except Cause Int :=
  (enc m a fin s).map (fun n => requantize m (asr n k) fin fout)

/-- `shr_f(n, i) = n >> i` (R126). -/
def shrF (n : Int) (i : Nat) : Int := asr n i

/-- `add_f(n, m) = clamp(n + m)` (R126). -/
def addF (f : Fmt) (n m : Int) : Int := f.clamp (n + m)

/-- `neg_f(m) = -m - 1` (R126). -/
def negF (m : Int) : Int := -m - 1

/-- `sub_f(n, m) = clamp(n - m - 1)` (R126, R128): every subtraction is biased by one step. -/
def subF (f : Fmt) (n m : Int) : Int := f.clamp (n - m - 1)

/-- The mode of an operation (R163). ROT.FAST uses no angle table; its row is never read. -/
def EngineOp.mode : EngineOp → Mode
  | .rotCirc => .circ
  | .vecCirc => .circ
  | .rotHyp => .hyp
  | .divLin => .lin
  | .rotFast => .circ

/-- The OP field of an engine operation (R81). -/
def EngineOp.code : EngineOp → BitVec 4
  | .rotCirc => 4
  | .vecCirc => 5
  | .rotHyp => 6
  | .divLin => 7
  | .rotFast => 8

/-- The growth law of the repeated hyperbolic indices: `k_1 = 4`, `k_{n+1} = 3·k_n + 1` (R143, D12). -/
def repeatIndex : Nat → Nat
  | 0 => 4
  | n + 1 => 3 * repeatIndex n + 1

/-- `i ∈ R_H` (R143). The law grows past its position, so the members up to `i` stand among the first `i`. -/
def isRepeat (i : Nat) : Bool := (List.range i).any (fun n => repeatIndex n == i)

/-- The indices from `i` on, `n` entries, repeats counted (R143): the second copy is cut where the budget ends. -/
def tableFrom (mode : Mode) : Nat → Nat → List Nat
  | 0, _ => []
  | 1, i => [i]
  | n + 2, i =>
    if mode = .hyp ∧ isRepeat i then i :: i :: tableFrom mode n (i + 1) else i :: tableFrom mode (n + 1) (i + 1)

/-- `AngleTable(mode, N)` (R143). -/
def angleTable (mode : Mode) (n : Nat) : List Nat := tableFrom mode n firstIndex

/-- A ROM angle word rounded into a format: `clamp((w + 2^(63-F)) >> (64-F))` (R148, R206). -/
def roundAngle (w : Nat) (z : Fmt) : Int :=
  z.clamp (asr ((w : Int) + pow2 (63 - z.fracBits)) (64 - z.fracBits))

/-- The quantized angle `θq(mode, i, Z)` (R148). -/
def thetaQ (m : RoundMode) (mode : Mode) (i : Nat) (z : Fmt) : Int :=
  match mode with
  | .circ => roundAngle (romAtan i) z
  | .hyp => roundAngle (romAtanh i) z
  | .lin => quantize m ⟨1, i⟩ z

/-- `Kw · 2^-64 · hv(h)`, exact (R166, R153). -/
def scaledSeed (kw : Nat) (h : Word) : Dyad := ⟨(kw : Int) * h.toInt, romFrac + hvFrac⟩

end Sys2Proof.Machine
end

