-- ==== Sys2Proof/Machine/Exact.lean ====
section
/-!
DEFINITION. Machine/Exact.lean: the ideal strategy's exact arithmetic (spec/43_cordic_engine.md rule R160). Rationals are
dyadic and exact. An irrational residual is the sum of a dyadic and of elementary angles, kept as written; its sign is
decided exactly, by an exact candidate test for zero and by intervals of growing precision (log entry 4).
-/

namespace Sys2Proof.Machine

/-- Exact sum. -/
def Dyad.add (a b : Dyad) : Dyad :=
  Dyad.reduce (a.num * pow2 (max a.exp b.exp - a.exp) + b.num * pow2 (max a.exp b.exp - b.exp)) (max a.exp b.exp)

/-- Exact negation. -/
def Dyad.neg (a : Dyad) : Dyad := ⟨-a.num, a.exp⟩

/-- Exact difference. -/
def Dyad.sub (a b : Dyad) : Dyad := Dyad.add a (Dyad.neg b)

/-- Exact product with an integer. -/
def Dyad.scale (n : Int) (a : Dyad) : Dyad := Dyad.reduce (n * a.num) a.exp

/-- `a · 2^-i`, exact (R160). -/
def Dyad.shr (a : Dyad) (i : Nat) : Dyad := Dyad.reduce a.num (a.exp + i)

/-- `|a|`. -/
def Dyad.abs (a : Dyad) : Dyad := ⟨|a.num|, a.exp⟩

/-- `a ≤ b`, exact. -/
def Dyad.le (a b : Dyad) : Bool := decide (a.num * pow2 b.exp ≤ b.num * pow2 a.exp)

/-- A ROM word's real, `w · 2^-64` (R88). -/
def Dyad.ofRom (w : Nat) : Dyad := Dyad.reduce (w : Int) romFrac

/-- An integer interval `[lo, hi]` that stands for reals between `lo · 2^-p` and `hi · 2^-p`. -/
structure Ival where
  lo : Int
  hi : Int
deriving DecidableEq, Repr

/-- Interval sum. -/
def Ival.add (a b : Ival) : Ival := ⟨a.lo + b.lo, a.hi + b.hi⟩

/-- Interval negation. -/
def Ival.neg (a : Ival) : Ival := ⟨-a.hi, -a.lo⟩

/-- `floor(2^p · r^(2k+1) / (2k+1))` for `r = num/den`, a term of the series of atan and atanh. -/
def seriesTerm (p num den k : Nat) : Nat := 2 ^ p * num ^ (2 * k + 1) / (den ^ (2 * k + 1) * (2 * k + 1))

/-- The first `n` terms of `atan r = Σ (-1)^k r^(2k+1)/(2k+1)`. -/
def atanPartial (p num den : Nat) : Nat → Ival
  | 0 => ⟨0, 0⟩
  | n + 1 =>
    if n % 2 = 0 then (atanPartial p num den n).add ⟨seriesTerm p num den n, seriesTerm p num den n + 1⟩
    else (atanPartial p num den n).add (Ival.neg ⟨seriesTerm p num den n, seriesTerm p num den n + 1⟩)

/-- `atan (num/den)` from `n` terms: the rest is at most the next term. -/
def atanSeries (p num den n : Nat) : Ival :=
  (atanPartial p num den n).add ⟨-(seriesTerm p num den n + 1 : Int), seriesTerm p num den n + 1⟩

/-- The first `n` terms of `atanh r = Σ r^(2k+1)/(2k+1)`. -/
def atanhPartial (p num den : Nat) : Nat → Ival
  | 0 => ⟨0, 0⟩
  | n + 1 => (atanhPartial p num den n).add ⟨seriesTerm p num den n, seriesTerm p num den n + 1⟩

/-- `atanh (num/den)` for `num/den ≤ 1/2` from `n` terms: the rest is at most twice the next term. -/
def atanhSeries (p num den n : Nat) : Ival :=
  (atanhPartial p num den n).add ⟨0, 2 * (seriesTerm p num den n + 1)⟩

/-- A number of terms that leaves a rest of about `2^-p`. -/
def seriesLength (p num den : Nat) : Nat := p / (2 * Nat.log2 (den / num)) + 2

/-- `atan (num/den)` at precision `p`: up to `1/2` by the series, above by
`atan (b/a) = atan (1/2) + atan ((2b - a)/(2a + b))`. -/
def atanIval (p : Nat) : Nat → Nat → Nat → Ival
  | 0, num, den => if 2 * num ≤ den then atanSeries p num den (seriesLength p num den) else ⟨0, 2 * pow2 p⟩
  | fuel + 1, num, den =>
    if 2 * num ≤ den then atanSeries p num den (seriesLength p num den)
    else (atanSeries p 1 2 (seriesLength p 1 2)).add (atanIval p fuel (2 * num - den) (2 * den + num))

/-- An elementary angle at precision `p`. -/
def Atom.ival (p : Nat) : Atom → Ival
  | .atan num den => atanIval p 4 num den
  | .atanh num den => atanhSeries p num den (seriesLength p num den)

/-- A signed elementary angle at precision `p`. -/
def AngleTerm.ival (p : Nat) (t : AngleTerm) : Ival := if t.neg then (t.atom.ival p).neg else t.atom.ival p

/-- A sum of signed elementary angles at precision `p`. -/
def termsIval (p : Nat) : List AngleTerm → Ival
  | [] => ⟨0, 0⟩
  | t :: ts => (t.ival p).add (termsIval p ts)

/-- A dyadic at precision `p`. -/
def Dyad.ival (p : Nat) (a : Dyad) : Ival := ⟨asr (a.num * pow2 p) a.exp, asr (a.num * pow2 p) a.exp + 1⟩

/-- An exact real at precision `p`. -/
def Angle.ival (p : Nat) (z : Angle) : Ival := (z.base.ival p).add (termsIval p z.terms)

/-- The product of the Gaussian integers `den ± num·i` of the atan terms: its argument is their sum. -/
def gaussProduct : List AngleTerm → Int × Int
  | [] => (1, 0)
  | t :: ts =>
    match t.atom with
    | .atan num den =>
      let b : Int := if t.neg then -(num : Int) else (num : Int)
      ((den : Int) * (gaussProduct ts).1 - b * (gaussProduct ts).2, b * (gaussProduct ts).1 + (den : Int) * (gaussProduct ts).2)
    | .atanh _ _ => gaussProduct ts

/-- The product of the ratios `(den + num)/(den - num)` of the atanh terms, or their inverses: half its logarithm is their
sum. -/
def ratioProduct : List AngleTerm → Int × Int
  | [] => (1, 1)
  | t :: ts =>
    match t.atom with
    | .atan _ _ => ratioProduct ts
    | .atanh num den =>
      if t.neg then (((den : Int) - num) * (ratioProduct ts).1, ((den : Int) + num) * (ratioProduct ts).2)
      else (((den : Int) + num) * (ratioProduct ts).1, ((den : Int) - num) * (ratioProduct ts).2)

/-- What a sum that is 0 must satisfy, decided without rounding: no rational part, atan terms whose product is a positive real,
atanh terms whose product is 1. Of such sums only the multiples of `2π` other than 0 are not 0. -/
def Angle.zeroCandidate (z : Angle) : Bool :=
  decide (z.base.num = 0) && decide ((gaussProduct z.terms).2 = 0) && decide (0 < (gaussProduct z.terms).1) &&
    decide ((ratioProduct z.terms).1 = (ratioProduct z.terms).2)

/-- Whether `z ≥ 0`, if precision `p` decides it: an interval that excludes one answer, or a zero candidate within `[-1, 1]`,
which is 0. -/
def Angle.signAt (z : Angle) (p : Nat) : Option Bool :=
  if 0 ≤ (z.ival p).lo then some true
  else if (z.ival p).hi < 0 then some false
  else if z.zeroCandidate && decide (-pow2 p ≤ (z.ival p).lo) && decide ((z.ival p).hi ≤ pow2 p) then some true
  else none

/-- The answer of the first of some precisions that decides. -/
def signLadder (z : Angle) : List Nat → Option Bool
  | [] => none
  | p :: ps =>
    match z.signAt p with
    | some b => some b
    | none => signLadder z ps

/-- The answer of the first of the precisions `p, 2p, 4p, …` that decides. The search ends for every residual of a run: one of
them decides (log entry 4, Laws/Exact.lean). -/
def signSearch (z : Angle) (p : Nat) : Option Bool :=
  match z.signAt p with
  | some b => some b
  | none => signSearch z (2 * p)
partial_fixpoint

/-- The precisions tried first, in bits. In practice they suffice, and the kernel evaluates them. -/
def signPrecisions : List Nat := [64, 256, 1024, 4096, 16384]

/-- `sgnp(z) = +1`, that is `z ≥ 0` (R10), exact: for every residual a run forms, `true` exactly where the real number is at least
0 (log entry 4). The default stands for a search that does not end, which only an expression that no run forms can have. -/
def Angle.nonneg (z : Angle) : Bool :=
  match signLadder z signPrecisions with
  | some b => b
  | none => (signSearch z 65536).getD true

/-- The exact real of a rational. -/
def Angle.ofDyad (a : Dyad) : Angle := ⟨a, []⟩

/-- `-z`. -/
def Angle.neg (z : Angle) : Angle := ⟨z.base.neg, z.terms.map (fun t => ⟨!t.neg, t.atom⟩)⟩

/-- `z + a` for a rational `a`. -/
def Angle.addDyad (z : Angle) (a : Dyad) : Angle := ⟨z.base.add a, z.terms⟩

/-- `z - d·θ` for an elementary angle θ, `d = +1` where `d` holds. The angle `atan 0 = 0` adds no term. -/
def Angle.subAtom (z : Angle) (d : Bool) (t : Atom) : Angle :=
  match t with
  | .atan 0 _ => z
  | t => ⟨z.base, ⟨d, t⟩ :: z.terms⟩

/-- `|z| ≤ eps` for a rational `eps` (R172). -/
def Angle.absLe (z : Angle) (eps : Dyad) : Bool :=
  (z.neg.addDyad eps).nonneg && (z.addDyad eps).nonneg

/-- `z - d·θ_i` with the exact elementary angle of R141: `atan (2^-i)`, `atanh (2^-i)` or `2^-i`. -/
def Angle.subElem (z : Angle) (d : Bool) (mode : Mode) (i : Nat) : Angle :=
  match mode with
  | .circ => z.subAtom d (.atan 1 (2 ^ i))
  | .hyp => z.subAtom d (.atanh 1 (2 ^ i))
  | .lin => z.addDyad (Dyad.shr ⟨if d then -1 else 1, 0⟩ i)

/-- Numerator and denominator of `K_circ(N)^2 = Π (1 + 4^-i)^-1` over the entries (R145). -/
def gainSqCirc : List Nat → Nat × Nat
  | [] => (1, 1)
  | i :: es => (4 ^ i * (gainSqCirc es).1, (4 ^ i + 1) * (gainSqCirc es).2)

/-- Numerator and denominator of `K_hyp(N)^2 = Π (1 - 4^-i)^-1` over the entries, repeats included (R145, PER_ENTRY). -/
def gainSqHyp : List Nat → Nat × Nat
  | [] => (1, 1)
  | i :: es => (4 ^ i * (gainSqHyp es).1, (4 ^ i - 1) * (gainSqHyp es).2)

/-- Numerator and denominator of `K_hyp(N)^2` under REPO_LITERAL (R145): an index that appears once has the factor
`(1 - 4^-i)^-1`, one that appears twice `(1 - 4^-i)^-3`. The second copy follows the first (R143). -/
def gainSqLiteral : List Nat → Nat × Nat
  | [] => (1, 1)
  | [i] => (4 ^ i, 4 ^ i - 1)
  | i :: j :: es =>
    if i = j then ((4 ^ i) ^ 3 * (gainSqLiteral es).1, (4 ^ i - 1) ^ 3 * (gainSqLiteral es).2)
    else (4 ^ i * (gainSqLiteral (j :: es)).1, (4 ^ i - 1) * (gainSqLiteral (j :: es)).2)

/-- `K^2` of an operation and a budget, exact (R145, R163). -/
def gainSq (rule : HypGainRule) (op : EngineOp) (n : Nat) : Nat × Nat :=
  match op with
  | .rotCirc => gainSqCirc (angleTable .circ n)
  | .vecCirc => gainSqCirc (angleTable .circ n)
  | .rotHyp =>
    match rule with
    | .perEntry => gainSqHyp (angleTable .hyp n)
    | .repoLiteral => gainSqLiteral (angleTable .hyp n)
  | .divLin => (1, 1)
  | .rotFast => (1, 1)

end Sys2Proof.Machine
end

