-- ==== Sys2Proof/Machine/Ops.lean ====
section
/-!
DEFINITION. Machine/Ops.lean: the named operations on the state that several meanings share: the host's register access
(spec/10_state.md, spec/20_memory.md), command issue (spec/40_command_dispatch.md rules R101 to R104), raising an error
(spec/60_exceptions.md rule R221) and its clearing (R224), and reset (spec/70_reset_and_hazards.md rule R240).
-/

namespace Sys2Proof.Machine

/-- What a step of this machine answers. -/
abbrev Result := Host.Outcome State Fault Refusal

/-- Replace STATUS. -/
def State.setStatus (st : Status) (s : State) : State := { s with status := st }

/-- Replace the registers the host writes. -/
def State.setIns (r : InRegs) (s : State) : State := { s with ins := r }

/-- Replace the registers the block writes. -/
def State.setOuts (r : OutRegs) (s : State) : State := { s with outs := r }

/-- Replace the engine's internal state. -/
def State.setEng (e : Engine) (s : State) : State := { s with eng := e }

/-- Replace the host's remaining actions. -/
def State.setPending (p : List HostEvent) (s : State) : State := { s with pending := p }

/-- Replace what the host's last read returned. -/
def State.setReadData (v : Option ResVal) (s : State) : State := { s with readData := v }

/-- STATE = RUNNING. -/
def State.running (s : State) : Bool := decide (s.status.state = .running)

/-! ### Taking an error, and the return from one -/

/-- Raising an error (R221): ERR_CODE, ERR_DETAIL and STATE change in one action. ITERS, the results and the bit strings
keep their values, and the engine's state is abandoned as it stands. -/
def State.raise (c : Cause) (s : State) : State :=
  s.setStatus { s.status with errCode := c.code, errDetail := c.detail, state := .error }

/-- The start of a command issue (R102): LAST_OP and LAST_SEM are set, OVR, the error report and ITERS are cleared. It is the
only return from an error: "'Return' is the host's next CMD write" (R228, R224). -/
def State.beginIssue (op : BitVec 4) (sem : Bool) (s : State) : State :=
  s.setStatus { s.status with lastOp := op, lastSem := sem, ovr := false, errCode := 0, errDetail := 0, iters := 0 }

/-- A CMD write while RUNNING: "does `STATUS.OVR <- 1` and nothing else" (R101). -/
def State.dropCommand (s : State) : State := s.setStatus { s.status with ovr := true }

/-- Command issue (R101, R102). `body` is what is particular to the command: its checks, in the order of R225, and its
effect. An error of a check is raised on the state the issue has begun, so nothing else of the command happens. -/
def issue (op : BitVec 4) (sem : Bool) (body : State → Except Cause State) (s : State) : Result :=
  if s.running then .next s.dropCommand
  else
    match body (s.beginIssue op sem) with
    | .ok t => .next t
    | .error c => .next ((s.beginIssue op sem).raise c)

/-- The issue of a word that is no command: ConfigError, LAST_OP and LAST_SEM as the word has them (R84, R102). -/
def refuseWord (e : DecodeError) (c : Word) (s : State) : Result :=
  issue (opField c) (semField c) (fun _ => .error (decodeCause e)) s

/-- Completion of a primitive (R103): RX and the three bit strings are written, STATE is DONE, ITERS stays 0. -/
def State.finishPrimitive (rx : ResVal) (inA inB out : Word) (s : State) : State :=
  (s.setOuts { s.outs with rx := rx, inA := inA, inB := inB, out := out }).setStatus { s.status with state := .done }

/-- Acceptance of an engine command (R104): the engine's state is latched and seeded, `k <- 0`, ITERS is 0, STATE is
RUNNING. -/
def State.accept (e : Engine) (s : State) : State :=
  (s.setEng { e with k := 0 }).setStatus { s.status with iters := 0, state := .running }

/-! ### Host register access -/

/-- The stage ROM and the angle and gain ROMs have no host address (R50). A read of CMD and of a reserved address returns 0
(R52). A read of a result cell returns the cell, a `real` one as the exact real (R25, R100). -/
def State.readReg (a : Addr) (s : State) : ResVal :=
  match a.toNat with
  | 1 => .word s.status.word
  | 2 => .word s.ins.fmtIn.word
  | 3 => .word s.ins.fmtOut.word
  | 4 => .word s.ins.fmtXy.word
  | 5 => .word s.ins.fmtZ.word
  | 6 => .word s.ins.opA
  | 7 => .word s.ins.opB
  | 8 => .word s.ins.opC
  | 9 => .word s.ins.opD
  | 10 => s.outs.rx
  | 11 => s.outs.ry
  | 12 => s.outs.rz
  | 13 => .word s.outs.inA
  | 14 => .word s.outs.inB
  | 15 => .word s.outs.out
  | _ => .word 0

/-- What a host write to an address other than CMD leaves in the registers: an RW register takes the word, less the bits
that are not stored (R23, R24, R55); a write to an RO register or a reserved address is ignored (R52). -/
def InRegs.write (a : Addr) (w : Word) (r : InRegs) : InRegs :=
  match a.toNat with
  | 2 => { r with fmtIn := FmtReg.ofWord w }
  | 3 => { r with fmtOut := FmtReg.ofWord w }
  | 4 => { r with fmtXy := FmtReg.ofWord w }
  | 5 => { r with fmtZ := FmtReg.ofWord w }
  | 6 => { r with opA := w }
  | 7 => { r with opB := w }
  | 8 => { r with opC := w }
  | 9 => { r with opD := w }
  | _ => r

/-- A host write to an address other than CMD. It takes effect at once, even while RUNNING (R23, R24). -/
def State.writeReg (a : Addr) (w : Word) (s : State) : State := s.setIns (s.ins.write a w)

/-- A host read: it changes nothing of the block (R55, R100). What it returned is the model's `readData`. -/
def State.hostRead (a : Addr) (s : State) : State := s.setReadData (some (s.readReg a))

/-- One round of WAIT (R90): STATUS is read, and while BUSY is 1 the loop goes on. The model gives the engine one turn
between two polls; other interleavings are written out as reads and turns (log entry 3). -/
def State.poll (s : State) : State :=
  if s.running then (s.hostRead 1).setPending (.engine :: .wait :: s.pending) else s.hostRead 1

/-- The reset action (R240): every host register at its reset value, the engine's state abandoned, the parameters and ROMs
kept. The host's remaining actions and its last read are the host's, not the block's. -/
def State.resetAction (s : State) : State :=
  { State.resetWith s.params with pending := s.pending, readData := s.readData }

/-- STATE ≠ RUNNING: the block is quiescent (R110). -/
def State.quiescent (s : State) : Bool := !s.running

end Sys2Proof.Machine
end

