-- ==== Sys2Proof/Machine/Standard.lean ====
section
/-!
DEFINITION. Machine/Standard.lean: the eight commands of the standard modes (spec/43_cordic_engine.md rules R160 to R187):
their issue (checks, latching, seeding) and the iteration rule each applies at an engine step. The frame of an engine
step stands in Machine/Engine.lean.
-/

namespace Sys2Proof.Machine

/-! ### Issue -/

/-- Issue of an approximate engine command (R104, R161, R225): the formats P and Z, then the budget, then the seeds, which
the command's own rule gives. `seed` answers the engine's state with the command's CordicState or accumulators in it. -/
def issueApprox (op : EngineOp) (ee : Bool) (n : Nat) (seed : State → Fmt → Fmt → Engine → Except Cause Engine) (s : State) :
    Result :=
  issue op.code false (fun s => do
    let p ← checkFmt .fmtXy s.ins.fmtXy
    let z ← checkFmt .fmtZ s.ins.fmtZ
    checkIter n
    let e ← seed s p z { s.eng with latch := ⟨op, .approx, ee, n, p, z, hv s.ins.opD⟩ }
    .ok (s.accept e)) s

/-- Issue of an ideal engine command (R104, R161, R225): the budget, then the seeds. No format is read or latched. -/
def issueIdeal (op : EngineOp) (ee : Bool) (n : Nat) (seed : State → Engine → Except Cause Engine) (s : State) : Result :=
  issue op.code true (fun s => do
    checkIter n
    let e ← seed s { s.eng with latch := { s.eng.latch with op := op, sem := .ideal, ee := ee, n := n, eps := hv s.ins.opD } }
    .ok (s.accept e)) s

/-- The gain-scaled seeds of a circular or hyperbolic command, and its target (R166). -/
def seedGain (kw : Nat) (target : Bool) (mode : Mode) (n : Nat) (s : State) (p z : Fmt) (e : Engine) : Except Cause Engine := do
  let x0 ← enc s.params.roundMode (scaledSeed kw s.ins.opA) p .seedX
  let y0 ← enc s.params.roundMode (scaledSeed kw s.ins.opB) p .seedY
  let t ← if target then enc s.params.roundMode (hv s.ins.opC) z .opC else .ok 0
  .ok { e with fix := ⟨x0, y0, t⟩, entries := angleTable mode n }

/-- The seeds of a division: no gain, `z = 0`, and the zero-divisor test on the encoded divisor (R166, D20). -/
def seedDivision (n : Nat) (s : State) (p _z : Fmt) (e : Engine) : Except Cause Engine := do
  let x0 ← enc s.params.roundMode (hv s.ins.opA) p .opA
  let y0 ← enc s.params.roundMode (hv s.ins.opB) p .opB
  if x0 = 0 then .error .zeroDivisor else .ok { e with fix := ⟨x0, y0, 0⟩, entries := angleTable .lin n }

/-- The exact seeds of an ideal circular or hyperbolic command (R166). -/
def seedIdeal (target : Bool) (mode : Mode) (n : Nat) (s : State) (e : Engine) : Except Cause Engine :=
  .ok { e with
    real := ⟨hv s.ins.opA, hv s.ins.opB, Angle.ofDyad (if target then hv s.ins.opC else ⟨0, 0⟩)⟩
    entries := angleTable mode n }

/-- The exact seeds of an ideal division, and the zero-divisor test on `x0` (R166, D20). -/
def seedDivisionIdeal (n : Nat) (s : State) (e : Engine) : Except Cause Engine :=
  if (hv s.ins.opA).num = 0 then .error .zeroDivisor
  else .ok { e with real := ⟨hv s.ins.opA, hv s.ins.opB, Angle.ofDyad ⟨0, 0⟩⟩, entries := angleTable .lin n }

/-- ROT.CIRC.A (R180). -/
def execRotCircA (ee : Bool) (iter : Nat) (s : State) : Result :=
  issueApprox .rotCirc ee iter (seedGain (romKC iter) true .circ iter) s

/-- ROT.CIRC.I (R181). -/
def execRotCircI (ee : Bool) (iter : Nat) (s : State) : Result :=
  issueIdeal .rotCirc ee iter (seedIdeal true .circ iter) s

/-- VEC.CIRC.A (R182). -/
def execVecCircA (ee : Bool) (iter : Nat) (s : State) : Result :=
  issueApprox .vecCirc ee iter (seedGain (romKC iter) false .circ iter) s

/-- VEC.CIRC.I (R183). -/
def execVecCircI (ee : Bool) (iter : Nat) (s : State) : Result :=
  issueIdeal .vecCirc ee iter (seedIdeal false .circ iter) s

/-- ROT.HYP.A (R184). -/
def execRotHypA (ee : Bool) (iter : Nat) (s : State) : Result :=
  issueApprox .rotHyp ee iter (seedGain (romKH s.params.hypGainRule iter) true .hyp iter) s

/-- ROT.HYP.I (R185). -/
def execRotHypI (ee : Bool) (iter : Nat) (s : State) : Result :=
  issueIdeal .rotHyp ee iter (seedIdeal true .hyp iter) s

/-- DIV.LIN.A (R186). -/
def execDivLinA (ee : Bool) (iter : Nat) (s : State) : Result :=
  issueApprox .divLin ee iter (seedDivision iter) s

/-- DIV.LIN.I (R187). -/
def execDivLinI (ee : Bool) (iter : Nat) (s : State) : Result :=
  issueIdeal .divLin ee iter (seedDivisionIdeal iter) s

/-! ### Iterations, approximate (R167 to R171) -/

/-- Circular rotation, approximate (R168). -/
def iterRotCircA (m : RoundMode) (p z : Fmt) (i : Nat) (c : FixState) : FixState :=
  let tx := shrF c.x i
  let ty := shrF c.y i
  let θ := thetaQ m .circ i z
  if sgnp c.z then ⟨subF p c.x ty, addF p c.y tx, subF z c.z θ⟩ else ⟨addF p c.x ty, subF p c.y tx, addF z c.z θ⟩

/-- Circular vectoring, approximate (R169, C2). -/
def iterVecCircA (m : RoundMode) (p z : Fmt) (i : Nat) (c : FixState) : FixState :=
  let tx := shrF c.x i
  let ty := shrF c.y i
  let θ := thetaQ m .circ i z
  if sgnp c.y then ⟨addF p c.x ty, subF p c.y tx, addF z c.z θ⟩ else ⟨subF p c.x ty, addF p c.y tx, subF z c.z θ⟩

/-- Hyperbolic rotation, approximate (R170). -/
def iterRotHypA (m : RoundMode) (p z : Fmt) (i : Nat) (c : FixState) : FixState :=
  let tx := shrF c.x i
  let ty := shrF c.y i
  let θ := thetaQ m .hyp i z
  if sgnp c.z then ⟨addF p c.x ty, addF p c.y tx, subF z c.z θ⟩ else ⟨subF p c.x ty, subF p c.y tx, addF z c.z θ⟩

/-- Linear vectoring, approximate: `d = +1` where `sgnp(x) ≠ sgnp(y)` (R171, C3). -/
def iterDivLinA (m : RoundMode) (p z : Fmt) (i : Nat) (c : FixState) : FixState :=
  let tx := shrF c.x i
  let θ := thetaQ m .lin i z
  if sgnp c.x ≠ sgnp c.y then ⟨c.x, addF p c.y tx, subF z c.z θ⟩ else ⟨c.x, subF p c.y tx, addF z c.z θ⟩

/-! ### Iterations, ideal (R167 to R171) -/

/-- Circular rotation, ideal (R168). -/
def iterRotCircI (i : Nat) (c : RealState) : RealState :=
  let d := c.z.nonneg
  let tx := c.x.shr i
  let ty := c.y.shr i
  if d then ⟨c.x.sub ty, c.y.add tx, c.z.subElem true .circ i⟩ else ⟨c.x.add ty, c.y.sub tx, c.z.subElem false .circ i⟩

/-- Circular vectoring, ideal: `z + d·θ` (R169). -/
def iterVecCircI (i : Nat) (c : RealState) : RealState :=
  let d := sgnp c.y.num
  let tx := c.x.shr i
  let ty := c.y.shr i
  if d then ⟨c.x.add ty, c.y.sub tx, c.z.subElem false .circ i⟩ else ⟨c.x.sub ty, c.y.add tx, c.z.subElem true .circ i⟩

/-- Hyperbolic rotation, ideal (R170). -/
def iterRotHypI (i : Nat) (c : RealState) : RealState :=
  let d := c.z.nonneg
  let tx := c.x.shr i
  let ty := c.y.shr i
  if d then ⟨c.x.add ty, c.y.add tx, c.z.subElem true .hyp i⟩ else ⟨c.x.sub ty, c.y.sub tx, c.z.subElem false .hyp i⟩

/-- Linear vectoring, ideal (R171). -/
def iterDivLinI (i : Nat) (c : RealState) : RealState :=
  let d := sgnp c.x.num != sgnp c.y.num
  let tx := c.x.shr i
  if d then ⟨c.x, c.y.add tx, c.z.subElem true .lin i⟩ else ⟨c.x, c.y.sub tx, c.z.subElem false .lin i⟩

end Sys2Proof.Machine
end

