-- ==== Sys2Proof/Machine/Fast.lean ====
section
/-!
DEFINITION. Machine/Fast.lean: the stage-compressed commands ROT.FAST.A and ROT.FAST.I (spec/44_stage_compressed.md rules
R200 to R211): issue, lookup and stage step.
-/

namespace Sys2Proof.Machine

/-- The seeds of ROT.FAST.A: encoded with no gain, `L = 0` (R204). It uses no entry list (R104). -/
def seedFast (s : State) (p z : Fmt) (e : Engine) : Except Cause Engine := do
  let x0 ← enc s.params.roundMode (hv s.ins.opA) p .opA
  let y0 ← enc s.params.roundMode (hv s.ins.opB) p .opB
  let t ← enc s.params.roundMode (hv s.ins.opC) z .opC
  .ok { e with fix := { e.fix with z := t }, fixAcc := ⟨x0, y0, 0⟩ }

/-- The exact seeds of ROT.FAST.I, `D = 1` (R204). -/
def seedFastIdeal (s : State) (e : Engine) : Except Cause Engine :=
  .ok { e with
    real := { e.real with z := Angle.ofDyad (hv s.ins.opC) }
    realAcc := ⟨hv s.ins.opA, hv s.ins.opB, 1⟩ }

/-- ROT.FAST.A (R210). -/
def execRotFastA (ee : Bool) (iter : Nat) (s : State) : Result := issueApprox .rotFast ee iter seedFast s

/-- ROT.FAST.I (R211). -/
def execRotFastI (ee : Bool) (iter : Nat) (s : State) : Result := issueIdeal .rotFast ee iter seedFastIdeal s

/-- `lookup(|val_Z(z)|)`: the least entry whose bracket holds it, by the integer test of R202. -/
def lookupA (table : List StageEntry) (z : Fmt) (n : Int) : Option StageEntry :=
  table.find? (fun e =>
    decide ((e.lo : Int) ≤ |n| * pow2 (romFrac - z.fracBits)) && decide (|n| * pow2 (romFrac - z.fracBits) < e.hi))

/-- `lookup(|z|)` for an exact real, compared exactly (R202). -/
def lookupI (table : List StageEntry) (z : Angle) : Option StageEntry :=
  let r := if z.nonneg then z else z.neg
  table.find? (fun e =>
    (r.addDyad (Dyad.ofRom e.lo).neg).nonneg && !(r.addDyad (Dyad.ofRom e.hi).neg).nonneg)

/-- The quantized stage angle `φq`: 0 if `b = 0` (R206). -/
def phiQ (e : StageEntry) (z : Fmt) : Int := if e.b = 0 then 0 else roundAngle e.phi z

/-- The accumulators after a stage, exact and simultaneous: `(a·X - d·b·Y, d·b·X + a·Y)`, `L + k` (R206). -/
def stageAccA (e : StageEntry) (d : Bool) (c : FixAcc) : FixAcc :=
  let b : Int := if d then (e.b : Int) else -(e.b : Int)
  ⟨e.a * c.X - b * c.Y, b * c.X + e.a * c.Y, c.L + e.k⟩

/-- The same under ideal semantics, with `D · 2^k` (R206). -/
def stageAccI (e : StageEntry) (d : Bool) (c : RealAcc) : RealAcc :=
  let b : Int := if d then (e.b : Int) else -(e.b : Int)
  ⟨(Dyad.scale e.a c.X).sub (Dyad.scale b c.Y), (Dyad.scale b c.X).add (Dyad.scale e.a c.Y), c.D * 2 ^ e.k⟩

/-- The stage step under approximate semantics, less the counter (R206); `none` is a lookup that finds no bracket. -/
def stageA (table : List StageEntry) (e : Engine) : Option Engine :=
  (lookupA table e.latch.z e.fix.z).map (fun st =>
    let d := sgnp e.fix.z
    { e with
      fixAcc := stageAccA st d e.fixAcc
      fix := { e.fix with
        z := if d then subF e.latch.z e.fix.z (phiQ st e.latch.z) else addF e.latch.z e.fix.z (phiQ st e.latch.z) } })

/-- The stage step under ideal semantics, less the counter: `z - d·atan2(b, a)` (R206). -/
def stageI (table : List StageEntry) (e : Engine) : Option Engine :=
  (lookupI table e.real.z).map (fun st =>
    let d := e.real.z.nonneg
    { e with
      realAcc := stageAccI st d e.realAcc
      real := { e.real with z := e.real.z.subAtom d (.atan st.b st.a) } })

end Sys2Proof.Machine
end

