-- ==== Sys2Proof/Machine/Engine.lean ====
section
/-!
DEFINITION. Machine/Engine.lean: the engine step (spec/40_command_dispatch.md rules R105 and R106): the latched command's
iteration, the counter, the convergence test (spec/43_cordic_engine.md rule R172) and the terminating outputs (R173,
spec/44_stage_compressed.md rule R208).
-/

namespace Sys2Proof.Machine

/-- The iteration of a standard mode at entry `i` (R105, R167). ROT.FAST has none (R206). -/
def applyEntry (m : RoundMode) (i : Nat) (e : Engine) : Engine :=
  match e.latch.op, e.latch.sem with
  | .rotCirc, .approx => { e with fix := iterRotCircA m e.latch.p e.latch.z i e.fix }
  | .vecCirc, .approx => { e with fix := iterVecCircA m e.latch.p e.latch.z i e.fix }
  | .rotHyp, .approx => { e with fix := iterRotHypA m e.latch.p e.latch.z i e.fix }
  | .divLin, .approx => { e with fix := iterDivLinA m e.latch.p e.latch.z i e.fix }
  | .rotCirc, .ideal => { e with real := iterRotCircI i e.real }
  | .vecCirc, .ideal => { e with real := iterVecCircI i e.real }
  | .rotHyp, .ideal => { e with real := iterRotHypI i e.real }
  | .divLin, .ideal => { e with real := iterDivLinI i e.real }
  | .rotFast, _ => e

/-- `|val_f(n)| ≤ eps`, exact (R172). -/
def fixAbsLe (f : Fmt) (n : Int) (eps : Dyad) : Bool := (f.val |n|).le eps

/-- The convergence test on the driven quantity: `z` for the rotations, `y` for the vectoring modes (R172, C11). -/
def converged (e : Engine) : Bool :=
  match e.latch.op, e.latch.sem with
  | .rotCirc, .approx => fixAbsLe e.latch.z e.fix.z e.latch.eps
  | .rotHyp, .approx => fixAbsLe e.latch.z e.fix.z e.latch.eps
  | .rotFast, .approx => fixAbsLe e.latch.z e.fix.z e.latch.eps
  | .vecCirc, .approx => fixAbsLe e.latch.p e.fix.y e.latch.eps
  | .divLin, .approx => fixAbsLe e.latch.p e.fix.y e.latch.eps
  | .rotCirc, .ideal => e.real.z.absLe e.latch.eps
  | .rotHyp, .ideal => e.real.z.absLe e.latch.eps
  | .rotFast, .ideal => e.real.z.absLe e.latch.eps
  | .vecCirc, .ideal => e.real.y.abs.le e.latch.eps
  | .divLin, .ideal => e.real.y.abs.le e.latch.eps

/-- `real(K·v)` with the full-budget gain (R173, R146). -/
def gainReal (rule : HypGainRule) (l : Latch) (v : Dyad) : ResVal :=
  .real (.scaled v (gainSq rule l.op l.n).1 (gainSq rule l.op l.n).2)

/-- RX at termination (R173, R208). -/
def resultX (rule : HypGainRule) (e : Engine) : ResVal :=
  match e.latch.op, e.latch.sem with
  | .rotFast, .approx => resWord (e.latch.p.clamp (asr e.fixAcc.X e.fixAcc.L))
  | .rotFast, .ideal => .real (.quot e.realAcc.X e.realAcc.D)
  | _, .approx => resWord e.fix.x
  | _, .ideal => gainReal rule e.latch e.real.x

/-- RY at termination (R173, R208). -/
def resultY (rule : HypGainRule) (e : Engine) : ResVal :=
  match e.latch.op, e.latch.sem with
  | .rotFast, .approx => resWord (e.latch.p.clamp (asr e.fixAcc.Y e.fixAcc.L))
  | .rotFast, .ideal => .real (.quot e.realAcc.Y e.realAcc.D)
  | _, .approx => resWord e.fix.y
  | _, .ideal => gainReal rule e.latch e.real.y

/-- RZ at termination: the final residual (R106, R173, R208). -/
def resultZ (e : Engine) : ResVal :=
  match e.latch.sem with
  | .approx => resWord e.fix.z
  | .ideal => .real (.angle e.real.z)

/-- Termination (R106): the results are written and STATE becomes `st`, in the step that calls it. -/
def State.terminate (st : EngState) (s : State) : State :=
  (s.setOuts { s.outs with rx := resultX s.params.hypGainRule s.eng, ry := resultY s.params.hypGainRule s.eng,
                           rz := resultZ s.eng }).setStatus { s.status with state := st }

/-- The end of an engine step (R105): `k <- k + 1`, ITERS `<- k`, then the convergence test, then the budget test. -/
def State.advance (e : Engine) (s : State) : State :=
  let t := (s.setEng { e with k := e.k + 1 }).setStatus { s.status with iters := BitVec.ofNat 7 (e.k + 1) }
  if e.latch.ee && converged e then t.terminate .convergedEarly
  else if e.k + 1 = e.latch.n then t.terminate .exhausted
  else t

/-- One engine step of a ROT.FAST run (R206): a lookup that finds no bracket raises COVERAGE and changes nothing else (R207). -/
def fastStep (s : State) : State :=
  match s.eng.latch.sem with
  | .approx =>
    match stageA s.params.stageTable s.eng with
    | some e => s.advance e
    | none => s.raise .coverage
  | .ideal =>
    match stageI s.params.stageTable s.eng with
    | some e => s.advance e
    | none => s.raise .coverage

/-- One engine step (R105) of a RUNNING engine. -/
def engineStep (s : State) : Result :=
  if s.eng.latch.op = .rotFast then .next (fastStep s)
  else
    match s.eng.entries[s.eng.k]? with
    | some i => .next (s.advance (applyEntry s.params.roundMode i s.eng))
    | none => .fault .noTableEntry

/-- The engine's turn: "An engine step is enabled exactly when `STATE = RUNNING`" (R105). Otherwise nothing happens. -/
def engineTurn (s : State) : Result := if s.running then engineStep s else .next s

end Sys2Proof.Machine
end

