-- ==== Sys2Proof/Machine/Primitives.lean ====
section
/-!
DEFINITION. Machine/Primitives.lean: QUANT, NEG, ADD and SHR (spec/41_fixed_point_primitives.md rules R130 to R133).
Each completes inside the issue action (R103).
-/

namespace Sys2Proof.Machine

/-- QUANT (R130): the host value OPA quantized into FMT_OUT. IN_A_BITS is the whole HV word (R73). -/
def execQuant (s : State) : Result :=
  issue 0 false (fun s => do
    let fout ← checkFmt .fmtOut s.ins.fmtOut
    let n := quantize s.params.roundMode (hv s.ins.opA) fout
    .ok (s.finishPrimitive (resWord n) s.ins.opA 0 (wordOf (bitsOf fout.totalBits n)))) s

/-- NEG (R131): one's-complement negate with requantization. -/
def execNeg (s : State) : Result :=
  issue 1 false (fun s => do
    let fin ← checkFmt .fmtIn s.ins.fmtIn
    let fout ← checkFmt .fmtOut s.ins.fmtOut
    let n ← enc s.params.roundMode (hv s.ins.opA) fin .opA
    let r := requantize s.params.roundMode (flipBits fin.totalBits n) fin fout
    .ok (s.finishPrimitive (resWord r) (wordOf (bitsOf fin.totalBits n)) 0 (wordOf (bitsOf fout.totalBits r)))) s

/-- ADD (R132): saturating add with requantization. -/
def execAdd (s : State) : Result :=
  issue 2 false (fun s => do
    let fin ← checkFmt .fmtIn s.ins.fmtIn
    let fout ← checkFmt .fmtOut s.ins.fmtOut
    let na := quantize s.params.roundMode (hv s.ins.opA) fin
    let nb := quantize s.params.roundMode (hv s.ins.opB) fin
    let r := requantize s.params.roundMode (addSat fin na nb) fin fout
    .ok (s.finishPrimitive (resWord r) (wordOf (bitsOf fin.totalBits na)) (wordOf (bitsOf fin.totalBits nb))
      (wordOf (bitsOf fout.totalBits r)))) s

/-- SHR (R133): arithmetic right shift with requantization. -/
def execShr (shamt : Nat) (s : State) : Result :=
  issue 3 false (fun s => do
    let fin ← checkFmt .fmtIn s.ins.fmtIn
    let fout ← checkFmt .fmtOut s.ins.fmtOut
    let n ← enc s.params.roundMode (hv s.ins.opA) fin .opA
    let r := requantize s.params.roundMode (asr n shamt) fin fout
    .ok (s.finishPrimitive (resWord r) (wordOf (bitsOf fin.totalBits n)) 0 (wordOf (bitsOf fout.totalBits r)))) s

end Sys2Proof.Machine
end

