-- ==== Sys2Proof/Machine/Dispatch.lean ====
section
/-! DEFINITION. Machine/Dispatch.lean: the issue of each command (spec/30_encoding.md rule R81), one arm a constructor. -/

namespace Sys2Proof.Machine

def exec (i : Instr) (s : State) : Host.Outcome State Fault Refusal :=
  match i with
  | .quant => Sys2Proof.Machine.execQuant s
  | .neg => Sys2Proof.Machine.execNeg s
  | .add => Sys2Proof.Machine.execAdd s
  | .shr shamt => Sys2Proof.Machine.execShr shamt s
  | .rotCircA ee iter => Sys2Proof.Machine.execRotCircA ee iter s
  | .rotCircI ee iter => Sys2Proof.Machine.execRotCircI ee iter s
  | .vecCircA ee iter => Sys2Proof.Machine.execVecCircA ee iter s
  | .vecCircI ee iter => Sys2Proof.Machine.execVecCircI ee iter s
  | .rotHypA ee iter => Sys2Proof.Machine.execRotHypA ee iter s
  | .rotHypI ee iter => Sys2Proof.Machine.execRotHypI ee iter s
  | .divLinA ee iter => Sys2Proof.Machine.execDivLinA ee iter s
  | .divLinI ee iter => Sys2Proof.Machine.execDivLinI ee iter s
  | .rotFastA ee iter => Sys2Proof.Machine.execRotFastA ee iter s
  | .rotFastI ee iter => Sys2Proof.Machine.execRotFastI ee iter s

end Sys2Proof.Machine
end

