-- ==== Sys2Proof/Machine/HostActions.lean ====
section
/-!
DEFINITION. Machine/HostActions.lean: what one item of an interleaving does: the host's actions
(spec/40_command_dispatch.md rule R100) and the engine's turn (R105).
-/

namespace Sys2Proof.Machine

/-- A write of the word `c` to CMD (R21): the command it decodes to is issued; a word that is no command is refused (R84). -/
def writeCmd (c : Word) (s : State) : Result :=
  match decode c with
  | .ok i => exec i s
  | .error e => refuseWord e c s

/-- One item of the interleaving (R58, R100). "Each action is enabled in every state: the host is never blocked." -/
def hostEvent (ev : HostEvent) (s : State) : Result :=
  match ev with
  | .write a w => if a = 0 then writeCmd w s else .next (s.writeReg a w)
  | .read a => .next (s.hostRead a)
  | .reset => .next s.resetAction
  | .wait => .next s.poll
  | .engine => engineTurn s

end Sys2Proof.Machine
end

