-- ==== Sys2Proof/Machine/Step.lean ====
section
/-!
DEFINITION. Machine/Step.lean: one step of the machine: the next item of the interleaving of host actions and engine steps
(spec/20_memory.md rule R58). What the item does stands in Machine/HostActions.lean.
-/

namespace Sys2Proof.Machine

/-- One step: the first pending item happens, and where the host has nothing left to do the engine takes its turn. -/
def step (s : State) : Host.Outcome State Fault Refusal :=
  match s.pending with
  | [] => engineTurn s
  | ev :: rest => hostEvent ev (s.setPending rest)

/-- `s` with the command of `nbits` bits `w` as the host's next action: a write of it to CMD. A command has no other home
than the CMD write that issues it (R61). -/
def State.withFetchWord (s : State) (nbits w : Nat) : State :=
  s.setPending (.write 0 (tableWord nbits w) :: s.pending)

end Sys2Proof.Machine
end

