-- ==== Sys2Proof/Safety.lean ====
section
/-!
DEFINITION. Safety.lean: the terms the statements use: the reals and rationals that the model's exact data stand for, rounding
as spec/00_scope.md rule R10 words it, the order of the checks as spec/60_exceptions.md rule R225 words it, well-formed
parameters (R201, R205), and the invariant of the machine.
-/

namespace Sys2Proof.Machine

/-! ### What the exact data stand for -/

/-- The rational `num / 2^exp`. -/
def Dyad.toRat (a : Dyad) : ℚ := (a.num : ℚ) / 2 ^ a.exp

/-- The elementary angle as a real (R141). -/
noncomputable def Atom.toReal : Atom → ℝ
  | .atan num den => Real.arctan ((num : ℝ) / den)
  | .atanh num den => Real.artanh ((num : ℝ) / den)

/-- The signed elementary angle as a real. -/
noncomputable def AngleTerm.toReal (t : AngleTerm) : ℝ := if t.neg then -t.atom.toReal else t.atom.toReal

/-- The sum of signed elementary angles as a real. -/
noncomputable def termsToReal : List AngleTerm → ℝ
  | [] => 0
  | t :: ts => t.toReal + termsToReal ts

/-- The exact real of a residual (R30). -/
noncomputable def Angle.toReal (z : Angle) : ℝ := (z.base.toRat : ℝ) + termsToReal z.terms

/-- The exact real of a result cell (R25). -/
noncomputable def ExactReal.toReal : ExactReal → ℝ
  | .scaled v n d => (v.toRat : ℝ) * Real.sqrt ((n : ℝ) / d)
  | .quot v d => (v.toRat : ℝ) / d
  | .angle z => z.toReal

/-- The elementary angle `θ_i` of a mode (R141). -/
noncomputable def elemAngle : Mode → Nat → ℝ
  | .circ, i => Real.arctan (1 / 2 ^ i)
  | .hyp, i => Real.artanh (1 / 2 ^ i)
  | .lin, i => 1 / 2 ^ i

/-- An elementary angle the model forms: a positive denominator, and for atanh a ratio of at most `1/2`. -/
def Atom.wf : Atom → Prop
  | .atan _ den => 0 < den
  | .atanh num den => 0 < den ∧ 2 * num ≤ den

/-- The mode whose angles an atom is one of (R141). -/
def Atom.mode : Atom → Mode
  | .atan _ _ => .circ
  | .atanh _ _ => .hyp

/-- The residual of a run of mode `m`: its angles are well formed and of that mode; a run of mode `lin` forms none. -/
def Angle.wfFor (m : Mode) (z : Angle) : Prop := ∀ t ∈ z.terms, t.atom.wf ∧ t.atom.mode = m

/-- The residual of a run: the angles of one mode. -/
def Angle.wf (z : Angle) : Prop := ∃ m, z.wfFor m

/-- `n = RoundInt(r)` as R10 words it: the nearest integer, and at a half-way point the even one or the one of larger
magnitude. -/
def IsRoundInt (m : RoundMode) (r : ℚ) (n : ℤ) : Prop :=
  |r - n| ≤ 1 / 2 ∧ (|r - n| = 1 / 2 → match m with
    | .halfEven => Even n
    | .halfAway => |r| < |(n : ℚ)|)

/-- `hv(h) = sext_64(h) · 2^-32` (R76). -/
def hvRat (h : Word) : ℚ := (h.toInt : ℚ) / 2 ^ 32

/-- `d` as a number: `+1` or `-1` (R164). -/
def dir (d : Bool) : ℚ := if d then 1 else -1

/-- The gain `K(N)` of an operation as R145 words it: a factor `(1 + 2^-2i)^(-1/2)` or `(1 - 2^-2i)^(-1/2)` per entry, or under
REPO_LITERAL a factor `(1 - 2^-2i)^e` per distinct index, `e = -1/2` if it appears once, `-3/2` if twice; 1 for DIV.LIN. -/
noncomputable def gainOf (rule : HypGainRule) (op : EngineOp) (n : Nat) : ℝ :=
  match op, rule with
  | .rotCirc, _ => ((angleTable .circ n).map (fun i => (1 + 1 / (4 : ℝ) ^ i) ^ (-1 / 2 : ℝ))).prod
  | .vecCirc, _ => ((angleTable .circ n).map (fun i => (1 + 1 / (4 : ℝ) ^ i) ^ (-1 / 2 : ℝ))).prod
  | .rotHyp, .perEntry => ((angleTable .hyp n).map (fun i => (1 - 1 / (4 : ℝ) ^ i) ^ (-1 / 2 : ℝ))).prod
  | .rotHyp, .repoLiteral =>
    ((angleTable .hyp n).dedup.map (fun i =>
      (1 - 1 / (4 : ℝ) ^ i) ^ (if (angleTable .hyp n).count i = 1 then (-1 / 2 : ℝ) else (-3 / 2 : ℝ)))).prod
  | .divLin, _ => 1
  | .rotFast, _ => 1

/-- The driven quantity of the convergence test as a real: `z` for the rotations, `y` for the vectoring modes (R172). -/
noncomputable def Engine.driven (e : Engine) : ℝ :=
  match e.latch.op, e.latch.sem with
  | .vecCirc, .approx => (e.fix.y : ℝ) / 2 ^ e.latch.p.fracBits
  | .divLin, .approx => (e.fix.y : ℝ) / 2 ^ e.latch.p.fracBits
  | _, .approx => (e.fix.z : ℝ) / 2 ^ e.latch.z.fracBits
  | .vecCirc, .ideal => (e.real.y.toRat : ℝ)
  | .divLin, .ideal => (e.real.y.toRat : ℝ)
  | _, .ideal => e.real.z.toReal

/-- The real `r` lies in the entry's bracket `[lo · 2^-64, hi · 2^-64)` (R200). -/
def StageEntry.brackets (e : StageEntry) (r : ℝ) : Prop := (e.lo : ℝ) / 2 ^ 64 ≤ r ∧ r < (e.hi : ℝ) / 2 ^ 64

/-- `e` is the least entry of the table whose bracket holds `r` (R202). -/
def leastBracket (table : List StageEntry) (r : ℝ) (e : StageEntry) : Prop :=
  ∃ j : Nat, table[j]? = some e ∧ e.brackets r ∧ ∀ (j' : Nat) (e' : StageEntry), j' < j → table[j']? = some e' → ¬e'.brackets r

/-- The angle `atan2(b, a)` of a stage, `a ≥ 1` (R200). -/
noncomputable def StageEntry.angle (e : StageEntry) : ℝ := Real.arctan ((e.b : ℝ) / e.a)

/-- W5 of R201: `phi = floor(atan2(b, a) · 2^64)`, with `atan2(b, a) < 1`. -/
def StageEntry.angleExact (e : StageEntry) : Prop := (e.phi : ℤ) = ⌊e.angle * 2 ^ 64⌋ ∧ e.angle < 1

/-- `n` stages of R206 lead from the target `t` to the exact residual `r`: each takes the entry whose bracket holds the absolute
value and subtracts its angle in the residual's direction. -/
inductive StageReach (table : List StageEntry) (t : ℝ) : Nat → ℝ → Prop
  | seed : StageReach table t 0 t
  | stage {n : Nat} {r : ℝ} {e : StageEntry} : StageReach table t n r → leastBracket table |r| e →
      StageReach table t (n + 1) (r - (if 0 ≤ r then 1 else -1) * e.angle)

/-- W6 of R201, of the exact residual (log entry 7): no target within `π/4` ever leads to a residual `≥ hi_{M-1}` at one of a
command's lookups. -/
def coverage (table : List StageEntry) : Prop :=
  ∀ t : ℝ, |t| ≤ Real.pi / 4 → ∀ n < iterMax, ∀ r : ℝ, StageReach table t n r →
    ∀ e : StageEntry, table.getLast? = some e → |r| < (e.hi : ℝ) / 2 ^ 64

/-! ### Formats and parameters -/

/-- A valid format (R78). -/
abbrev Fmt.valid (f : Fmt) : Prop := 1 ≤ f.totalBits ∧ f.totalBits ≤ 32 ∧ f.fracBits < f.totalBits

/-- `n` is an integer of the format (R12, R71). -/
abbrev Fmt.holds (f : Fmt) (n : Int) : Prop := -2 ^ (f.totalBits - 1) ≤ n ∧ n ≤ 2 ^ (f.totalBits - 1) - 1

/-- `n` is what `Enc(v, f)` answers: it rounds `v · 2^F` and lies in the format (R121). -/
def IsEnc (m : RoundMode) (v : ℚ) (f : Fmt) (n : Int) : Prop := IsRoundInt m (v * 2 ^ f.fracBits) n ∧ f.holds n

/-- The state after the acceptance of an engine command: RUNNING with a cleared report, LAST_OP and LAST_SEM of the command, the
engine's state `e`, and nothing else changed (R102, R104). -/
def State.accepted (s : State) (op : BitVec 4) (sem : Bool) (e : Engine) : State :=
  { s with status := { state := .running, ovr := false, errCode := 0, errDetail := 0, iters := 0, lastOp := op, lastSem := sem }
           eng := e }

/-- The state after a command refused at issue for the cause `c`: ERROR with its report, ITERS 0, LAST_OP and LAST_SEM of the
command, and nothing else changed (R102, R221). -/
def State.refused (s : State) (op : BitVec 4) (sem : Bool) (c : Cause) : State :=
  { s with status := { state := .error, ovr := false, errCode := c.code, errDetail := c.detail, iters := 0, lastOp := op,
                       lastSem := sem } }

/-- The state after a completed primitive: DONE, ITERS 0, RX and the three bit strings written, nothing else changed
(R102, R103). -/
def State.completed (s : State) (op : BitVec 4) (n : Int) (inA inB out : Word) : State :=
  { s with status := { state := .done, ovr := false, errCode := 0, errDetail := 0, iters := 0, lastOp := op, lastSem := false }
           outs := { s.outs with rx := .word (BitVec.ofInt 64 n), inA := inA, inB := inB, out := out } }

/-- The `W`-bit pattern of `n`, zero-extended to a word (R9, R73). -/
def pattern (f : Fmt) (n : Int) : Word := BitVec.ofInt 64 (n % 2 ^ f.totalBits)

/-- `clamp(n, f.nmin, f.nmax)` (R10, R12). -/
def Fmt.sat (f : Fmt) (n : Int) : Int := min (2 ^ (f.totalBits - 1) - 1) (max (-2 ^ (f.totalBits - 1)) n)

/-- The OP field of a command (R81). -/
def instrOp : Instr → BitVec 4
  | .quant => 0
  | .neg => 1
  | .add => 2
  | .shr _ => 3
  | .rotCircA _ _ => 4
  | .rotCircI _ _ => 4
  | .vecCircA _ _ => 5
  | .vecCircI _ _ => 5
  | .rotHypA _ _ => 6
  | .rotHypI _ _ => 6
  | .divLinA _ _ => 7
  | .divLinI _ _ => 7
  | .rotFastA _ _ => 8
  | .rotFastI _ _ => 8

/-- The SEM field of a command (R81). -/
def instrSem : Instr → Bool
  | .quant => false
  | .neg => false
  | .add => false
  | .shr _ => false
  | .rotCircA _ _ => false
  | .rotCircI _ _ => true
  | .vecCircA _ _ => false
  | .vecCircI _ _ => true
  | .rotHypA _ _ => false
  | .rotHypI _ _ => true
  | .divLinA _ _ => false
  | .divLinI _ _ => true
  | .rotFastA _ _ => false
  | .rotFastI _ _ => true

/-- The command is a primitive, OP 0 to 3 (R103). -/
def isPrimitive (i : Instr) : Bool := decide ((instrOp i).toNat < 4)

/-- The field ranges of a stage entry and its bracket (R200, R201 W3, W4). -/
def StageEntry.wf (e : StageEntry) : Bool :=
  decide (e.lo < e.hi) && decide (e.hi < 2 ^ 64) && decide (1 ≤ e.a) && decide (e.a < 2 ^ 16) && decide (e.b < 2 ^ 16) &&
    decide (e.k ≤ 16) && decide (e.phi < 2 ^ 64)

/-- Consecutive brackets leave no gap and no overlap (R201 W2). -/
def bracketsMeet : List StageEntry → Bool
  | e :: f :: es => decide (e.hi = f.lo) && bracketsMeet (f :: es)
  | _ => true

/-- W1 to W4 of R201, for a table of at least one entry (R200). -/
def stageTableWf (t : List StageEntry) : Bool :=
  (t.head?.map (fun e => decide (e.lo = 0))).getD false && bracketsMeet t && t.all StageEntry.wf

/-- `B = max_j bitlength(a_j + b_j)` (R205). -/
def stageBits (t : List StageEntry) : Nat := (t.map (fun e => Nat.log2 (e.a + e.b) + 1)).foldr max 0

/-- The integer conditions on the parameters: a table of W1 to W4 (R201) and accumulators of at least `W_MAX + ITER_MAX · B` bits
(R205). -/
def Params.wf (p : Params) : Bool :=
  stageTableWf p.stageTable && decide (wMax + iterMax * stageBits p.stageTable ≤ p.fastAccBits)

/-- The parameters the spec admits (R6, R201, R205): "hypotheses on the parameter", which no step checks. -/
structure Params.Admissible (p : Params) : Prop where
  integers : p.wf = true
  angles : ∀ e ∈ p.stageTable, e.angleExact
  covered : coverage p.stageTable

/-! ### The order of the checks -/

/-- The first check that fails, in the order given. -/
def firstFailure : List (Bool × Cause) → Option Cause
  | [] => none
  | (true, c) :: _ => some c
  | (false, _) :: cs => firstFailure cs

/-- The checks of a format (R226). -/
def fmtChecks (name : FmtName) (r : FmtReg) : List (Bool × Cause) :=
  [(decide (r.w.toNat = 0 ∨ 32 < r.w.toNat), .format name .width), (decide (r.w.toNat ≤ r.f.toNat), .format name .frac)]

/-- The checks of the budget (R225, step 5). -/
def iterChecks (n : Nat) : List (Bool × Cause) := [(decide (n = 0), .iterZero), (decide (64 < n), .iterTooLarge)]

/-- The checks of an encoding (R121). -/
def encChecks (m : RoundMode) (v : Dyad) (f : Fmt) (s : RangeSubject) : List (Bool × Cause) :=
  [(decide (f.nmax < roundTo m v f), .range s .aboveMax), (decide (roundTo m v f < f.nmin), .range s .belowMin)]

/-- Steps 4 to 7 of R225 for each command, in order (steps 1 to 3 are the decoder's). -/
def checks (i : Instr) (s : State) : List (Bool × Cause) :=
  let m := s.params.roundMode
  let fmtPrim := fmtChecks .fmtIn s.ins.fmtIn ++ fmtChecks .fmtOut s.ins.fmtOut
  let fmtEngine := fmtChecks .fmtXy s.ins.fmtXy ++ fmtChecks .fmtZ s.ins.fmtZ
  let fin := s.ins.fmtIn.fmt
  let p := s.ins.fmtXy.fmt
  let z := s.ins.fmtZ.fmt
  let seeds (kw : Nat) := encChecks m (scaledSeed kw s.ins.opA) p .seedX ++ encChecks m (scaledSeed kw s.ins.opB) p .seedY
  let operands := encChecks m (hv s.ins.opA) p .opA ++ encChecks m (hv s.ins.opB) p .opB
  let target := encChecks m (hv s.ins.opC) z .opC
  match i with
  | .quant => fmtChecks .fmtOut s.ins.fmtOut
  | .neg => fmtPrim ++ encChecks m (hv s.ins.opA) fin .opA
  | .add => fmtPrim
  | .shr _ => fmtPrim ++ encChecks m (hv s.ins.opA) fin .opA
  | .rotCircA _ n => fmtEngine ++ iterChecks n ++ seeds (romKC n) ++ target
  | .vecCircA _ n => fmtEngine ++ iterChecks n ++ seeds (romKC n)
  | .rotHypA _ n => fmtEngine ++ iterChecks n ++ seeds (romKH s.params.hypGainRule n) ++ target
  | .divLinA _ n => fmtEngine ++ iterChecks n ++ operands ++ [(decide (roundTo m (hv s.ins.opA) p = 0), .zeroDivisor)]
  | .rotFastA _ n => fmtEngine ++ iterChecks n ++ operands ++ target
  | .rotCircI _ n => iterChecks n
  | .vecCircI _ n => iterChecks n
  | .rotHypI _ n => iterChecks n
  | .divLinI _ n => iterChecks n ++ [(decide (s.ins.opA = 0), .zeroDivisor)]
  | .rotFastI _ n => iterChecks n

/-! ### The invariant -/

/-- The engine's state while it runs an approximate command: valid formats, every value in its format, accumulators within
R205's bound. -/
structure Engine.FixOk (p : Params) (e : Engine) : Prop where
  formats : e.latch.p.valid ∧ e.latch.z.valid
  residual : e.latch.z.holds e.fix.z
  vector : e.latch.op ≠ .rotFast → e.latch.p.holds e.fix.x ∧ e.latch.p.holds e.fix.y
  divisor : e.latch.op = .divLin → e.fix.x ≠ 0
  accX : e.latch.op = .rotFast →
    -2 ^ (e.latch.p.totalBits - 1 + e.k * stageBits p.stageTable) ≤ e.fixAcc.X ∧
      e.fixAcc.X < 2 ^ (e.latch.p.totalBits - 1 + e.k * stageBits p.stageTable)
  accY : e.latch.op = .rotFast →
    -2 ^ (e.latch.p.totalBits - 1 + e.k * stageBits p.stageTable) ≤ e.fixAcc.Y ∧
      e.fixAcc.Y < 2 ^ (e.latch.p.totalBits - 1 + e.k * stageBits p.stageTable)
  shift : e.latch.op = .rotFast → e.fixAcc.L ≤ 16 * e.k

/-- The engine's state while it runs an ideal command: a residual of angles of its mode, a nonzero divisor, and a cumulative
divisor that is a power of two. -/
structure Engine.RealOk (e : Engine) : Prop where
  residual : e.real.z.wfFor e.latch.op.mode
  divisor : e.latch.op = .divLin → e.real.x.toRat ≠ 0
  cumulative : e.latch.op = .rotFast → ∃ l ≤ 16 * e.k, e.realAcc.D = 2 ^ l

/-- The engine's state while RUNNING (R29 to R33): a legal budget, a pointer before its end, the mode's entry list. -/
structure Engine.Ok (p : Params) (e : Engine) : Prop where
  budget : 1 ≤ e.latch.n ∧ e.latch.n ≤ 64
  pointer : e.k < e.latch.n
  table : e.latch.op ≠ .rotFast → e.entries = angleTable e.latch.op.mode e.latch.n
  approx : e.latch.sem = .approx → e.FixOk p
  ideal : e.latch.sem = .ideal → e.RealOk

/-- The invariant of the machine: admissible parameters, an error report that is one of R220's exactly in state ERROR, an ITERS
of at most 64 that is 0 after a primitive and equals `k` while RUNNING (R22, R31), and a legal engine while RUNNING. -/
structure State.Inv (s : State) : Prop where
  params : s.params.Admissible
  report : (s.status.state = .error ∧ ∃ c : Cause, s.status.errCode = c.code ∧ s.status.errDetail = c.detail) ∨
    (s.status.state ≠ .error ∧ s.status.errCode = 0 ∧ s.status.errDetail = 0)
  iters : s.status.iters.toNat ≤ 64
  itersZero : s.status.state = .idle ∨ s.status.state = .done → s.status.iters = 0
  counter : s.running = true → s.status.iters.toNat = s.eng.k
  engine : s.running = true → s.eng.Ok s.params

end Sys2Proof.Machine
end

