-- ==== Sys2Proof/Certificates/Slice0/Obligations.lean ====
section
/-!
DEFINITION. Obligations.lean: the statements for the provers, in the order of the spec's files. A docstring names the rule.
-/

open Sys2Proof Sys2Proof.Machine

/-! ### Reset and host registers -/

/-- R22: the word that a read of STATUS answers: the STATE values, the derived BUSY, every field, and the reserved bits. -/
def Obligations.StatusWordLayout : Prop :=
  ∀ s : State, ∃ w : Word, s.readReg 0x01 = .word w ∧
    (s.status.state = .idle → w.extractLsb' 0 3 = 0) ∧ (s.status.state = .running → w.extractLsb' 0 3 = 1) ∧
    (s.status.state = .convergedEarly → w.extractLsb' 0 3 = 2) ∧ (s.status.state = .exhausted → w.extractLsb' 0 3 = 3) ∧
    (s.status.state = .done → w.extractLsb' 0 3 = 4) ∧ (s.status.state = .error → w.extractLsb' 0 3 = 5) ∧
    w.getLsbD 3 = decide (s.status.state = .running) ∧ w.getLsbD 4 = s.status.ovr ∧
    w.extractLsb' 5 2 = s.status.errCode ∧ w.getLsbD 7 = false ∧ w.extractLsb' 8 8 = s.status.errDetail ∧
    w.extractLsb' 16 7 = s.status.iters ∧ w.getLsbD 23 = false ∧ w.extractLsb' 24 4 = s.status.lastOp ∧
    w.getLsbD 28 = s.status.lastSem ∧ w.extractLsb' 29 35 = 0

/-- R55, R20: a write to an RW register stores the word in the register of that address, less the bits a FMT register does not
store (R23), and has no other effect. -/
def Obligations.WriteStoresTheWordAndNothingElse : Prop :=
  ∀ (s : State) (a : Addr) (w : Word) (rest : List HostEvent),
    s.pending = .write a w :: rest → 2 ≤ a.toNat → a.toNat ≤ 9 →
    ∃ t, step s = .next t ∧
      t.readReg a = .word (if a.toNat ≤ 5 then w &&& 0x3F3F#64 else w) ∧
      (∀ b, b ≠ a → t.readReg b = s.readReg b) ∧
      t = { s with pending := rest, ins := t.ins } ∧
      (a = 0x02 → t.ins = { s.ins with fmtIn := ⟨w.extractLsb' 0 6, w.extractLsb' 8 6⟩ }) ∧
      (a = 0x03 → t.ins = { s.ins with fmtOut := ⟨w.extractLsb' 0 6, w.extractLsb' 8 6⟩ }) ∧
      (a = 0x04 → t.ins = { s.ins with fmtXy := ⟨w.extractLsb' 0 6, w.extractLsb' 8 6⟩ }) ∧
      (a = 0x05 → t.ins = { s.ins with fmtZ := ⟨w.extractLsb' 0 6, w.extractLsb' 8 6⟩ }) ∧
      (a = 0x06 → t.ins = { s.ins with opA := w }) ∧ (a = 0x07 → t.ins = { s.ins with opB := w }) ∧
      (a = 0x08 → t.ins = { s.ins with opC := w }) ∧ (a = 0x09 → t.ins = { s.ins with opD := w })

/-- R52: reserved addresses and RO registers ignore writes; reserved addresses and CMD read 0. -/
def Obligations.ReservedAndReadOnlyAddresses : Prop :=
  (∀ (s : State) (a : Addr) (w : Word) (rest : List HostEvent),
    s.pending = .write a w :: rest → a.toNat = 1 ∨ 10 ≤ a.toNat → step s = .next { s with pending := rest }) ∧
  (∀ (s : State) (a : Addr), a = 0 ∨ 16 ≤ a.toNat → s.readReg a = .word 0)

/-- R55, R100, R20: a host read answers the register of its address and changes no state of the block. R90: one round of WAIT reads
STATUS, and goes on while BUSY is 1; that it puts one engine turn and another round before the rest is log entry 3's choice. -/
def Obligations.HostReadChangesNothing : Prop :=
  (∀ (s : State) (a : Addr) (rest : List HostEvent),
    s.pending = .read a :: rest → step s = .next { s with pending := rest, readData := some (s.readReg a) }) ∧
  (∀ s : State,
    s.readReg 0x01 = .word s.status.word ∧
    s.readReg 0x02 = .word (0#50 ++ s.ins.fmtIn.f ++ 0#2 ++ s.ins.fmtIn.w) ∧
    s.readReg 0x03 = .word (0#50 ++ s.ins.fmtOut.f ++ 0#2 ++ s.ins.fmtOut.w) ∧
    s.readReg 0x04 = .word (0#50 ++ s.ins.fmtXy.f ++ 0#2 ++ s.ins.fmtXy.w) ∧
    s.readReg 0x05 = .word (0#50 ++ s.ins.fmtZ.f ++ 0#2 ++ s.ins.fmtZ.w) ∧
    s.readReg 0x06 = .word s.ins.opA ∧ s.readReg 0x07 = .word s.ins.opB ∧ s.readReg 0x08 = .word s.ins.opC ∧
    s.readReg 0x09 = .word s.ins.opD ∧ s.readReg 0x0A = s.outs.rx ∧ s.readReg 0x0B = s.outs.ry ∧ s.readReg 0x0C = s.outs.rz ∧
    s.readReg 0x0D = .word s.outs.inA ∧ s.readReg 0x0E = .word s.outs.inB ∧ s.readReg 0x0F = .word s.outs.out) ∧
  (∀ (s : State) (rest : List HostEvent), s.pending = .wait :: rest →
    (s.running = false → step s = .next { s with pending := rest, readData := some (.word s.status.word) }) ∧
    (s.running = true →
      step s = .next { s with pending := .engine :: .wait :: rest, readData := some (.word s.status.word) }))

/-- R240: reset gives every host register its reset value, which every address then reads as, in every state, RUNNING included;
it keeps the parameters. -/
def Obligations.ResetClearsTheHostRegisters : Prop :=
  ∀ (s : State) (rest : List HostEvent), s.pending = .reset :: rest →
    ∃ t, step s = .next t ∧ (∀ a, t.readReg a = .word 0) ∧ t.running = false ∧ t.params = s.params ∧
      t.pending = rest ∧ t.readData = s.readData

/-! ### Decoding and encoding -/

/-- Decoding the word of a well-formed command gives it back, with every operand at every value its field admits (R79). -/
def Obligations.DecodeEncodeRoundTrip : Prop :=
  ∀ i : Instr, i.wellFormed = true → decode (encode i) = .ok i

/-- R81: a word decodes to a command of a row exactly when it has the row's match under the mask. -/
def Obligations.DecodeFollowsTheOpcodeMap : Prop :=
  (∀ c i, decode c = .ok i → c &&& 0xFFFFFFFFFFC080DF#64 = matchWord i) ∧
  (∀ c i, c &&& 0xFFFFFFFFFFC080DF#64 = matchWord i → ∃ j, decode c = .ok j ∧ matchWord j = matchWord i)

/-- R80, R79: the operands are the fields SHAMT = c[21:16], EE = c[5] and ITER = c[14:8] of the word. -/
def Obligations.OperandsAreTheWordsFields : Prop :=
  ∀ c : Word,
    (∀ k, decode c = .ok (.shr k) → k = c.toNat / 2 ^ 16 % 2 ^ 6) ∧
    (∀ ee n, decode c = .ok (.rotCircA ee n) ∨ decode c = .ok (.rotCircI ee n) ∨ decode c = .ok (.vecCircA ee n) ∨
      decode c = .ok (.vecCircI ee n) ∨ decode c = .ok (.rotHypA ee n) ∨ decode c = .ok (.rotHypI ee n) ∨
      decode c = .ok (.divLinA ee n) ∨ decode c = .ok (.divLinI ee n) ∨ decode c = .ok (.rotFastA ee n) ∨
      decode c = .ok (.rotFastI ee n) →
      n = c.toNat / 2 ^ 8 % 2 ^ 7 ∧ (ee = true ↔ c.toNat / 2 ^ 5 % 2 = 1))

/-- R89's examples, and one more word of each family, written out from the fields of R79. -/
def Obligations.WrittenOutWordsDecode : Prop :=
  decode 0x0804#64 = .ok (.rotCircA false 8) ∧ decode 0x30003#64 = .ok (.shr 3) ∧ decode 0x1037#64 = .ok (.divLinI true 16) ∧
  decode 0x0838#64 = .ok (.rotFastI true 8) ∧ decode 0x1005#64 = .ok (.vecCircA false 16) ∧
  decode 0x0806#64 = .ok (.rotHypA false 8) ∧ decode 0x0#64 = .ok .quant ∧ decode 0x1#64 = .ok .neg ∧ decode 0x2#64 = .ok .add

/-- R80: two words that agree in OP, SEM, the reserved bits and the fields their command reads have the same effect. -/
def Obligations.IgnoredFieldsHaveNoEffect : Prop :=
  ∀ (c c' : Word) (s : State),
    c &&& 0xFFFFFFFFFFC080DF#64 = c' &&& 0xFFFFFFFFFFC080DF#64 →
    (opField c = 3 → c &&& 0x3F0000#64 = c' &&& 0x3F0000#64) →
    (4 ≤ (opField c).toNat → c &&& 0x7F20#64 = c' &&& 0x7F20#64) →
    writeCmd c s = writeCmd c' s

/-- R84: a word with a reserved bit, a reserved OP, or SEM = 1 on a primitive raises ConfigError at issue, with its cause. -/
def Obligations.ReservedWordsRaiseConfigError : Prop :=
  ∀ (s : State) (c : Word), s.running = false →
    (c &&& 0xFFFFFFFFFFC080C0#64 ≠ 0 →
      writeCmd c s = .next (s.refused (c.extractLsb' 0 4) (c.getLsbD 4) .reservedBits)) ∧
    (c &&& 0xFFFFFFFFFFC080C0#64 = 0 → 9 ≤ (c.extractLsb' 0 4).toNat →
      writeCmd c s = .next (s.refused (c.extractLsb' 0 4) (c.getLsbD 4) .reservedOp)) ∧
    (c &&& 0xFFFFFFFFFFC080C0#64 = 0 → (c.extractLsb' 0 4).toNat ≤ 3 → c.getLsbD 4 = true →
      writeCmd c s = .next (s.refused (c.extractLsb' 0 4) true .semNotAllowed))

/-- R220: ERR_CODE and ERR_DETAIL of every error, and no two errors share both. -/
def Obligations.ErrorCodesAndDetails : Prop :=
  (∀ c : Cause, ((c.code, c.detail) : BitVec 2 × BitVec 8) =
    match c with
    | .range .opA .aboveMax => (1, 0x11)
    | .range .opA .belowMin => (1, 0x21)
    | .range .opB .aboveMax => (1, 0x12)
    | .range .opB .belowMin => (1, 0x22)
    | .range .opC .aboveMax => (1, 0x13)
    | .range .opC .belowMin => (1, 0x23)
    | .range .seedX .aboveMax => (1, 0x14)
    | .range .seedX .belowMin => (1, 0x24)
    | .range .seedY .aboveMax => (1, 0x15)
    | .range .seedY .belowMin => (1, 0x25)
    | .zeroDivisor => (2, 0x01)
    | .coverage => (2, 0x02)
    | .reservedOp => (3, 0x01)
    | .reservedBits => (3, 0x02)
    | .semNotAllowed => (3, 0x03)
    | .format .fmtIn .width => (3, 0x14)
    | .format .fmtIn .frac => (3, 0x24)
    | .format .fmtOut .width => (3, 0x15)
    | .format .fmtOut .frac => (3, 0x25)
    | .format .fmtXy .width => (3, 0x16)
    | .format .fmtXy .frac => (3, 0x26)
    | .format .fmtZ .width => (3, 0x17)
    | .format .fmtZ .frac => (3, 0x27)
    | .iterZero => (3, 0x08)
    | .iterTooLarge => (3, 0x09)) ∧
  (∀ c d : Cause, c.code = d.code → c.detail = d.detail → c = d)

/-! ### Steps and command issue -/

/-- R21, R100: a step whose next item is a write to CMD is the issue of the word, less the item; a word that decodes to a command is
that command's exec. -/
def Obligations.StepIssuesTheDecodedCommand : Prop :=
  (∀ (s : State) (c : Word) (rest : List HostEvent),
    s.pending = .write 0 c :: rest → step s = writeCmd c { s with pending := rest }) ∧
  (∀ (s : State) (c : Word) (i : Instr) (rest : List HostEvent),
    s.pending = .write 0 c :: rest → decode c = .ok i → step s = exec i { s with pending := rest }) ∧
  (∀ (s : State) (nbits w : Nat) (i : Instr), decodeTableWord nbits w = some i → step (s.withFetchWord nbits w) = exec i s)

/-- R105: an engine step is enabled exactly when STATE = RUNNING. It is the step where the host has nothing left to do, or where
the next item is the engine's turn. -/
def Obligations.EngineStepsOnlyWhileRunning : Prop :=
  (∀ s : State, s.pending = [] → step s = if s.running then engineStep s else .next s) ∧
  (∀ (s : State) (rest : List HostEvent), s.pending = .engine :: rest →
    step s = if s.running then engineStep { s with pending := rest } else .next { s with pending := rest })

/-- R101: a CMD write while RUNNING sets OVR and does nothing else, whatever the word. -/
def Obligations.CommandIsDroppedWhileRunning : Prop :=
  ∀ (s : State) (c : Word) (rest : List HostEvent), s.pending = .write 0 c :: rest → s.running = true →
    step s = .next { s with pending := rest, status := { s.status with ovr := true } }

/-- R102, R224: an issue sets LAST_OP and LAST_SEM to the word's fields and clears OVR, ITERS and, unless it raises one, the
error report. -/
def Obligations.IssueClearsTheReport : Prop :=
  ∀ (s : State) (c : Word), s.running = false →
    ∃ t, writeCmd c s = .next t ∧ t.status.lastOp = c.extractLsb' 0 4 ∧ t.status.lastSem = c.getLsbD 4 ∧
      t.status.ovr = false ∧ t.status.iters = 0 ∧
      (t.status.state ≠ .error → t.status.errCode = 0 ∧ t.status.errDetail = 0)

/-- R221: an issue that ends in ERROR writes no result, no bit string and no engine state. -/
def Obligations.ErrorAtIssueWritesOnlyStatus : Prop :=
  ∀ (s t : State) (c : Word), s.running = false → writeCmd c s = .next t → t.status.state = .error →
    ∃ e : Cause, t = s.refused (c.extractLsb' 0 4) (c.getLsbD 4) e

/-- R225: the checks run in the rule's order and the first failure is the one reported; with none the command is accepted. -/
def Obligations.ValidationOrder : Prop :=
  ∀ (i : Instr) (s : State), s.running = false →
    (∀ c, firstFailure (checks i s) = some c → exec i s = .next (s.refused (instrOp i) (instrSem i) c)) ∧
    (firstFailure (checks i s) = none →
      ∃ t, exec i s = .next t ∧ t.status.state = if isPrimitive i then .done else .running)

/-- R103 frame: a completed or refused primitive leaves RY, RZ, the operands, the engine's state and the parameters. -/
def Obligations.PrimitiveFrame : Prop :=
  ∀ (i : Instr) (s t : State), isPrimitive i = true → exec i s = .next t →
    t.outs.ry = s.outs.ry ∧ t.outs.rz = s.outs.rz ∧ t.ins = s.ins ∧ t.eng = s.eng ∧ t.params = s.params ∧
    t.pending = s.pending ∧ t.readData = s.readData ∧
    (s.running = true → t.outs = s.outs ∧ t.status = { s.status with ovr := true })

/-- R104, R26 frame: the issue of an engine command writes STATUS and the engine's state only. -/
def Obligations.EngineIssueFrame : Prop :=
  ∀ (i : Instr) (s t : State), isPrimitive i = false → exec i s = .next t →
    t.outs = s.outs ∧ t.ins = s.ins ∧ t.params = s.params ∧ t.pending = s.pending ∧ t.readData = s.readData ∧
    (t.status.state ≠ .running ∨ s.running = true → t.eng = s.eng)

/-! ### Fixed-point primitives -/

/-- R10: `roundInt m n d` is `RoundInt(n / 2^d)`, the nearest integer with the tie rule of ROUND_MODE. -/
def Obligations.RoundIntIsNearest : Prop :=
  ∀ (m : RoundMode) (n : Int) (d : Nat) (r : Int), roundInt m n d = r ↔ IsRoundInt m ((n : ℚ) / 2 ^ d) r

/-- R120, R121: Quantize rounds `v · 2^F` and saturates; Enc rounds it and refuses an integer above `nmax` or below `nmin`. -/
def Obligations.QuantizeSaturatesWhereEncodeRefuses : Prop :=
  ∀ (m : RoundMode) (v : Dyad) (f : Fmt) (subj : RangeSubject) (r : Int),
    IsRoundInt m (v.toRat * 2 ^ f.fracBits) r →
    quantize m v f = f.sat r ∧
    (2 ^ (f.totalBits - 1) - 1 < r → enc m v f subj = .error (.range subj .aboveMax)) ∧
    (r ≤ 2 ^ (f.totalBits - 1) - 1 → r < -2 ^ (f.totalBits - 1) → enc m v f subj = .error (.range subj .belowMin)) ∧
    (f.holds r → enc m v f subj = .ok r)

/-- R126: with equal formats the primitives are the in-loop integer operations `shr_f`, `add_f`, `neg_f`, `sub_f`. -/
def Obligations.InLoopPrimitives : Prop :=
  ∀ (m : RoundMode) (f : Fmt) (n k : Int) (i : Nat) (subj : RangeSubject), f.valid → f.holds n → f.holds k →
    shiftRight m (f.val n) i f f subj = .ok (shrF n i) ∧ shrF n i = n / 2 ^ i ∧
    addQ m (f.val n) (f.val k) f f = addF f n k ∧ addF f n k = f.sat (n + k) ∧
    negate m (f.val k) f f subj = .ok (negF k) ∧ negF k = -k - 1 ∧
    addQ m (f.val n) (f.val (negF k)) f f = subF f n k ∧ subF f n k = f.sat (n - k - 1)

/-- R129: Quantize is idempotent and monotone; Add lies in the output range and is commutative, for all formats, but is not
associative; Negate is an involution, boundaries included, maps `min` to `max` and is `-a - q`; and
`0 ≤ v/2^k - SRS(v, k, f, f) < q`. The values of a format are given as their integers. -/
def Obligations.LawsOfThePrimitives : Prop :=
  (∀ (m : RoundMode) (v : Dyad) (f : Fmt), f.valid → quantize m (f.val (quantize m v f)) f = quantize m v f) ∧
  (∀ (m : RoundMode) (v w : Dyad) (f : Fmt), f.valid → v.toRat ≤ w.toRat → quantize m v f ≤ quantize m w f) ∧
  (∀ (m : RoundMode) (a b : Dyad) (fin fout : Fmt), fout.valid →
    fout.holds (addQ m a b fin fout) ∧ addQ m a b fin fout = addQ m b a fin fout) ∧
  (∃ (f : Fmt) (a b c : Int), f.valid ∧ f.holds a ∧ f.holds b ∧ f.holds c ∧ ∀ m : RoundMode,
    addQ m (f.val (addQ m (f.val a) (f.val b) f f)) (f.val c) f f ≠
      addQ m (f.val a) (f.val (addQ m (f.val b) (f.val c) f f)) f f) ∧
  (∀ (m : RoundMode) (f : Fmt) (n : Int) (subj : RangeSubject), f.valid → f.holds n →
    ∃ k, negate m (f.val n) f f subj = .ok k ∧ f.holds k ∧ negate m (f.val k) f f subj = .ok n ∧
      (f.val k).toRat = -(f.val n).toRat - 1 / 2 ^ f.fracBits ∧
      (n = -2 ^ (f.totalBits - 1) → k = 2 ^ (f.totalBits - 1) - 1)) ∧
  (∀ (m : RoundMode) (f : Fmt) (n : Int) (k : Nat) (subj : RangeSubject), f.valid → f.holds n →
    ∃ r, shiftRight m (f.val n) k f f subj = .ok r ∧ 0 ≤ (f.val n).toRat / 2 ^ k - (f.val r).toRat ∧
      (f.val n).toRat / 2 ^ k - (f.val r).toRat < 1 / 2 ^ f.fracBits)

/-- R130: QUANT, its result and its refusals. -/
def Obligations.QuantRule : Prop :=
  ∀ s : State, s.running = false →
    (∀ r, s.ins.fmtOut.fmt.valid → IsRoundInt s.params.roundMode (hvRat s.ins.opA * 2 ^ s.ins.fmtOut.fmt.fracBits) r →
      exec .quant s = .next (s.completed 0 (s.ins.fmtOut.fmt.sat r) s.ins.opA 0
        (pattern s.ins.fmtOut.fmt (s.ins.fmtOut.fmt.sat r)))) ∧
    (¬s.ins.fmtOut.fmt.valid → ∃ q, exec .quant s = .next (s.refused 0 false (.format .fmtOut q)))

/-- R131: NEG, its result and its refusals, for a valid FMT_IN and FMT_OUT. -/
def Obligations.NegRule : Prop :=
  ∀ (s : State) (n : Int), s.running = false → s.ins.fmtIn.fmt.valid → s.ins.fmtOut.fmt.valid →
    IsRoundInt s.params.roundMode (hvRat s.ins.opA * 2 ^ s.ins.fmtIn.fmt.fracBits) n →
    (∀ r, s.ins.fmtIn.fmt.holds n →
      IsRoundInt s.params.roundMode (((-n - 1 : Int) : ℚ) / 2 ^ s.ins.fmtIn.fmt.fracBits * 2 ^ s.ins.fmtOut.fmt.fracBits) r →
      exec .neg s = .next (s.completed 1 (s.ins.fmtOut.fmt.sat r) (pattern s.ins.fmtIn.fmt n) 0
        (pattern s.ins.fmtOut.fmt (s.ins.fmtOut.fmt.sat r)))) ∧
    (2 ^ (s.ins.fmtIn.fmt.totalBits - 1) - 1 < n → exec .neg s = .next (s.refused 1 false (.range .opA .aboveMax))) ∧
    (n < -2 ^ (s.ins.fmtIn.fmt.totalBits - 1) → exec .neg s = .next (s.refused 1 false (.range .opA .belowMin)))

/-- R132: ADD: both operands are quantized into FMT_IN, the sum saturates there, and the result is requantized into FMT_OUT. -/
def Obligations.AddRule : Prop :=
  ∀ (s : State) (a b r : Int), s.running = false → s.ins.fmtIn.fmt.valid → s.ins.fmtOut.fmt.valid →
    IsRoundInt s.params.roundMode (hvRat s.ins.opA * 2 ^ s.ins.fmtIn.fmt.fracBits) a →
    IsRoundInt s.params.roundMode (hvRat s.ins.opB * 2 ^ s.ins.fmtIn.fmt.fracBits) b →
    IsRoundInt s.params.roundMode
      ((s.ins.fmtIn.fmt.sat (s.ins.fmtIn.fmt.sat a + s.ins.fmtIn.fmt.sat b) : ℚ) / 2 ^ s.ins.fmtIn.fmt.fracBits *
        2 ^ s.ins.fmtOut.fmt.fracBits) r →
    exec .add s = .next (s.completed 2 (s.ins.fmtOut.fmt.sat r) (pattern s.ins.fmtIn.fmt (s.ins.fmtIn.fmt.sat a))
      (pattern s.ins.fmtIn.fmt (s.ins.fmtIn.fmt.sat b)) (pattern s.ins.fmtOut.fmt (s.ins.fmtOut.fmt.sat r)))

/-- R133: SHR, its result for every shift amount and its refusals, for a valid FMT_IN and FMT_OUT. -/
def Obligations.ShrRule : Prop :=
  ∀ (s : State) (k : Nat) (n : Int), s.running = false → s.ins.fmtIn.fmt.valid → s.ins.fmtOut.fmt.valid →
    IsRoundInt s.params.roundMode (hvRat s.ins.opA * 2 ^ s.ins.fmtIn.fmt.fracBits) n →
    (∀ r, s.ins.fmtIn.fmt.holds n →
      IsRoundInt s.params.roundMode
        ((⌊(n : ℚ) / 2 ^ k⌋ : ℚ) / 2 ^ s.ins.fmtIn.fmt.fracBits * 2 ^ s.ins.fmtOut.fmt.fracBits) r →
      exec (.shr k) s = .next (s.completed 3 (s.ins.fmtOut.fmt.sat r) (pattern s.ins.fmtIn.fmt n) 0
        (pattern s.ins.fmtOut.fmt (s.ins.fmtOut.fmt.sat r)))) ∧
    (2 ^ (s.ins.fmtIn.fmt.totalBits - 1) - 1 < n → exec (.shr k) s = .next (s.refused 3 false (.range .opA .aboveMax))) ∧
    (n < -2 ^ (s.ins.fmtIn.fmt.totalBits - 1) → exec (.shr k) s = .next (s.refused 3 false (.range .opA .belowMin)))

/-- R134: after a completed primitive, `sext_(fout.W)(OUT_BITS) = sext_64(RX)`, and after NEG, ADD and SHR
`sext_(fin.W)(IN_A_BITS)` is the encoded input. -/
def Obligations.BitStringsAgreeWithValues : Prop :=
  ∀ (i : Instr) (s t : State) (r : Int), isPrimitive i = true → s.running = false → exec i s = .next t →
    t.status.state = .done → IsRoundInt s.params.roundMode (hvRat s.ins.opA * 2 ^ s.ins.fmtIn.fmt.fracBits) r →
    (∃ w : Word, t.outs.rx = .word w ∧ sextOf s.ins.fmtOut.fmt.totalBits t.outs.out.toNat = w.toInt) ∧
    (i ≠ .quant → sextOf s.ins.fmtIn.fmt.totalBits t.outs.inA.toNat =
      if i = .add then s.ins.fmtIn.fmt.sat r else r)

/-! ### Tables -/

/-- R143, R144: a circular or linear table is `[1, ..., N]`; a hyperbolic table has `N` entries, with the index of R144 at each
position. -/
def Obligations.AngleTablePositions : Prop :=
  ∀ n : Nat, angleTable .circ n = List.range' 1 n ∧ angleTable .lin n = List.range' 1 n ∧ (angleTable .hyp n).length = n ∧
    (n ≤ 64 → ∀ p : Nat, 1 ≤ p → p ≤ n → (angleTable .hyp n)[p - 1]? =
      some (if p ≤ 4 then p else if p ≤ 14 then p - 1 else if p ≤ 42 then p - 2 else p - 3))

/-- R150: the angle ROMs hold `floor(atan(2^-i)·2^64)` and `floor(atanh(2^-i)·2^64)`. -/
def Obligations.AngleRomsAreFloors : Prop :=
  ∀ i : Nat, 1 ≤ i → i ≤ 64 →
    (romAtan i : ℤ) = ⌊Real.arctan (1 / 2 ^ i) * 2 ^ 64⌋ ∧ (romAtanh i : ℤ) = ⌊Real.artanh (1 / 2 ^ i) * 2 ^ 64⌋

/-- R152: the gain ROMs hold the nearest words of K, in each column of HYP_GAIN_RULE. -/
def Obligations.GainRomsAreNearest : Prop :=
  ∀ n : Nat, 1 ≤ n → n ≤ 64 → ∀ rule : HypGainRule,
    |gainOf rule .rotCirc n * 2 ^ 64 - romKC n| < 1 / 2 ∧ |gainOf rule .rotHyp n * 2 ^ 64 - romKH rule n| < 1 / 2

/-- R148: the quantized angle is the nearest integer to the exact angle, saturated to Z; a linear angle follows ROUND_MODE. R206: so
is the quantized angle of a stage whose angle word W5 admits. -/
def Obligations.QuantizedAnglesAreExact : Prop :=
  (∀ (m : RoundMode) (i : Nat) (z : Fmt), 1 ≤ i → i ≤ 64 → z.valid →
    (∃ r : ℤ, |Real.arctan (1 / 2 ^ i) * 2 ^ z.fracBits - r| ≤ 1 / 2 ∧ thetaQ m .circ i z = z.sat r) ∧
    (∃ r : ℤ, |Real.artanh (1 / 2 ^ i) * 2 ^ z.fracBits - r| ≤ 1 / 2 ∧ thetaQ m .hyp i z = z.sat r) ∧
    (∃ r : ℤ, IsRoundInt m (1 / 2 ^ i * 2 ^ z.fracBits) r ∧ thetaQ m .lin i z = z.sat r)) ∧
  (∀ (e : StageEntry) (z : Fmt), e.angleExact → z.valid →
    ∃ r : ℤ, |e.angle * 2 ^ z.fracBits - r| ≤ 1 / 2 ∧ phiQ e z = z.sat r)

/-! ### Acceptance of the engine commands -/

/-- R166, R180, R182: ROT.CIRC.A and VEC.CIRC.A with every check passed are accepted, seeded with the gain word and latched. -/
def Obligations.CircularApproxAccepted : Prop :=
  ∀ (s : State) (ee : Bool) (n : Nat) (x y : Int), s.running = false →
    s.ins.fmtXy.fmt.valid → s.ins.fmtZ.fmt.valid → 1 ≤ n → n ≤ 64 →
    IsEnc s.params.roundMode ((romKC n : ℚ) / 2 ^ 64 * hvRat s.ins.opA) s.ins.fmtXy.fmt x →
    IsEnc s.params.roundMode ((romKC n : ℚ) / 2 ^ 64 * hvRat s.ins.opB) s.ins.fmtXy.fmt y →
    exec (.vecCircA ee n) s = .next (s.accepted 5 false { s.eng with
      latch := ⟨.vecCirc, .approx, ee, n, s.ins.fmtXy.fmt, s.ins.fmtZ.fmt, hv s.ins.opD⟩
      entries := angleTable .circ n, k := 0, fix := ⟨x, y, 0⟩ }) ∧
    (∀ t, IsEnc s.params.roundMode (hvRat s.ins.opC) s.ins.fmtZ.fmt t →
      exec (.rotCircA ee n) s = .next (s.accepted 4 false { s.eng with
        latch := ⟨.rotCirc, .approx, ee, n, s.ins.fmtXy.fmt, s.ins.fmtZ.fmt, hv s.ins.opD⟩
        entries := angleTable .circ n, k := 0, fix := ⟨x, y, t⟩ }))

/-- R166, R184: ROT.HYP.A with every check passed is accepted, seeded with the column's gain word and latched. -/
def Obligations.HyperbolicApproxAccepted : Prop :=
  ∀ (s : State) (ee : Bool) (n : Nat) (x y t : Int), s.running = false →
    s.ins.fmtXy.fmt.valid → s.ins.fmtZ.fmt.valid → 1 ≤ n → n ≤ 64 →
    IsEnc s.params.roundMode ((romKH s.params.hypGainRule n : ℚ) / 2 ^ 64 * hvRat s.ins.opA) s.ins.fmtXy.fmt x →
    IsEnc s.params.roundMode ((romKH s.params.hypGainRule n : ℚ) / 2 ^ 64 * hvRat s.ins.opB) s.ins.fmtXy.fmt y →
    IsEnc s.params.roundMode (hvRat s.ins.opC) s.ins.fmtZ.fmt t →
    exec (.rotHypA ee n) s = .next (s.accepted 6 false { s.eng with
      latch := ⟨.rotHyp, .approx, ee, n, s.ins.fmtXy.fmt, s.ins.fmtZ.fmt, hv s.ins.opD⟩
      entries := angleTable .hyp n, k := 0, fix := ⟨x, y, t⟩ })

/-- R166, R186: DIV.LIN.A with every check passed is accepted if the encoded divisor is not 0, and raises ZERO_DIVISOR if it is,
also where a nonzero host value rounds to 0. -/
def Obligations.DivisionApproxAccepted : Prop :=
  ∀ (s : State) (ee : Bool) (n : Nat) (x y : Int), s.running = false →
    s.ins.fmtXy.fmt.valid → s.ins.fmtZ.fmt.valid → 1 ≤ n → n ≤ 64 →
    IsEnc s.params.roundMode (hvRat s.ins.opA) s.ins.fmtXy.fmt x →
    IsEnc s.params.roundMode (hvRat s.ins.opB) s.ins.fmtXy.fmt y →
    (x ≠ 0 → exec (.divLinA ee n) s = .next (s.accepted 7 false { s.eng with
      latch := ⟨.divLin, .approx, ee, n, s.ins.fmtXy.fmt, s.ins.fmtZ.fmt, hv s.ins.opD⟩
      entries := angleTable .lin n, k := 0, fix := ⟨x, y, 0⟩ })) ∧
    (x = 0 → exec (.divLinA ee n) s = .next (s.refused 7 false .zeroDivisor))

/-- R204, R210: ROT.FAST.A with every check passed is accepted with its operands encoded, no gain, and `L = 0`. -/
def Obligations.FastApproxAccepted : Prop :=
  ∀ (s : State) (ee : Bool) (n : Nat) (x y t : Int), s.running = false →
    s.ins.fmtXy.fmt.valid → s.ins.fmtZ.fmt.valid → 1 ≤ n → n ≤ 64 →
    IsEnc s.params.roundMode (hvRat s.ins.opA) s.ins.fmtXy.fmt x →
    IsEnc s.params.roundMode (hvRat s.ins.opB) s.ins.fmtXy.fmt y →
    IsEnc s.params.roundMode (hvRat s.ins.opC) s.ins.fmtZ.fmt t →
    exec (.rotFastA ee n) s = .next (s.accepted 8 false { s.eng with
      latch := ⟨.rotFast, .approx, ee, n, s.ins.fmtXy.fmt, s.ins.fmtZ.fmt, hv s.ins.opD⟩
      k := 0, fix := { s.eng.fix with z := t }, fixAcc := ⟨x, y, 0⟩ })

/-- R166, R204, R161: the ideal commands read no format; with a legal budget (and a nonzero divisor) they are accepted with the
exact operands as seeds. -/
def Obligations.IdealCommandsAccepted : Prop :=
  ∀ (s : State) (ee : Bool) (n : Nat), s.running = false → 1 ≤ n → n ≤ 64 →
    ∃ x y t : Dyad, x.toRat = hvRat s.ins.opA ∧ y.toRat = hvRat s.ins.opB ∧ t.toRat = hvRat s.ins.opC ∧
      let latch := fun op : EngineOp => { s.eng.latch with op := op, sem := .ideal, ee := ee, n := n, eps := hv s.ins.opD }
      exec (.rotCircI ee n) s = .next (s.accepted 4 true { s.eng with
        latch := latch .rotCirc, entries := angleTable .circ n, k := 0, real := ⟨x, y, ⟨t, []⟩⟩ }) ∧
      exec (.vecCircI ee n) s = .next (s.accepted 5 true { s.eng with
        latch := latch .vecCirc, entries := angleTable .circ n, k := 0, real := ⟨x, y, ⟨⟨0, 0⟩, []⟩⟩ }) ∧
      exec (.rotHypI ee n) s = .next (s.accepted 6 true { s.eng with
        latch := latch .rotHyp, entries := angleTable .hyp n, k := 0, real := ⟨x, y, ⟨t, []⟩⟩ }) ∧
      (s.ins.opA ≠ 0 → exec (.divLinI ee n) s = .next (s.accepted 7 true { s.eng with
        latch := latch .divLin, entries := angleTable .lin n, k := 0, real := ⟨x, y, ⟨⟨0, 0⟩, []⟩⟩ })) ∧
      (s.ins.opA = 0 → exec (.divLinI ee n) s = .next (s.refused 7 true .zeroDivisor)) ∧
      exec (.rotFastI ee n) s = .next (s.accepted 8 true { s.eng with
        latch := latch .rotFast, k := 0, real := { s.eng.real with z := ⟨t, []⟩ }, realAcc := ⟨x, y, 1⟩ })

/-! ### Engine steps -/

/-- R168, R164: one step of circular rotation, under both semantics. -/
def Obligations.CircularRotationStep : Prop :=
  ∀ (s : State) (i : Nat), s.running = true → s.eng.latch.op = .rotCirc → s.eng.entries[s.eng.k]? = some i →
    ∃ t, engineStep s = .next t ∧
    (s.eng.latch.sem = .approx →
      let c := s.eng.fix
      let p := s.eng.latch.p
      let z := s.eng.latch.z
      let θ := thetaQ s.params.roundMode .circ i z
      t.eng.fix = if 0 ≤ c.z then ⟨p.sat (c.x - c.y / 2 ^ i - 1), p.sat (c.y + c.x / 2 ^ i), z.sat (c.z - θ - 1)⟩
        else ⟨p.sat (c.x + c.y / 2 ^ i), p.sat (c.y - c.x / 2 ^ i - 1), z.sat (c.z + θ)⟩) ∧
    (s.eng.latch.sem = .ideal →
      let c := s.eng.real
      ∃ d : Bool, (c.z.wf → (d = true ↔ 0 ≤ c.z.toReal)) ∧
        t.eng.real.x.toRat = c.x.toRat - dir d * (c.y.toRat / 2 ^ i) ∧
        t.eng.real.y.toRat = c.y.toRat + dir d * (c.x.toRat / 2 ^ i) ∧
        t.eng.real.z.toReal = c.z.toReal - (dir d : ℝ) * elemAngle .circ i)

/-- R169, R164: one step of circular vectoring, under both semantics. -/
def Obligations.CircularVectoringStep : Prop :=
  ∀ (s : State) (i : Nat), s.running = true → s.eng.latch.op = .vecCirc → s.eng.entries[s.eng.k]? = some i →
    ∃ t, engineStep s = .next t ∧
    (s.eng.latch.sem = .approx →
      let c := s.eng.fix
      let p := s.eng.latch.p
      let z := s.eng.latch.z
      let θ := thetaQ s.params.roundMode .circ i z
      t.eng.fix = if 0 ≤ c.y then ⟨p.sat (c.x + c.y / 2 ^ i), p.sat (c.y - c.x / 2 ^ i - 1), z.sat (c.z + θ)⟩
        else ⟨p.sat (c.x - c.y / 2 ^ i - 1), p.sat (c.y + c.x / 2 ^ i), z.sat (c.z - θ - 1)⟩) ∧
    (s.eng.latch.sem = .ideal →
      let c := s.eng.real
      ∃ d : Bool, (d = true ↔ 0 ≤ c.y.toRat) ∧
        t.eng.real.x.toRat = c.x.toRat + dir d * (c.y.toRat / 2 ^ i) ∧
        t.eng.real.y.toRat = c.y.toRat - dir d * (c.x.toRat / 2 ^ i) ∧
        t.eng.real.z.toReal = c.z.toReal + (dir d : ℝ) * elemAngle .circ i)

/-- R170, R164: one step of hyperbolic rotation, under both semantics. -/
def Obligations.HyperbolicRotationStep : Prop :=
  ∀ (s : State) (i : Nat), s.running = true → s.eng.latch.op = .rotHyp → s.eng.entries[s.eng.k]? = some i →
    ∃ t, engineStep s = .next t ∧
    (s.eng.latch.sem = .approx →
      let c := s.eng.fix
      let p := s.eng.latch.p
      let z := s.eng.latch.z
      let θ := thetaQ s.params.roundMode .hyp i z
      t.eng.fix = if 0 ≤ c.z then ⟨p.sat (c.x + c.y / 2 ^ i), p.sat (c.y + c.x / 2 ^ i), z.sat (c.z - θ - 1)⟩
        else ⟨p.sat (c.x - c.y / 2 ^ i - 1), p.sat (c.y - c.x / 2 ^ i - 1), z.sat (c.z + θ)⟩) ∧
    (s.eng.latch.sem = .ideal →
      let c := s.eng.real
      ∃ d : Bool, (c.z.wf → (d = true ↔ 0 ≤ c.z.toReal)) ∧
        t.eng.real.x.toRat = c.x.toRat + dir d * (c.y.toRat / 2 ^ i) ∧
        t.eng.real.y.toRat = c.y.toRat + dir d * (c.x.toRat / 2 ^ i) ∧
        t.eng.real.z.toReal = c.z.toReal - (dir d : ℝ) * elemAngle .hyp i)

/-- R171, R164: one step of division, under both semantics: `x` is constant and `d = +1` where the signs of `x` and `y` differ. -/
def Obligations.DivisionStep : Prop :=
  ∀ (s : State) (i : Nat), s.running = true → s.eng.latch.op = .divLin → s.eng.entries[s.eng.k]? = some i →
    ∃ t, engineStep s = .next t ∧
    (s.eng.latch.sem = .approx →
      let c := s.eng.fix
      let p := s.eng.latch.p
      let z := s.eng.latch.z
      let θ := thetaQ s.params.roundMode .lin i z
      t.eng.fix = if ¬(0 ≤ c.x ↔ 0 ≤ c.y) then ⟨c.x, p.sat (c.y + c.x / 2 ^ i), z.sat (c.z - θ - 1)⟩
        else ⟨c.x, p.sat (c.y - c.x / 2 ^ i - 1), z.sat (c.z + θ)⟩) ∧
    (s.eng.latch.sem = .ideal →
      let c := s.eng.real
      ∃ d : Bool, (d = true ↔ ¬(0 ≤ c.x.toRat ↔ 0 ≤ c.y.toRat)) ∧
        t.eng.real.x = c.x ∧
        t.eng.real.y.toRat = c.y.toRat + dir d * (c.x.toRat / 2 ^ i) ∧
        t.eng.real.z.toReal = c.z.toReal - (dir d : ℝ) * elemAngle .lin i)

/-- R202: the lookup finds the least entry whose bracket holds `|z|`, and nothing if no bracket does, for every table, compared
exactly under both semantics (log entry 4). -/
def Obligations.LookupFindsTheLeastBracket : Prop :=
  ∀ table : List StageEntry,
    (∀ (z : Fmt) (n : Int), z.valid →
      (∀ e, lookupA table z n = some e ↔ leastBracket table (|(n : ℝ)| / 2 ^ z.fracBits) e) ∧
      (lookupA table z n = none ↔ ∀ e ∈ table, ¬e.brackets (|(n : ℝ)| / 2 ^ z.fracBits))) ∧
    (∀ z : Angle, z.wf →
      (∀ e, lookupI table z = some e ↔ leastBracket table |z.toReal| e) ∧
      (lookupI table z = none ↔ ∀ e ∈ table, ¬e.brackets |z.toReal|))

/-- R206, R207: one approximate stage step: the accumulators, the shift total and the residual; a lookup that finds no bracket
raises COVERAGE and changes nothing else. -/
def Obligations.FastApproxStep : Prop :=
  ∀ s : State, s.running = true → s.eng.latch.op = .rotFast → s.eng.latch.sem = .approx →
    (lookupA s.params.stageTable s.eng.latch.z s.eng.fix.z = none →
      engineStep s = .next { s with status := { s.status with state := .error, errCode := 2, errDetail := 0x02 } }) ∧
    (∀ e, lookupA s.params.stageTable s.eng.latch.z s.eng.fix.z = some e →
      ∃ t, engineStep s = .next t ∧
      let c := s.eng.fixAcc
      let z := s.eng.latch.z
      let d : Int := if 0 ≤ s.eng.fix.z then 1 else -1
      let φ : Int := if e.b = 0 then 0 else z.sat ((e.phi + 2 ^ (63 - z.fracBits)) / 2 ^ (64 - z.fracBits))
      t.eng.fixAcc = ⟨e.a * c.X - d * e.b * c.Y, d * e.b * c.X + e.a * c.Y, c.L + e.k⟩ ∧
      t.eng.fix.z = if 0 ≤ s.eng.fix.z then z.sat (s.eng.fix.z - φ - 1) else z.sat (s.eng.fix.z + φ))

/-- R206, R207: one ideal stage step, with the exact angle `atan2(b, a)`. -/
def Obligations.FastIdealStep : Prop :=
  ∀ s : State, s.running = true → s.eng.latch.op = .rotFast → s.eng.latch.sem = .ideal →
    (lookupI s.params.stageTable s.eng.real.z = none →
      engineStep s = .next { s with status := { s.status with state := .error, errCode := 2, errDetail := 0x02 } }) ∧
    (∀ e, lookupI s.params.stageTable s.eng.real.z = some e → 0 < e.a →
      ∃ t, engineStep s = .next t ∧
      let c := s.eng.realAcc
      ∃ d : Bool, (s.eng.real.z.wf → (d = true ↔ 0 ≤ s.eng.real.z.toReal)) ∧
        t.eng.realAcc.X.toRat = e.a * c.X.toRat - dir d * e.b * c.Y.toRat ∧
        t.eng.realAcc.Y.toRat = dir d * e.b * c.X.toRat + e.a * c.Y.toRat ∧
        t.eng.realAcc.D = c.D * 2 ^ e.k ∧
        t.eng.real.z.toReal = s.eng.real.z.toReal - (dir d : ℝ) * Real.arctan ((e.b : ℝ) / e.a))

/-- R105: an engine step that raises no error advances `k` and ITERS by one, then tests convergence where EE is 1, then the
budget. -/
def Obligations.StepCountsAndEnds : Prop :=
  ∀ (s t : State), s.running = true → engineStep s = .next t → t.status.state ≠ .error →
    t.eng.k = s.eng.k + 1 ∧ t.status.iters = BitVec.ofNat 7 (s.eng.k + 1) ∧ t.eng.latch = s.eng.latch ∧
    t.eng.entries = s.eng.entries ∧
    t.status.state = if s.eng.latch.ee = true ∧ converged t.eng = true then .convergedEarly
      else if s.eng.k + 1 = s.eng.latch.n then .exhausted else .running

/-- R172: the convergence test is `|v| ≤ eps` exactly, of the driven quantity, for an approximate run, an ideal vectoring run, and
an ideal rotation of a well-formed residual, which the residual of every run is (invariant; log entry 4). -/
def Obligations.ConvergenceTestIsExact : Prop :=
  ∀ e : Engine,
    (e.latch.sem = .approx ∨ e.latch.op = .vecCirc ∨ e.latch.op = .divLin ∨ e.real.z.wf) →
    (converged e = true ↔ |e.driven| ≤ (e.latch.eps.toRat : ℝ))

/-- R173, R145, R106: the terminating step of a standard mode writes RX, RY and RZ from the state it ends in, with the exact
full-budget gain under ideal semantics. -/
def Obligations.TerminationWritesResults : Prop :=
  ∀ (s t : State), s.running = true → s.eng.latch.op ≠ .rotFast → engineStep s = .next t → t.running = false →
    s.eng.latch.n ≤ 64 →
    (s.eng.latch.sem = .approx →
      t.outs.rx = .word (BitVec.ofInt 64 t.eng.fix.x) ∧ t.outs.ry = .word (BitVec.ofInt 64 t.eng.fix.y) ∧
      t.outs.rz = .word (BitVec.ofInt 64 t.eng.fix.z)) ∧
    (s.eng.latch.sem = .ideal → ∃ rx ry rz : ExactReal,
      t.outs.rx = .real rx ∧ t.outs.ry = .real ry ∧ t.outs.rz = .real rz ∧
      rx.toReal = gainOf s.params.hypGainRule s.eng.latch.op s.eng.latch.n * (t.eng.real.x.toRat : ℝ) ∧
      ry.toReal = gainOf s.params.hypGainRule s.eng.latch.op s.eng.latch.n * (t.eng.real.y.toRat : ℝ) ∧
      rz.toReal = t.eng.real.z.toReal)

/-- R208: the final normalization of ROT.FAST: a floor shift by `L`, saturated to P, or the exact quotient by `D`. -/
def Obligations.FastNormalization : Prop :=
  ∀ (s t : State), s.running = true → s.eng.latch.op = .rotFast → engineStep s = .next t →
    t.status.state = .convergedEarly ∨ t.status.state = .exhausted →
    (s.eng.latch.sem = .approx →
      t.outs.rx = .word (BitVec.ofInt 64 (s.eng.latch.p.sat ⌊(t.eng.fixAcc.X : ℚ) / 2 ^ t.eng.fixAcc.L⌋)) ∧
      t.outs.ry = .word (BitVec.ofInt 64 (s.eng.latch.p.sat ⌊(t.eng.fixAcc.Y : ℚ) / 2 ^ t.eng.fixAcc.L⌋)) ∧
      t.outs.rz = .word (BitVec.ofInt 64 t.eng.fix.z)) ∧
    (s.eng.latch.sem = .ideal → ∃ rx ry rz : ExactReal,
      t.outs.rx = .real rx ∧ t.outs.ry = .real ry ∧ t.outs.rz = .real rz ∧
      rx.toReal = (t.eng.realAcc.X.toRat : ℝ) / t.eng.realAcc.D ∧ ry.toReal = (t.eng.realAcc.Y.toRat : ℝ) / t.eng.realAcc.D ∧
      rz.toReal = t.eng.real.z.toReal)

/-- R244, R26, R36, R30, R33, R206 frame: an engine step leaves the operands, the bit strings, the parameters and the latched
command; it writes RX, RY and RZ only where it ends CONVERGED_EARLY or EXHAUSTED. A standard mode leaves the accumulators, and
ROT.FAST leaves `x` and `y`. MODEL'S CHOICE (log entry 12): the approximate and the ideal state are separate fields, so a run
leaves those of the other semantics. -/
def Obligations.EngineStepFrame : Prop :=
  ∀ (s t : State), s.running = true → engineStep s = .next t →
    t.ins = s.ins ∧ t.outs.inA = s.outs.inA ∧ t.outs.inB = s.outs.inB ∧ t.outs.out = s.outs.out ∧ t.params = s.params ∧
    t.pending = s.pending ∧ t.readData = s.readData ∧ t.status.ovr = s.status.ovr ∧ t.status.lastOp = s.status.lastOp ∧
    t.status.lastSem = s.status.lastSem ∧ t.eng.latch = s.eng.latch ∧ t.eng.entries = s.eng.entries ∧
    (s.eng.latch.op ≠ .rotFast → t.eng.fixAcc = s.eng.fixAcc ∧ t.eng.realAcc = s.eng.realAcc) ∧
    (s.eng.latch.op = .rotFast → t.eng.fix.x = s.eng.fix.x ∧ t.eng.fix.y = s.eng.fix.y ∧ t.eng.real.x = s.eng.real.x ∧
      t.eng.real.y = s.eng.real.y) ∧
    (s.eng.latch.sem = .approx → t.eng.real = s.eng.real ∧ t.eng.realAcc = s.eng.realAcc) ∧
    (s.eng.latch.sem = .ideal → t.eng.fix = s.eng.fix ∧ t.eng.fixAcc = s.eng.fixAcc) ∧
    (t.status.state = .running ∨ t.status.state = .error → t.outs = s.outs)

/-! ### The ideal strategy's signs -/

/-- R10, R160: `sgnp` of an exact residual is the sign of the real number, for every residual a run forms (log entry 4). -/
def Obligations.IdealSignIsExact : Prop :=
  ∀ z : Angle, z.wf → (z.nonneg = true ↔ 0 ≤ z.toReal)

/-! ### The whole machine -/

/-- The invariant holds at reset. -/
def Obligations.InvariantHoldsAtReset : Prop := State.reset.Inv

/-- Every step, of the host or of the engine, keeps the invariant. -/
def Obligations.InvariantKeptByEveryStep : Prop :=
  ∀ s t : State, s.Inv → step s = .next t → t.Inv

/-- R235: in every state of the invariant a step has exactly one effect: it answers a next state, never a fault or a refusal. -/
def Obligations.EveryStepHasAnEffect : Prop := ∀ s : State, s.Inv → ∃ t, step s = .next t

/-- R107, R251, R176: a RUNNING command reaches a terminal state after at most `N - k` engine steps and is RUNNING until then; a
standard mode ends CONVERGED_EARLY or EXHAUSTED with no error, and ROT.FAST may also end in the COVERAGE error. -/
def Obligations.TerminationIsGuaranteed : Prop :=
  ∀ s : State, s.Inv → s.running = true → s.pending = [] →
    ∃ (j : Nat) (t : State), 1 ≤ j ∧ j ≤ s.eng.latch.n - s.eng.k ∧ Sys2Proof.core.run j s = .next t ∧
      (∀ i < j, ∃ u : State, Sys2Proof.core.run i s = .next u ∧ u.running = true) ∧
      ((t.status.state = .convergedEarly ∨ t.status.state = .exhausted) ∧ t.status.errCode = 0 ∧ t.status.errDetail = 0 ∧
          t.status.iters.toNat = s.eng.k + j ∨
        s.eng.latch.op = .rotFast ∧ t.status.state = .error ∧ t.status.errCode = 2 ∧ t.status.errDetail = 0x02 ∧
          t.status.iters.toNat + 1 = s.eng.k + j)

/-- R104, R105, R107: every engine command that passes its checks is accepted and ends, after at most `N` engine steps,
CONVERGED_EARLY or EXHAUSTED, or for ROT.FAST in the COVERAGE error. -/
def Obligations.EveryAcceptedCommandEnds : Prop :=
  ∀ (i : Instr) (s : State), s.Inv → s.running = false → s.pending = [] → isPrimitive i = false →
    firstFailure (checks i s) = none →
    ∃ (a t : State) (j : Nat), exec i s = .next a ∧ a.status.state = .running ∧ 1 ≤ j ∧ j ≤ 64 ∧
      Sys2Proof.core.run j a = .next t ∧ t.status.lastOp = instrOp i ∧ t.status.lastSem = instrSem i ∧
      (t.status.state = .convergedEarly ∨ t.status.state = .exhausted ∨
        t.status.state = .error ∧ instrOp i = 8 ∧ t.status.errCode = 2 ∧ t.status.errDetail = 0x02)

/-- R205: under the invariant the accumulators of a running ROT.FAST.A, and those of the state its engine step answers (the ones
R208 normalizes included), fit a signed register of FAST_ACC_BITS bits, and `L ≤ 1024`. -/
def Obligations.AccumulatorsFit : Prop :=
  ∀ s t : State, s.Inv → s.running = true → s.eng.latch.op = .rotFast → s.eng.latch.sem = .approx →
    t = s ∨ engineStep s = .next t →
    -2 ^ (s.params.fastAccBits - 1) ≤ t.eng.fixAcc.X ∧ t.eng.fixAcc.X < 2 ^ (s.params.fastAccBits - 1) ∧
    -2 ^ (s.params.fastAccBits - 1) ≤ t.eng.fixAcc.Y ∧ t.eng.fixAcc.Y < 2 ^ (s.params.fastAccBits - 1) ∧
    t.eng.fixAcc.L ≤ 1024

/-- R201 (W6), R207: with admissible parameters an ideal ROT.FAST whose target lies within `π/4` never raises COVERAGE, nor any
other error, for as long as it runs. That W6 speaks of the exact residual is the model's reading (log entry 7). -/
def Obligations.CoverageHoldsInRange : Prop :=
  ∀ (s a t : State) (ee : Bool) (n j : Nat), s.Inv → s.running = false → s.pending = [] → 1 ≤ n → n ≤ 64 →
    |(hvRat s.ins.opC : ℝ)| ≤ Real.pi / 4 → exec (.rotFastI ee n) s = .next a → Sys2Proof.core.run j a = .next t →
    t.status.state ≠ .error

/-- R245: a write to a format or operand register (or to any address but CMD) while RUNNING does not touch the running command:
the write and the engine step commute. -/
def Obligations.WritesDoNotTouchTheRun : Prop :=
  ∀ (s t : State) (a : Addr) (w : Word), s.running = true → engineStep s = .next t →
    engineStep (s.writeReg a w) = .next (t.writeReg a w)

/-- R109: the outcome of a command depends on the command, the format and operand registers and the parameters only: from two
quiescent states that agree on those, every number of steps gives the same STATUS, and the same results where it has ended. -/
def Obligations.CommandsAreIndependent : Prop :=
  ∀ (i : Instr) (s s' a a' t t' : State) (j : Nat),
    s.running = false → s'.running = false → s.params = s'.params → s.ins = s'.ins → s.pending = [] → s'.pending = [] →
    exec i s = .next a → exec i s' = .next a' →
    Sys2Proof.core.run j a = .next t → Sys2Proof.core.run j a' = .next t' →
    t.status = t'.status ∧
    (t.status.state = .convergedEarly ∨ t.status.state = .exhausted →
      t.outs.rx = t'.outs.rx ∧ t.outs.ry = t'.outs.ry ∧ t.outs.rz = t'.outs.rz) ∧
    (t.status.state = .done →
      t.outs.rx = t'.outs.rx ∧ t.outs.inA = t'.outs.inA ∧ t.outs.inB = t'.outs.inB ∧ t.outs.out = t'.outs.out)
end

