-- ==== Sys2Proof/Laws/State.lean ====
section
/-!
SUPPORT. Laws/State.lean: what each named update of the state leaves in each field, one lemma a field, so that no later proof
unfolds a record update.
-/

namespace Sys2Proof.Machine

@[simp] theorem State.setStatus_params (st : Status) (s : State) : (s.setStatus st).params = s.params := rfl
@[simp] theorem State.setStatus_status (st : Status) (s : State) : (s.setStatus st).status = st := rfl
@[simp] theorem State.setStatus_ins (st : Status) (s : State) : (s.setStatus st).ins = s.ins := rfl
@[simp] theorem State.setStatus_outs (st : Status) (s : State) : (s.setStatus st).outs = s.outs := rfl
@[simp] theorem State.setStatus_eng (st : Status) (s : State) : (s.setStatus st).eng = s.eng := rfl
@[simp] theorem State.setStatus_pending (st : Status) (s : State) : (s.setStatus st).pending = s.pending := rfl
@[simp] theorem State.setStatus_readData (st : Status) (s : State) : (s.setStatus st).readData = s.readData := rfl

@[simp] theorem State.setIns_params (r : InRegs) (s : State) : (s.setIns r).params = s.params := rfl
@[simp] theorem State.setIns_status (r : InRegs) (s : State) : (s.setIns r).status = s.status := rfl
@[simp] theorem State.setIns_ins (r : InRegs) (s : State) : (s.setIns r).ins = r := rfl
@[simp] theorem State.setIns_outs (r : InRegs) (s : State) : (s.setIns r).outs = s.outs := rfl
@[simp] theorem State.setIns_eng (r : InRegs) (s : State) : (s.setIns r).eng = s.eng := rfl
@[simp] theorem State.setIns_pending (r : InRegs) (s : State) : (s.setIns r).pending = s.pending := rfl
@[simp] theorem State.setIns_readData (r : InRegs) (s : State) : (s.setIns r).readData = s.readData := rfl

@[simp] theorem State.setOuts_params (r : OutRegs) (s : State) : (s.setOuts r).params = s.params := rfl
@[simp] theorem State.setOuts_status (r : OutRegs) (s : State) : (s.setOuts r).status = s.status := rfl
@[simp] theorem State.setOuts_ins (r : OutRegs) (s : State) : (s.setOuts r).ins = s.ins := rfl
@[simp] theorem State.setOuts_outs (r : OutRegs) (s : State) : (s.setOuts r).outs = r := rfl
@[simp] theorem State.setOuts_eng (r : OutRegs) (s : State) : (s.setOuts r).eng = s.eng := rfl
@[simp] theorem State.setOuts_pending (r : OutRegs) (s : State) : (s.setOuts r).pending = s.pending := rfl
@[simp] theorem State.setOuts_readData (r : OutRegs) (s : State) : (s.setOuts r).readData = s.readData := rfl

@[simp] theorem State.setEng_params (e : Engine) (s : State) : (s.setEng e).params = s.params := rfl
@[simp] theorem State.setEng_status (e : Engine) (s : State) : (s.setEng e).status = s.status := rfl
@[simp] theorem State.setEng_ins (e : Engine) (s : State) : (s.setEng e).ins = s.ins := rfl
@[simp] theorem State.setEng_outs (e : Engine) (s : State) : (s.setEng e).outs = s.outs := rfl
@[simp] theorem State.setEng_eng (e : Engine) (s : State) : (s.setEng e).eng = e := rfl
@[simp] theorem State.setEng_pending (e : Engine) (s : State) : (s.setEng e).pending = s.pending := rfl
@[simp] theorem State.setEng_readData (e : Engine) (s : State) : (s.setEng e).readData = s.readData := rfl

@[simp] theorem State.setPending_params (p : List HostEvent) (s : State) : (s.setPending p).params = s.params := rfl
@[simp] theorem State.setPending_status (p : List HostEvent) (s : State) : (s.setPending p).status = s.status := rfl
@[simp] theorem State.setPending_ins (p : List HostEvent) (s : State) : (s.setPending p).ins = s.ins := rfl
@[simp] theorem State.setPending_outs (p : List HostEvent) (s : State) : (s.setPending p).outs = s.outs := rfl
@[simp] theorem State.setPending_eng (p : List HostEvent) (s : State) : (s.setPending p).eng = s.eng := rfl
@[simp] theorem State.setPending_pending (p : List HostEvent) (s : State) : (s.setPending p).pending = p := rfl
@[simp] theorem State.setPending_readData (p : List HostEvent) (s : State) : (s.setPending p).readData = s.readData := rfl

@[simp] theorem State.setReadData_params (v : Option ResVal) (s : State) : (s.setReadData v).params = s.params := rfl
@[simp] theorem State.setReadData_status (v : Option ResVal) (s : State) : (s.setReadData v).status = s.status := rfl
@[simp] theorem State.setReadData_ins (v : Option ResVal) (s : State) : (s.setReadData v).ins = s.ins := rfl
@[simp] theorem State.setReadData_outs (v : Option ResVal) (s : State) : (s.setReadData v).outs = s.outs := rfl
@[simp] theorem State.setReadData_eng (v : Option ResVal) (s : State) : (s.setReadData v).eng = s.eng := rfl
@[simp] theorem State.setReadData_pending (v : Option ResVal) (s : State) : (s.setReadData v).pending = s.pending := rfl
@[simp] theorem State.setReadData_readData (v : Option ResVal) (s : State) : (s.setReadData v).readData = v := rfl

@[simp] theorem State.raise_params (c : Cause) (s : State) : (s.raise c).params = s.params := rfl
@[simp] theorem State.raise_status (c : Cause) (s : State) : (s.raise c).status =
    { s.status with errCode := c.code, errDetail := c.detail, state := .error } := rfl
@[simp] theorem State.raise_ins (c : Cause) (s : State) : (s.raise c).ins = s.ins := rfl
@[simp] theorem State.raise_outs (c : Cause) (s : State) : (s.raise c).outs = s.outs := rfl
@[simp] theorem State.raise_eng (c : Cause) (s : State) : (s.raise c).eng = s.eng := rfl
@[simp] theorem State.raise_pending (c : Cause) (s : State) : (s.raise c).pending = s.pending := rfl
@[simp] theorem State.raise_readData (c : Cause) (s : State) : (s.raise c).readData = s.readData := rfl

@[simp] theorem State.beginIssue_params (op : BitVec 4) (sem : Bool) (s : State) : (s.beginIssue op sem).params = s.params := rfl
@[simp] theorem State.beginIssue_status (op : BitVec 4) (sem : Bool) (s : State) : (s.beginIssue op sem).status =
    { s.status with lastOp := op, lastSem := sem, ovr := false, errCode := 0, errDetail := 0, iters := 0 } := rfl
@[simp] theorem State.beginIssue_ins (op : BitVec 4) (sem : Bool) (s : State) : (s.beginIssue op sem).ins = s.ins := rfl
@[simp] theorem State.beginIssue_outs (op : BitVec 4) (sem : Bool) (s : State) : (s.beginIssue op sem).outs = s.outs := rfl
@[simp] theorem State.beginIssue_eng (op : BitVec 4) (sem : Bool) (s : State) : (s.beginIssue op sem).eng = s.eng := rfl
@[simp] theorem State.beginIssue_pending (op : BitVec 4) (sem : Bool) (s : State) : (s.beginIssue op sem).pending = s.pending := rfl
@[simp] theorem State.beginIssue_readData (op : BitVec 4) (sem : Bool) (s : State) : (s.beginIssue op sem).readData = s.readData := rfl

@[simp] theorem State.dropCommand_params (s : State) : (s.dropCommand).params = s.params := rfl
@[simp] theorem State.dropCommand_status (s : State) : (s.dropCommand).status = { s.status with ovr := true } := rfl
@[simp] theorem State.dropCommand_ins (s : State) : (s.dropCommand).ins = s.ins := rfl
@[simp] theorem State.dropCommand_outs (s : State) : (s.dropCommand).outs = s.outs := rfl
@[simp] theorem State.dropCommand_eng (s : State) : (s.dropCommand).eng = s.eng := rfl
@[simp] theorem State.dropCommand_pending (s : State) : (s.dropCommand).pending = s.pending := rfl
@[simp] theorem State.dropCommand_readData (s : State) : (s.dropCommand).readData = s.readData := rfl

@[simp] theorem State.finishPrimitive_params (rx : ResVal) (inA inB out : Word) (s : State) : (s.finishPrimitive rx inA inB out).params = s.params := rfl
@[simp] theorem State.finishPrimitive_status (rx : ResVal) (inA inB out : Word) (s : State) : (s.finishPrimitive rx inA inB out).status = { s.status with state := .done } := rfl
@[simp] theorem State.finishPrimitive_ins (rx : ResVal) (inA inB out : Word) (s : State) : (s.finishPrimitive rx inA inB out).ins = s.ins := rfl
@[simp] theorem State.finishPrimitive_outs (rx : ResVal) (inA inB out : Word) (s : State) : (s.finishPrimitive rx inA inB out).outs =
    { s.outs with rx := rx, inA := inA, inB := inB, out := out } := rfl
@[simp] theorem State.finishPrimitive_eng (rx : ResVal) (inA inB out : Word) (s : State) : (s.finishPrimitive rx inA inB out).eng = s.eng := rfl
@[simp] theorem State.finishPrimitive_pending (rx : ResVal) (inA inB out : Word) (s : State) : (s.finishPrimitive rx inA inB out).pending = s.pending := rfl
@[simp] theorem State.finishPrimitive_readData (rx : ResVal) (inA inB out : Word) (s : State) : (s.finishPrimitive rx inA inB out).readData = s.readData := rfl

@[simp] theorem State.accept_params (e : Engine) (s : State) : (s.accept e).params = s.params := rfl
@[simp] theorem State.accept_status (e : Engine) (s : State) : (s.accept e).status =
    { s.status with iters := 0, state := .running } := rfl
@[simp] theorem State.accept_ins (e : Engine) (s : State) : (s.accept e).ins = s.ins := rfl
@[simp] theorem State.accept_outs (e : Engine) (s : State) : (s.accept e).outs = s.outs := rfl
@[simp] theorem State.accept_eng (e : Engine) (s : State) : (s.accept e).eng = { e with k := 0 } := rfl
@[simp] theorem State.accept_pending (e : Engine) (s : State) : (s.accept e).pending = s.pending := rfl
@[simp] theorem State.accept_readData (e : Engine) (s : State) : (s.accept e).readData = s.readData := rfl

@[simp] theorem State.writeReg_params (a : Addr) (w : Word) (s : State) : (s.writeReg a w).params = s.params := rfl
@[simp] theorem State.writeReg_status (a : Addr) (w : Word) (s : State) : (s.writeReg a w).status = s.status := rfl
@[simp] theorem State.writeReg_ins (a : Addr) (w : Word) (s : State) : (s.writeReg a w).ins = s.ins.write a w := rfl
@[simp] theorem State.writeReg_outs (a : Addr) (w : Word) (s : State) : (s.writeReg a w).outs = s.outs := rfl
@[simp] theorem State.writeReg_eng (a : Addr) (w : Word) (s : State) : (s.writeReg a w).eng = s.eng := rfl
@[simp] theorem State.writeReg_pending (a : Addr) (w : Word) (s : State) : (s.writeReg a w).pending = s.pending := rfl
@[simp] theorem State.writeReg_readData (a : Addr) (w : Word) (s : State) : (s.writeReg a w).readData = s.readData := rfl

@[simp] theorem State.hostRead_params (a : Addr) (s : State) : (s.hostRead a).params = s.params := rfl
@[simp] theorem State.hostRead_status (a : Addr) (s : State) : (s.hostRead a).status = s.status := rfl
@[simp] theorem State.hostRead_ins (a : Addr) (s : State) : (s.hostRead a).ins = s.ins := rfl
@[simp] theorem State.hostRead_outs (a : Addr) (s : State) : (s.hostRead a).outs = s.outs := rfl
@[simp] theorem State.hostRead_eng (a : Addr) (s : State) : (s.hostRead a).eng = s.eng := rfl
@[simp] theorem State.hostRead_pending (a : Addr) (s : State) : (s.hostRead a).pending = s.pending := rfl
@[simp] theorem State.hostRead_readData (a : Addr) (s : State) : (s.hostRead a).readData = some (s.readReg a) := rfl

@[simp] theorem State.terminate_params (st : EngState) (s : State) : (s.terminate st).params = s.params := rfl
@[simp] theorem State.terminate_status (st : EngState) (s : State) : (s.terminate st).status = { s.status with state := st } := rfl
@[simp] theorem State.terminate_ins (st : EngState) (s : State) : (s.terminate st).ins = s.ins := rfl
@[simp] theorem State.terminate_outs (st : EngState) (s : State) : (s.terminate st).outs =
    { s.outs with rx := resultX s.params.hypGainRule s.eng, ry := resultY s.params.hypGainRule s.eng, rz := resultZ s.eng } := rfl
@[simp] theorem State.terminate_eng (st : EngState) (s : State) : (s.terminate st).eng = s.eng := rfl
@[simp] theorem State.terminate_pending (st : EngState) (s : State) : (s.terminate st).pending = s.pending := rfl
@[simp] theorem State.terminate_readData (st : EngState) (s : State) : (s.terminate st).readData = s.readData := rfl

/-- Two states with equal fields are equal. -/
theorem State.ext_fields {s t : State} (h1 : s.params = t.params) (h2 : s.status = t.status) (h3 : s.ins = t.ins)
    (h4 : s.outs = t.outs) (h5 : s.eng = t.eng) (h6 : s.pending = t.pending) (h7 : s.readData = t.readData) : s = t := by
  cases s
  cases t
  simp_all

/-- `running` reads STATUS only. -/
theorem State.running_iff (s : State) : s.running = true ↔ s.status.state = .running := by
  simp [State.running]

theorem State.not_running_iff (s : State) : s.running = false ↔ s.status.state ≠ .running := by
  simp [State.running]

end Sys2Proof.Machine
end

