-- ==== Sys2Proof/Laws/Arith.lean ====
section
/-!
SUPPORT. Laws/Arith.lean: what the integer and dyadic operations of Machine/Operands.lean and Machine/Exact.lean compute, in
terms of integers and rationals.
-/

namespace Sys2Proof.Machine

/-! ### Powers, shifts, clamping -/

theorem pow2_eq (k : Nat) : pow2 k = 2 ^ k := by simp [pow2]

theorem pow2_pos (k : Nat) : 0 < pow2 k := by rw [pow2_eq]; positivity

theorem asr_eq_div (n : Int) (k : Nat) : asr n k = n / 2 ^ k := by
  simp [asr, Int.shiftRight_eq_div_pow]

theorem div_pow_eq_floor (n : Int) (k : Nat) : n / 2 ^ k = ⌊(n : ℚ) / 2 ^ k⌋ := by
  have := Rat.floor_intCast_div_natCast n (2 ^ k)
  push_cast at this
  exact this.symm

theorem asr_eq_floor (n : Int) (k : Nat) : asr n k = ⌊(n : ℚ) / 2 ^ k⌋ := by
  rw [asr_eq_div, div_pow_eq_floor]

theorem Fmt.nmin_eq (f : Fmt) : f.nmin = -2 ^ (f.totalBits - 1) := by simp [Fmt.nmin, pow2_eq]

theorem Fmt.nmax_eq (f : Fmt) : f.nmax = 2 ^ (f.totalBits - 1) - 1 := by simp [Fmt.nmax, pow2_eq]

theorem Fmt.clamp_eq_sat (f : Fmt) (n : Int) : f.clamp n = f.sat n := by
  simp [Fmt.clamp, clampInt, Fmt.sat, Fmt.nmin_eq, Fmt.nmax_eq]

theorem Fmt.sat_holds (f : Fmt) (n : Int) : f.holds (f.sat n) := by
  have : (0 : Int) < 2 ^ (f.totalBits - 1) := by positivity
  simp only [Fmt.holds, Fmt.sat]
  omega

theorem Fmt.clamp_holds (f : Fmt) (n : Int) : f.holds (f.clamp n) := f.clamp_eq_sat n ▸ f.sat_holds n

theorem Fmt.sat_of_holds {f : Fmt} {n : Int} (h : f.holds n) : f.sat n = n := by
  simp only [Fmt.holds, Fmt.sat] at *
  omega

theorem Fmt.sat_mono (f : Fmt) {n m : Int} (h : n ≤ m) : f.sat n ≤ f.sat m := by
  simp only [Fmt.sat]
  omega

/-! ### Rounding -/

theorem isRoundInt_unique {m : RoundMode} {r : ℚ} {n k : ℤ} (hn : IsRoundInt m r n) (hk : IsRoundInt m r k) : n = k := by
  obtain ⟨hn1, hn2⟩ := hn
  obtain ⟨hk1, hk2⟩ := hk
  have h1 := abs_le.1 hn1
  have h2 := abs_le.1 hk1
  have hlt : ((n : ℚ) - k ≤ 1) ∧ (-1 ≤ (n : ℚ) - k) := by constructor <;> linarith
  have hlt' : n - k ≤ 1 ∧ -1 ≤ n - k := by exact_mod_cast hlt
  rcases (show n = k ∨ n = k + 1 ∨ k = n + 1 by omega) with h | h | h
  · exact h
  · exfalso
    have e : r = k + 1 / 2 := by
      have : (n : ℚ) = k + 1 := by exact_mod_cast h
      linarith
    have hn3 := hn2 (by rw [e, h]; push_cast; norm_num [abs_of_neg])
    have hk3 := hk2 (by rw [e]; norm_num [abs_of_pos])
    cases m with
    | halfEven =>
      simp only at hn3 hk3
      rw [Int.even_iff] at hn3 hk3
      omega
    | halfAway =>
      simp only at hn3 hk3
      have h3 : |r| < |((k + 1 : ℤ) : ℚ)| := h ▸ hn3
      rw [e] at h3 hk3
      push_cast at h3
      rcases le_or_gt 0 (k : ℚ) with h0 | h0
      · rw [abs_of_nonneg (by linarith), abs_of_nonneg h0] at hk3
        linarith
      · have : (k : ℚ) + 1 ≤ 0 := by
          have : k + 1 ≤ 0 := by exact_mod_cast h0
          exact_mod_cast this
        rw [abs_of_nonpos (by linarith), abs_of_nonpos this] at h3
        linarith
  · exfalso
    have e : r = n + 1 / 2 := by
      have : (k : ℚ) = n + 1 := by exact_mod_cast h
      linarith
    have hk3 := hk2 (by rw [e, h]; push_cast; norm_num [abs_of_neg])
    have hn3 := hn2 (by rw [e]; norm_num [abs_of_pos])
    cases m with
    | halfEven =>
      simp only at hn3 hk3
      rw [Int.even_iff] at hn3 hk3
      omega
    | halfAway =>
      simp only at hn3 hk3
      have h3 : |r| < |((n + 1 : ℤ) : ℚ)| := h ▸ hk3
      rw [e] at h3 hn3
      push_cast at h3
      rcases le_or_gt 0 (n : ℚ) with h0 | h0
      · rw [abs_of_nonneg (by linarith), abs_of_nonneg h0] at hn3
        linarith
      · have : (n : ℚ) + 1 ≤ 0 := by
          have : n + 1 ≤ 0 := by exact_mod_cast h0
          exact_mod_cast this
        rw [abs_of_nonpos (by linarith), abs_of_nonpos this] at h3
        linarith

theorem isRoundInt_intCast (m : RoundMode) (n : ℤ) : IsRoundInt m (n : ℚ) n := by
  refine ⟨by simp, fun h => ?_⟩
  norm_num at h

/-- A scaled comparison: `|n/2^(e+1) - r|` against one half, by integers. -/
theorem abs_div_sub_le_half {n r : ℤ} {e : Nat} :
    |(n : ℚ) / 2 ^ (e + 1) - r| ≤ 1 / 2 ↔ -(2 ^ e) ≤ n - r * 2 ^ (e + 1) ∧ n - r * 2 ^ (e + 1) ≤ 2 ^ e := by
  have hp : (0 : ℚ) < 2 ^ (e + 1) := by positivity
  have e1 : (n : ℚ) / 2 ^ (e + 1) - r = ((n - r * 2 ^ (e + 1) : ℤ) : ℚ) / 2 ^ (e + 1) := by
    push_cast
    field_simp
  have e2 : (1 : ℚ) / 2 = ((2 ^ e : ℤ) : ℚ) / 2 ^ (e + 1) := by
    push_cast
    field_simp
    ring
  rw [e1, e2, abs_le, ← neg_div, div_le_div_iff_of_pos_right hp, div_le_div_iff_of_pos_right hp]
  norm_cast

theorem abs_div_sub_eq_half {n r : ℤ} {e : Nat} :
    |(n : ℚ) / 2 ^ (e + 1) - r| = 1 / 2 ↔ n - r * 2 ^ (e + 1) = 2 ^ e ∨ n - r * 2 ^ (e + 1) = -2 ^ e := by
  have hp : (2 : ℚ) ^ (e + 1) ≠ 0 := by positivity
  have e1 : (n : ℚ) / 2 ^ (e + 1) - r = ((n - r * 2 ^ (e + 1) : ℤ) : ℚ) / 2 ^ (e + 1) := by
    push_cast
    field_simp
  have e2 : (1 : ℚ) / 2 = ((2 ^ e : ℤ) : ℚ) / 2 ^ (e + 1) := by
    push_cast
    field_simp
    ring
  rw [e1, e2, abs_eq (by positivity), ← neg_div, div_left_inj' hp, div_left_inj' hp]
  norm_cast

/-- `roundInt m n d` is `RoundInt(n / 2^d)` as R10 words it. -/
theorem roundInt_spec (m : RoundMode) (n : Int) (d : Nat) : IsRoundInt m ((n : ℚ) / 2 ^ d) (roundInt m n d) := by
  cases d with
  | zero => simpa [roundInt] using isRoundInt_intCast m n
  | succ e =>
    have hH : (0 : Int) < 2 ^ e := by positivity
    have hP : (2 : Int) ^ (e + 1) = 2 * 2 ^ e := by ring
    refine ⟨?_, ?_⟩
    · rw [abs_div_sub_le_half]
      cases m with
      | halfAway =>
        simp only [roundInt, Int.shiftRight_eq_div_pow, pow2_eq, sgnp]
        push_cast
        have h1 := Int.emod_add_mul_ediv (|n| + 2 ^ e) (2 ^ (e + 1))
        have h2 := Int.emod_nonneg (|n| + 2 ^ e) (b := 2 ^ (e + 1)) (by positivity)
        have h3 := Int.emod_lt_of_pos (|n| + 2 ^ e) (b := 2 ^ (e + 1)) (by positivity)
        split
        · rename_i h
          rw [abs_of_nonneg (by simpa using h)] at *
          rw [mul_comm] at h1
          omega
        · rename_i h
          rw [abs_of_neg (by simpa using h)] at *
          rw [mul_comm] at h1
          rw [neg_mul]
          omega
      | halfEven =>
        simp only [roundInt, Int.shiftRight_eq_div_pow, pow2_eq]
        push_cast
        have h1 := Int.emod_add_mul_ediv n (2 ^ (e + 1))
        have h2 := Int.emod_nonneg n (b := 2 ^ (e + 1)) (by positivity)
        have h3 := Int.emod_lt_of_pos n (b := 2 ^ (e + 1)) (by positivity)
        rw [mul_comm] at h1
        split
        · rw [add_mul]
          omega
        · omega
    · rw [abs_div_sub_eq_half]
      cases m with
      | halfAway =>
        simp only [roundInt, Int.shiftRight_eq_div_pow, pow2_eq, sgnp]
        push_cast
        have h1 := Int.emod_add_mul_ediv (|n| + 2 ^ e) (2 ^ (e + 1))
        have h2 := Int.emod_nonneg (|n| + 2 ^ e) (b := 2 ^ (e + 1)) (by positivity)
        have h3 := Int.emod_lt_of_pos (|n| + 2 ^ e) (b := 2 ^ (e + 1)) (by positivity)
        intro ht
        have hPq : (0 : ℚ) < 2 ^ (e + 1) := by positivity
        by_cases h : 0 ≤ n
        · simp only [h, decide_true, if_true] at ht ⊢
          rw [abs_of_nonneg h] at *
          rw [mul_comm] at h1
          set q := (n + 2 ^ e) / 2 ^ (e + 1)
          have hq : n < q * 2 ^ (e + 1) := by omega
          have hq' : (n : ℚ) / 2 ^ (e + 1) < q := by
            rw [div_lt_iff₀ hPq]
            exact_mod_cast hq
          have h0 : (0 : ℚ) ≤ (n : ℚ) / 2 ^ (e + 1) := by
            have : (0 : ℚ) ≤ n := by exact_mod_cast h
            positivity
          rw [abs_of_nonneg h0, abs_of_nonneg (h0.trans hq'.le)]
          exact hq'
        · simp only [h, decide_false, Bool.false_eq_true, if_false] at ht ⊢
          have hn : n < 0 := by omega
          rw [abs_of_neg hn] at *
          rw [mul_comm] at h1
          set q := (-n + 2 ^ e) / 2 ^ (e + 1)
          rw [neg_mul] at ht
          have hq : -n < q * 2 ^ (e + 1) := by omega
          have hq' : -((n : ℚ) / 2 ^ (e + 1)) < q := by
            rw [← neg_div, div_lt_iff₀ hPq]
            exact_mod_cast hq
          have h0 : (n : ℚ) / 2 ^ (e + 1) < 0 := by
            have : (n : ℚ) < 0 := by exact_mod_cast hn
            exact div_neg_of_neg_of_pos this hPq
          rw [abs_of_neg h0, abs_neg, abs_of_pos (by linarith)]
          exact hq'
      | halfEven =>
        simp only [roundInt, Int.shiftRight_eq_div_pow, pow2_eq]
        push_cast
        have h1 := Int.emod_add_mul_ediv n (2 ^ (e + 1))
        have h2 := Int.emod_nonneg n (b := 2 ^ (e + 1)) (by positivity)
        have h3 := Int.emod_lt_of_pos n (b := 2 ^ (e + 1)) (by positivity)
        rw [mul_comm] at h1
        set q := n / 2 ^ (e + 1)
        rw [Int.even_iff]
        split
        · rw [add_mul]
          omega
        · omega

theorem roundInt_eq_iff (m : RoundMode) (n : Int) (d : Nat) (r : Int) :
    roundInt m n d = r ↔ IsRoundInt m ((n : ℚ) / 2 ^ d) r :=
  ⟨fun h => h ▸ roundInt_spec m n d, fun h => isRoundInt_unique (roundInt_spec m n d) h⟩

/-! ### Dyadics -/

theorem Dyad.toRat_reduce (n : Int) (e : Nat) : (Dyad.reduce n e).toRat = (n : ℚ) / 2 ^ e := by
  induction e generalizing n with
  | zero => rfl
  | succ e ih =>
    rw [Dyad.reduce]
    split
    · rename_i h
      obtain ⟨k, rfl⟩ := Int.dvd_of_emod_eq_zero h
      rw [ih, Int.mul_ediv_cancel_left k (by norm_num)]
      push_cast
      field_simp
      ring
    · rfl

theorem Dyad.toRat_eq_zero_iff (a : Dyad) : a.toRat = 0 ↔ a.num = 0 := by
  simp [Dyad.toRat]

theorem Dyad.toRat_nonneg_iff (a : Dyad) : 0 ≤ a.toRat ↔ 0 ≤ a.num := by
  have : (0 : ℚ) < 2 ^ a.exp := by positivity
  rw [Dyad.toRat, le_div_iff₀ this, zero_mul]
  exact_mod_cast Iff.rfl

@[simp] theorem Dyad.toRat_add (a b : Dyad) : (a.add b).toRat = a.toRat + b.toRat := by
  have key : ∀ x y : Dyad, (x.num : ℚ) / 2 ^ x.exp = x.num * 2 ^ (max x.exp y.exp - x.exp) / 2 ^ max x.exp y.exp := by
    intro x y
    obtain ⟨k, hk⟩ := Nat.exists_eq_add_of_le (le_max_left x.exp y.exp)
    rw [hk, Nat.add_sub_cancel_left, pow_add]
    field_simp
  have ha := key a b
  have hb := key b a
  rw [max_comm b.exp a.exp] at hb
  rw [Dyad.add, Dyad.toRat_reduce, Dyad.toRat, Dyad.toRat, ha, hb]
  simp only [pow2_eq]
  push_cast
  ring

@[simp] theorem Dyad.toRat_neg (a : Dyad) : a.neg.toRat = -a.toRat := by
  simp [Dyad.neg, Dyad.toRat, neg_div]

@[simp] theorem Dyad.toRat_sub (a b : Dyad) : (a.sub b).toRat = a.toRat - b.toRat := by
  simp [Dyad.sub, sub_eq_add_neg]

@[simp] theorem Dyad.toRat_scale (n : Int) (a : Dyad) : (a.scale n).toRat = n * a.toRat := by
  rw [Dyad.scale, Dyad.toRat_reduce, Dyad.toRat]
  push_cast
  ring

@[simp] theorem Dyad.toRat_shr (a : Dyad) (i : Nat) : (a.shr i).toRat = a.toRat / 2 ^ i := by
  rw [Dyad.shr, Dyad.toRat_reduce, Dyad.toRat, pow_add, div_div]

@[simp] theorem Dyad.toRat_abs (a : Dyad) : a.abs.toRat = |a.toRat| := by
  simp [Dyad.abs, Dyad.toRat, abs_div]

@[simp] theorem Dyad.toRat_ofRom (w : Nat) : (Dyad.ofRom w).toRat = w / 2 ^ 64 := by
  simp [Dyad.ofRom, Dyad.toRat_reduce, romFrac]

theorem Dyad.le_iff (a b : Dyad) : a.le b = true ↔ a.toRat ≤ b.toRat := by
  have ha : (0 : ℚ) < 2 ^ a.exp := by positivity
  have hb : (0 : ℚ) < 2 ^ b.exp := by positivity
  rw [Dyad.le, decide_eq_true_iff, Dyad.toRat, Dyad.toRat, div_le_div_iff₀ ha hb, pow2_eq, pow2_eq]
  exact_mod_cast Iff.rfl

@[simp] theorem Fmt.toRat_val (f : Fmt) (n : Int) : (f.val n).toRat = n / 2 ^ f.fracBits := rfl

@[simp] theorem hv_toRat (h : Word) : (hv h).toRat = hvRat h := by
  simp [hv, Dyad.toRat_reduce, hvRat, hvFrac]

theorem hv_num_eq_zero_iff (h : Word) : (hv h).num = 0 ↔ h = 0 := by
  rw [← Dyad.toRat_eq_zero_iff, hv_toRat, hvRat, div_eq_zero_iff]
  simp only [Int.cast_eq_zero, pow_eq_zero_iff, OfNat.ofNat_ne_zero, or_false, ne_eq, not_false_eq_true]
  rw [← BitVec.toInt_zero (w := 64), BitVec.toInt_inj]
  rfl

@[simp] theorem scaledSeed_toRat (kw : Nat) (h : Word) : (scaledSeed kw h).toRat = kw / 2 ^ 64 * hvRat h := by
  simp only [scaledSeed, Dyad.toRat, hvRat, romFrac, hvFrac]
  push_cast
  field_simp

/-! ### Quantize and Enc -/

theorem roundTo_spec (m : RoundMode) (v : Dyad) (f : Fmt) : IsRoundInt m (v.toRat * 2 ^ f.fracBits) (roundTo m v f) := by
  have h := roundInt_spec m (v.num * pow2 f.fracBits) v.exp
  have e : ((v.num * pow2 f.fracBits : Int) : ℚ) / 2 ^ v.exp = v.toRat * 2 ^ f.fracBits := by
    rw [Dyad.toRat, pow2_eq]
    push_cast
    ring
  rwa [e] at h

theorem roundTo_eq {m : RoundMode} {v : Dyad} {f : Fmt} {r : Int} (h : IsRoundInt m (v.toRat * 2 ^ f.fracBits) r) :
    roundTo m v f = r := isRoundInt_unique (roundTo_spec m v f) h

theorem roundTo_val (m : RoundMode) (f : Fmt) (n : Int) : roundTo m (f.val n) f = n := by
  apply roundTo_eq
  have e : (f.val n).toRat * 2 ^ f.fracBits = n := by
    rw [Fmt.toRat_val]
    field_simp
  exact e ▸ isRoundInt_intCast m n

theorem quantize_eq {m : RoundMode} {v : Dyad} {f : Fmt} {r : Int} (h : IsRoundInt m (v.toRat * 2 ^ f.fracBits) r) :
    quantize m v f = f.sat r := by
  rw [quantize, roundTo_eq h, Fmt.clamp_eq_sat]

theorem quantize_val (m : RoundMode) {f : Fmt} {n : Int} (h : f.holds n) : quantize m (f.val n) f = n := by
  rw [quantize, roundTo_val, Fmt.clamp_eq_sat, Fmt.sat_of_holds h]

theorem quantize_holds (m : RoundMode) (v : Dyad) (f : Fmt) : f.holds (quantize m v f) := f.clamp_holds _

theorem requantize_self (m : RoundMode) {f : Fmt} {n : Int} (h : f.holds n) : requantize m n f f = n := quantize_val m h

theorem enc_eq_ok_iff (m : RoundMode) (v : Dyad) (f : Fmt) (s : RangeSubject) (n : Int) :
    enc m v f s = .ok n ↔ roundTo m v f = n ∧ f.holds n := by
  unfold enc Fmt.holds
  rw [Fmt.nmin_eq, Fmt.nmax_eq]
  split
  · constructor
    · simp
    · rintro ⟨rfl, h⟩
      omega
  · split
    · constructor
      · simp
      · rintro ⟨rfl, h⟩
        omega
    · constructor
      · intro h
        injection h with h
        omega
      · rintro ⟨rfl, -⟩
        rfl

theorem enc_val (m : RoundMode) {f : Fmt} {n : Int} (s : RangeSubject) (h : f.holds n) : enc m (f.val n) f s = .ok n :=
  (enc_eq_ok_iff ..).2 ⟨roundTo_val m f n, h⟩

theorem enc_of_isEnc {m : RoundMode} {v : Dyad} {q : ℚ} {f : Fmt} {n : Int} (s : RangeSubject) (hq : v.toRat = q)
    (h : IsEnc m q f n) : enc m v f s = .ok n :=
  (enc_eq_ok_iff ..).2 ⟨roundTo_eq (hq ▸ h.1), h.2⟩

/-! ### Two's complement -/

theorem flipBits_eq {f : Fmt} {n : Int} (hf : f.valid) (h : f.holds n) : flipBits f.totalBits n = -n - 1 := by
  obtain ⟨h1, -, -⟩ := hf
  obtain ⟨k, hk⟩ : ∃ k, f.totalBits = k + 1 := ⟨f.totalBits - 1, by omega⟩
  have hP : (2 : Int) ^ (k + 1) = 2 * 2 ^ k := by ring
  simp only [Fmt.holds, hk, Nat.add_sub_cancel] at h
  simp only [flipBits, sextOf, bitsOf, pow2_eq, hk, Nat.add_sub_cancel]
  rcases le_or_gt 0 n with h0 | h0
  · rw [Int.emod_eq_of_lt h0 (by omega)]
    split <;> omega
  · rw [← Int.add_emod_right, Int.emod_eq_of_lt (by omega) (by omega)]
    split <;> omega

theorem negF_holds {f : Fmt} {n : Int} (h : f.holds n) : f.holds (-n - 1) := by
  simp only [Fmt.holds] at *
  omega

theorem asr_holds {f : Fmt} {n : Int} (k : Nat) (h : f.holds n) : f.holds (asr n k) := by
  simp only [Fmt.holds] at *
  rw [asr_eq_div]
  have hk : (1 : Int) ≤ 2 ^ k := one_le_pow₀ (by norm_num)
  have hH : (0 : Int) < 2 ^ (f.totalBits - 1) := by positivity
  constructor
  · rw [Int.le_ediv_iff_mul_le (by omega)]
    nlinarith
  · rcases le_or_gt 0 n with h0 | h0
    · exact (Int.ediv_le_self _ h0).trans h.2
    · have := Int.ediv_neg_of_neg_of_pos h0 (show (0 : Int) < 2 ^ k by omega)
      omega

end Sys2Proof.Machine
end

