-- ==== Sys2Proof/Laws/Ops.lean ====
section
/-!
SUPPORT. Laws/Ops.lean: for each shared operation what it can answer, said once: the checks, command issue, the end of an engine
step, an engine step, and a step of the machine.
-/

namespace Sys2Proof.Machine

/-! ### Checks -/

theorem firstFailure_append (a b : List (Bool × Cause)) :
    firstFailure (a ++ b) = match firstFailure a with | none => firstFailure b | some c => some c := by
  induction a with
  | nil => rfl
  | cons x xs ih =>
    obtain ⟨v, c⟩ := x
    cases v
    · simpa [firstFailure] using ih
    · simp [firstFailure]

/-- The format check is the list of checks R226 names. -/
theorem checkFmt_eq (name : FmtName) (r : FmtReg) :
    checkFmt name r = match firstFailure (fmtChecks name r) with | none => .ok r.fmt | some c => .error c := by
  simp only [checkFmt, fmtChecks, FmtReg.fmt, wMax]
  by_cases h1 : r.w.toNat = 0 ∨ 32 < r.w.toNat
  · simp [h1, firstFailure]
  · by_cases h2 : r.w.toNat ≤ r.f.toNat <;> simp [h1, h2, firstFailure]

theorem checkFmt_ok_iff (name : FmtName) (r : FmtReg) (f : Fmt) : checkFmt name r = .ok f ↔ f = r.fmt ∧ r.fmt.valid := by
  have hw : wMax = 32 := rfl
  simp only [checkFmt, Fmt.valid]
  split
  · constructor
    · intro h
      cases h
    · rintro ⟨-, h⟩
      omega
  · split
    · constructor
      · intro h
        cases h
      · rintro ⟨-, h⟩
        omega
    · constructor
      · intro h
        cases h
        exact ⟨rfl, by omega, by omega, by omega⟩
      · rintro ⟨rfl, -⟩
        rfl

theorem checkFmt_of_valid {name : FmtName} {r : FmtReg} (h : r.fmt.valid) : checkFmt name r = .ok r.fmt :=
  (checkFmt_ok_iff ..).2 ⟨rfl, h⟩

theorem firstFailure_fmtChecks_eq_none_iff (name : FmtName) (r : FmtReg) :
    firstFailure (fmtChecks name r) = none ↔ r.fmt.valid := by
  have h := checkFmt_eq name r
  constructor
  · intro h0
    rw [h0] at h
    exact ((checkFmt_ok_iff ..).1 h).2
  · intro hv
    rw [checkFmt_of_valid hv] at h
    split at h
    · assumption
    · cases h

/-- The budget check is the list of checks R225 names at step 5. -/
theorem checkIter_eq (n : Nat) :
    checkIter n = match firstFailure (iterChecks n) with | none => .ok () | some c => .error c := by
  simp only [checkIter, iterChecks, iterMax]
  by_cases h1 : n = 0
  · simp [h1, firstFailure]
  · by_cases h2 : 64 < n <;> simp [h1, h2, firstFailure]

theorem checkIter_of_legal {n : Nat} (h1 : 1 ≤ n) (h2 : n ≤ 64) : checkIter n = .ok () := by
  have hm : iterMax = 64 := rfl
  rw [checkIter, if_neg (by omega), if_neg (by omega)]

theorem checkIter_ok_iff (n : Nat) (u : Unit) : checkIter n = .ok u ↔ 1 ≤ n ∧ n ≤ 64 := by
  constructor
  · intro h
    have hm : iterMax = 64 := rfl
    rw [checkIter] at h
    split at h
    · cases h
    · split at h
      · cases h
      · omega
  · rintro ⟨h1, h2⟩
    exact checkIter_of_legal h1 h2

/-- Enc is the list of its two checks. -/
theorem enc_eq (m : RoundMode) (v : Dyad) (f : Fmt) (s : RangeSubject) :
    enc m v f s = match firstFailure (encChecks m v f s) with | none => .ok (roundTo m v f) | some c => .error c := by
  simp only [enc, encChecks]
  by_cases h1 : f.nmax < roundTo m v f
  · simp [h1, firstFailure]
  · by_cases h2 : roundTo m v f < f.nmin <;> simp [h1, h2, firstFailure]

/-! ### Command issue -/

/-- An error at issue leaves the state R221 and R102 describe. -/
theorem State.raise_beginIssue (op : BitVec 4) (sem : Bool) (c : Cause) (s : State) :
    (s.beginIssue op sem).raise c = s.refused op sem c := rfl

theorem State.accept_beginIssue (op : BitVec 4) (sem : Bool) (e : Engine) (s : State) :
    (s.beginIssue op sem).accept e = s.accepted op sem { e with k := 0 } := rfl

theorem State.finishPrimitive_beginIssue (op : BitVec 4) (n : Int) (inA inB out : Word) (s : State) :
    (s.beginIssue op false).finishPrimitive (resWord n) inA inB out = s.completed op n inA inB out := rfl

theorem issue_of_running {s : State} (h : s.running = true) (op : BitVec 4) (sem : Bool) (body : State → Except Cause State) :
    issue op sem body s = .next s.dropCommand := by
  simp [issue, h]

theorem issue_of_ok {s t : State} {op : BitVec 4} {sem : Bool} {body : State → Except Cause State} (h : s.running = false)
    (hb : body (s.beginIssue op sem) = .ok t) : issue op sem body s = .next t := by
  simp [issue, h, hb]

theorem issue_of_error {s : State} {c : Cause} {op : BitVec 4} {sem : Bool} {body : State → Except Cause State}
    (h : s.running = false) (hb : body (s.beginIssue op sem) = .error c) :
    issue op sem body s = .next (s.refused op sem c) := by
  simp [issue, h, hb, State.raise_beginIssue]

/-- Everything an issue can answer. -/
theorem issue_cases (op : BitVec 4) (sem : Bool) (body : State → Except Cause State) (s : State) :
    (s.running = true ∧ issue op sem body s = .next s.dropCommand) ∨
    (s.running = false ∧ ∃ t, body (s.beginIssue op sem) = .ok t ∧ issue op sem body s = .next t) ∨
    (s.running = false ∧ ∃ c, body (s.beginIssue op sem) = .error c ∧ issue op sem body s = .next (s.refused op sem c)) := by
  cases h : s.running
  · cases hb : body (s.beginIssue op sem) with
    | ok t => exact .inr (.inl ⟨rfl, t, rfl, issue_of_ok h hb⟩)
    | error c => exact .inr (.inr ⟨rfl, c, rfl, issue_of_error h hb⟩)
  · exact .inl ⟨rfl, issue_of_running h ..⟩

/-- An approximate engine command that passes its checks. -/
theorem issueApprox_of_seed {op : EngineOp} {ee : Bool} {n : Nat} {seed : State → Fmt → Fmt → Engine → Except Cause Engine}
    {s : State} {e : Engine} (h : s.running = false) (hp : s.ins.fmtXy.fmt.valid) (hz : s.ins.fmtZ.fmt.valid) (h1 : 1 ≤ n)
    (h2 : n ≤ 64)
    (hs : seed (s.beginIssue op.code false) s.ins.fmtXy.fmt s.ins.fmtZ.fmt
      { s.eng with latch := ⟨op, .approx, ee, n, s.ins.fmtXy.fmt, s.ins.fmtZ.fmt, hv s.ins.opD⟩ } = .ok e) :
    issueApprox op ee n seed s = .next (s.accepted op.code false { e with k := 0 }) := by
  apply issue_of_ok h
  simp only [State.beginIssue_ins, State.beginIssue_eng, checkFmt_of_valid hp, checkFmt_of_valid hz, checkIter_of_legal h1 h2]
  simp only [bind, Except.bind, hs, State.accept_beginIssue]

/-- An ideal engine command that passes its checks. -/
theorem issueIdeal_of_seed {op : EngineOp} {ee : Bool} {n : Nat} {seed : State → Engine → Except Cause Engine} {s : State}
    {e : Engine} (h : s.running = false) (h1 : 1 ≤ n) (h2 : n ≤ 64)
    (hs : seed (s.beginIssue op.code true)
      { s.eng with latch := { s.eng.latch with op := op, sem := .ideal, ee := ee, n := n, eps := hv s.ins.opD } } = .ok e) :
    issueIdeal op ee n seed s = .next (s.accepted op.code true { e with k := 0 }) := by
  apply issue_of_ok h
  simp only [State.beginIssue_ins, State.beginIssue_eng, checkIter_of_legal h1 h2]
  simp only [bind, Except.bind, hs, State.accept_beginIssue]

/-- A sequence of checks and computations passes exactly where each part does. -/
theorem except_bind_eq_ok {ε α β : Type} {x : Except ε α} {f : α → Except ε β} {b : β} :
    (x >>= f) = .ok b ↔ ∃ a, x = .ok a ∧ f a = .ok b := by
  cases x <;> simp [bind, Except.bind]

/-- Everything the issue of an approximate engine command can answer. -/
theorem issueApprox_cases (op : EngineOp) (ee : Bool) (n : Nat) (seed : State → Fmt → Fmt → Engine → Except Cause Engine)
    (s : State) :
    (s.running = true ∧ issueApprox op ee n seed s = .next s.dropCommand) ∨
    (s.running = false ∧ ∃ c, issueApprox op ee n seed s = .next (s.refused op.code false c)) ∨
    (s.running = false ∧ s.ins.fmtXy.fmt.valid ∧ s.ins.fmtZ.fmt.valid ∧ 1 ≤ n ∧ n ≤ 64 ∧
      ∃ e, seed (s.beginIssue op.code false) s.ins.fmtXy.fmt s.ins.fmtZ.fmt
          { s.eng with latch := ⟨op, .approx, ee, n, s.ins.fmtXy.fmt, s.ins.fmtZ.fmt, hv s.ins.opD⟩ } = .ok e ∧
        issueApprox op ee n seed s = .next (s.accepted op.code false { e with k := 0 })) := by
  unfold issueApprox
  obtain ⟨h, h'⟩ | ⟨h, t, hb, h'⟩ | ⟨h, c, hb, h'⟩ := issue_cases op.code false _ s
  · exact .inl ⟨h, h'⟩
  · simp only [except_bind_eq_ok, checkFmt_ok_iff, checkIter_ok_iff, State.beginIssue_ins, State.beginIssue_eng] at hb
    obtain ⟨p, ⟨rfl, hp⟩, z, ⟨rfl, hz⟩, -, ⟨h1, h2⟩, e, hs, ht⟩ := hb
    cases ht
    exact .inr (.inr ⟨h, hp, hz, h1, h2, e, hs, h'⟩)
  · exact .inr (.inl ⟨h, c, h'⟩)

/-- Everything the issue of an ideal engine command can answer. -/
theorem issueIdeal_cases (op : EngineOp) (ee : Bool) (n : Nat) (seed : State → Engine → Except Cause Engine) (s : State) :
    (s.running = true ∧ issueIdeal op ee n seed s = .next s.dropCommand) ∨
    (s.running = false ∧ ∃ c, issueIdeal op ee n seed s = .next (s.refused op.code true c)) ∨
    (s.running = false ∧ 1 ≤ n ∧ n ≤ 64 ∧
      ∃ e, seed (s.beginIssue op.code true)
          { s.eng with latch := { s.eng.latch with op := op, sem := .ideal, ee := ee, n := n, eps := hv s.ins.opD } } = .ok e ∧
        issueIdeal op ee n seed s = .next (s.accepted op.code true { e with k := 0 })) := by
  unfold issueIdeal
  obtain ⟨h, h'⟩ | ⟨h, t, hb, h'⟩ | ⟨h, c, hb, h'⟩ := issue_cases op.code true _ s
  · exact .inl ⟨h, h'⟩
  · simp only [except_bind_eq_ok, checkIter_ok_iff, State.beginIssue_ins, State.beginIssue_eng] at hb
    obtain ⟨-, ⟨h1, h2⟩, e, hs, ht⟩ := hb
    cases ht
    exact .inr (.inr ⟨h, h1, h2, e, hs, h'⟩)
  · exact .inr (.inl ⟨h, c, h'⟩)

/-- Everything the issue of a primitive can answer. -/
theorem exec_primitive_cases {i : Instr} (hi : isPrimitive i = true) (s : State) :
    (s.running = true ∧ exec i s = .next s.dropCommand) ∨
    (s.running = false ∧ ∃ c, exec i s = .next (s.refused (instrOp i) (instrSem i) c)) ∨
    (s.running = false ∧ ∃ n inA inB out, exec i s = .next (s.completed (instrOp i) n inA inB out)) := by
  cases i <;> first | (exfalso; revert hi; simp [isPrimitive, instrOp]; done) | skip
  all_goals
    simp only [exec, execQuant, execNeg, execAdd, execShr, instrOp, instrSem]
    obtain ⟨h, h'⟩ | ⟨h, t, hb, h'⟩ | ⟨h, c, hb, h'⟩ := issue_cases _ false _ s
    · exact .inl ⟨h, h'⟩
    · simp only [except_bind_eq_ok] at hb
      refine .inr (.inr ⟨h, ?_⟩)
      first
      | obtain ⟨_, _, ht⟩ := hb; cases ht; exact ⟨_, _, _, _, h'⟩
      | obtain ⟨_, _, _, _, ht⟩ := hb; cases ht; exact ⟨_, _, _, _, h'⟩
      | obtain ⟨_, _, _, _, _, _, ht⟩ := hb; cases ht; exact ⟨_, _, _, _, h'⟩
    · exact .inr (.inl ⟨h, c, h'⟩)

/-- Everything the issue of an engine command can answer. -/
theorem exec_engine_cases {i : Instr} (hi : isPrimitive i = false) (s : State) :
    (s.running = true ∧ exec i s = .next s.dropCommand) ∨
    (s.running = false ∧ ∃ c, exec i s = .next (s.refused (instrOp i) (instrSem i) c)) ∨
    (s.running = false ∧ ∃ e : Engine, e.k = 0 ∧ exec i s = .next (s.accepted (instrOp i) (instrSem i) e)) := by
  cases i <;> first | (exfalso; revert hi; simp [isPrimitive, instrOp]; done) | skip
  all_goals
    simp only [exec, execRotCircA, execRotCircI, execVecCircA, execVecCircI, execRotHypA, execRotHypI, execDivLinA, execDivLinI,
      execRotFastA, execRotFastI, instrOp, instrSem]
    first
    | obtain ⟨h, h'⟩ | ⟨h, c, h'⟩ | ⟨h, -, -, -, -, e, -, h'⟩ := issueApprox_cases _ _ _ _ s
      exacts [.inl ⟨h, h'⟩, .inr (.inl ⟨h, c, h'⟩), .inr (.inr ⟨h, _, rfl, h'⟩)]
    | obtain ⟨h, h'⟩ | ⟨h, c, h'⟩ | ⟨h, -, -, e, -, h'⟩ := issueIdeal_cases _ _ _ _ s
      exacts [.inl ⟨h, h'⟩, .inr (.inl ⟨h, c, h'⟩), .inr (.inr ⟨h, _, rfl, h'⟩)]

/-- Every command's meaning is an issue of its OP and SEM (R102). -/
theorem exec_eq_issue (i : Instr) (s : State) : ∃ body, exec i s = issue (instrOp i) (instrSem i) body s := by
  cases i <;> simp only [exec, execQuant, execNeg, execAdd, execShr, execRotCircA, execRotCircI, execVecCircA, execVecCircI,
    execRotHypA, execRotHypI, execDivLinA, execDivLinI, execRotFastA, execRotFastI, issueApprox, issueIdeal, instrOp, instrSem,
    EngineOp.code] <;> exact ⟨_, rfl⟩

/-- Every command answers a next state. -/
theorem exec_next (i : Instr) (s : State) : ∃ t, exec i s = .next t := by
  obtain ⟨body, hb⟩ := exec_eq_issue i s
  rw [hb]
  obtain ⟨-, h⟩ | ⟨-, t, -, h⟩ | ⟨-, c, -, h⟩ := issue_cases (instrOp i) (instrSem i) body s <;> exact ⟨_, h⟩

/-- A command or any other word written to CMD while RUNNING is dropped (R101). -/
theorem exec_of_running {s : State} (h : s.running = true) (i : Instr) : exec i s = .next s.dropCommand := by
  obtain ⟨body, hb⟩ := exec_eq_issue i s
  rw [hb, issue_of_running h]

theorem writeCmd_of_running {s : State} (h : s.running = true) (c : Word) : writeCmd c s = .next s.dropCommand := by
  unfold writeCmd
  split
  · exact exec_of_running h _
  · exact issue_of_running h ..

/-! ### Host register access -/

theorem InRegs.write_of_other {a : Addr} (h : a.toNat < 2 ∨ 9 < a.toNat) (w : Word) (r : InRegs) : r.write a w = r := by
  unfold InRegs.write
  split <;> first | rfl | omega

/-! ### The engine -/

/-- The state before the two tests that end an engine step. -/
def State.counted (e : Engine) (s : State) : State :=
  (s.setEng { e with k := e.k + 1 }).setStatus { s.status with iters := BitVec.ofNat 7 (e.k + 1) }

/-- Everything the end of an engine step can answer (R105). -/
theorem State.advance_cases (e : Engine) (s : State) :
    (e.latch.ee = true ∧ converged e = true ∧ s.advance e = (s.counted e).terminate .convergedEarly) ∨
    (¬(e.latch.ee = true ∧ converged e = true) ∧ e.k + 1 = e.latch.n ∧ s.advance e = (s.counted e).terminate .exhausted) ∨
    (¬(e.latch.ee = true ∧ converged e = true) ∧ e.k + 1 ≠ e.latch.n ∧ s.advance e = s.counted e) := by
  by_cases h1 : e.latch.ee = true ∧ converged e = true
  · exact .inl ⟨h1.1, h1.2, by simp [State.advance, State.counted, h1.1, h1.2]⟩
  · have h1' : (e.latch.ee && converged e) = false := by
      rw [Bool.and_eq_false_iff]
      by_contra h
      push Not at h
      exact h1 (by simpa using h)
    by_cases h2 : e.k + 1 = e.latch.n
    · refine .inr (.inl ⟨h1, h2, ?_⟩)
      simp only [State.advance, h1', h2, State.counted]
      rfl
    · refine .inr (.inr ⟨h1, h2, ?_⟩)
      simp only [State.advance, h1', State.counted, if_neg h2]
      rfl

theorem State.advance_eng (e : Engine) (s : State) : (s.advance e).eng = { e with k := e.k + 1 } := by
  obtain ⟨-, -, h⟩ | ⟨-, -, h⟩ | ⟨-, -, h⟩ := State.advance_cases e s <;> rw [h] <;> rfl

theorem State.advance_params (e : Engine) (s : State) : (s.advance e).params = s.params := by
  obtain ⟨-, -, h⟩ | ⟨-, -, h⟩ | ⟨-, -, h⟩ := State.advance_cases e s <;> rw [h] <;> rfl

theorem State.advance_ins (e : Engine) (s : State) : (s.advance e).ins = s.ins := by
  obtain ⟨-, -, h⟩ | ⟨-, -, h⟩ | ⟨-, -, h⟩ := State.advance_cases e s <;> rw [h] <;> rfl

theorem State.advance_pending (e : Engine) (s : State) : (s.advance e).pending = s.pending := by
  obtain ⟨-, -, h⟩ | ⟨-, -, h⟩ | ⟨-, -, h⟩ := State.advance_cases e s <;> rw [h] <;> rfl

theorem State.advance_readData (e : Engine) (s : State) : (s.advance e).readData = s.readData := by
  obtain ⟨-, -, h⟩ | ⟨-, -, h⟩ | ⟨-, -, h⟩ := State.advance_cases e s <;> rw [h] <;> rfl

/-- STATUS after the end of an engine step: only ITERS and STATE change. -/
theorem State.advance_status (e : Engine) (s : State) : (s.advance e).status =
    { s.status with
      iters := BitVec.ofNat 7 (e.k + 1)
      state := if e.latch.ee = true ∧ converged e = true then .convergedEarly
        else if e.k + 1 = e.latch.n then .exhausted else s.status.state } := by
  obtain ⟨h1, h2, h⟩ | ⟨h1, h2, h⟩ | ⟨h1, h2, h⟩ := State.advance_cases e s
  · rw [h, if_pos ⟨h1, h2⟩]
    rfl
  · rw [h, if_neg h1, if_pos h2]
    rfl
  · rw [h, if_neg h1, if_neg h2]
    rfl

/-- The results after the end of an engine step: written exactly where the command ends (R106, R244). -/
theorem State.advance_outs (e : Engine) (s : State) : (s.advance e).outs =
    if (e.latch.ee = true ∧ converged e = true) ∨ e.k + 1 = e.latch.n then
      { s.outs with rx := resultX s.params.hypGainRule { e with k := e.k + 1 },
                    ry := resultY s.params.hypGainRule { e with k := e.k + 1 }, rz := resultZ { e with k := e.k + 1 } }
    else s.outs := by
  obtain ⟨h1, h2, h⟩ | ⟨h1, h2, h⟩ | ⟨h1, h2, h⟩ := State.advance_cases e s
  · rw [h, if_pos (.inl ⟨h1, h2⟩)]
    rfl
  · rw [h, if_pos (.inr h2)]
    rfl
  · rw [h, if_neg (not_or.2 ⟨h1, h2⟩)]
    rfl

/-- The stage step of the latched semantics, less the counter. -/
def stage (table : List StageEntry) (e : Engine) : Option Engine :=
  match e.latch.sem with
  | .approx => stageA table e
  | .ideal => stageI table e

theorem fastStep_eq (s : State) :
    fastStep s = match stage s.params.stageTable s.eng with | some e => s.advance e | none => s.raise .coverage := by
  unfold fastStep stage
  cases s.eng.latch.sem <;> rfl

/-- The engine's state before the counter advances, where the step applies an entry or a stage. -/
def Applied (s : State) (e : Engine) : Prop :=
  (s.eng.latch.op ≠ .rotFast ∧ ∃ i, s.eng.entries[s.eng.k]? = some i ∧ e = applyEntry s.params.roundMode i s.eng) ∨
  (s.eng.latch.op = .rotFast ∧ stage s.params.stageTable s.eng = some e)

/-- Everything an engine step can answer (R105, R207). -/
theorem engineStep_cases (s : State) :
    (∃ e, Applied s e ∧ engineStep s = .next (s.advance e)) ∨
    (s.eng.latch.op = .rotFast ∧ stage s.params.stageTable s.eng = none ∧ engineStep s = .next (s.raise .coverage)) ∨
    (s.eng.latch.op ≠ .rotFast ∧ s.eng.entries[s.eng.k]? = none ∧ engineStep s = .fault .noTableEntry) := by
  by_cases h : s.eng.latch.op = .rotFast
  · cases hs : stage s.params.stageTable s.eng with
    | none => exact .inr (.inl ⟨h, rfl, by simp [engineStep, h, fastStep_eq, hs]⟩)
    | some e => exact .inl ⟨e, .inr ⟨h, hs⟩, by simp [engineStep, h, fastStep_eq, hs]⟩
  · cases hi : s.eng.entries[s.eng.k]? with
    | none => exact .inr (.inr ⟨h, rfl, by simp [engineStep, h, hi]⟩)
    | some i => exact .inl ⟨_, .inl ⟨h, i, hi, rfl⟩, by simp [engineStep, h, hi]⟩

/-- What applying an entry leaves (R167): the command, the entry list, the pointer and the accumulators. -/
theorem applyEntry_frame (m : RoundMode) (i : Nat) (e : Engine) :
    (applyEntry m i e).latch = e.latch ∧ (applyEntry m i e).entries = e.entries ∧ (applyEntry m i e).k = e.k ∧
    (applyEntry m i e).fixAcc = e.fixAcc ∧ (applyEntry m i e).realAcc = e.realAcc ∧
    (e.latch.sem = .approx → (applyEntry m i e).real = e.real) ∧ (e.latch.sem = .ideal → (applyEntry m i e).fix = e.fix) := by
  unfold applyEntry
  split <;> simp_all

/-- What a stage leaves (R206): the command, the entry list, the pointer, and `x` and `y` of the CordicState. -/
theorem stage_frame {table : List StageEntry} {e e' : Engine} (h : stage table e = some e') :
    e'.latch = e.latch ∧ e'.entries = e.entries ∧ e'.k = e.k ∧ e'.fix.x = e.fix.x ∧ e'.fix.y = e.fix.y ∧
    e'.real.x = e.real.x ∧ e'.real.y = e.real.y ∧
    (e.latch.sem = .approx → e'.real = e.real ∧ e'.realAcc = e.realAcc) ∧
    (e.latch.sem = .ideal → e'.fix = e.fix ∧ e'.fixAcc = e.fixAcc) := by
  unfold stage at h
  split at h
  · simp only [stageA, Option.map_eq_some_iff] at h
    obtain ⟨st, -, rfl⟩ := h
    simp_all
  · simp only [stageI, Option.map_eq_some_iff] at h
    obtain ⟨st, -, rfl⟩ := h
    simp_all

theorem Applied.frame {s : State} {e : Engine} (h : Applied s e) :
    e.latch = s.eng.latch ∧ e.entries = s.eng.entries ∧ e.k = s.eng.k := by
  obtain ⟨-, i, -, rfl⟩ | ⟨-, h⟩ := h
  · exact ⟨(applyEntry_frame ..).1, (applyEntry_frame ..).2.1, (applyEntry_frame ..).2.2.1⟩
  · exact ⟨(stage_frame h).1, (stage_frame h).2.1, (stage_frame h).2.2.1⟩

/-- The convergence test does not read the pointer. -/
theorem converged_setK (e : Engine) (k : Nat) : converged { e with k := k } = converged e := rfl

/-! ### Steps of the machine -/

theorem engineTurn_of_running {s : State} (h : s.running = true) : engineTurn s = engineStep s := by simp [engineTurn, h]

theorem engineTurn_of_not_running {s : State} (h : s.running = false) : engineTurn s = .next s := by simp [engineTurn, h]

theorem step_nil {s : State} (h : s.pending = []) : step s = engineTurn s := by simp [step, h]

theorem step_cons {s : State} {ev : HostEvent} {rest : List HostEvent} (h : s.pending = ev :: rest) :
    step s = hostEvent ev (s.setPending rest) := by simp [step, h]

/-- One more step of a run, forwards. -/
theorem run_succ (M : Host.Core) {n : Nat} {s t : M.State} (h : M.step s = .next t) : M.run (n + 1) s = M.run n t := by
  rw [Host.Core.run, h]

/-- One more step of a run, backwards. -/
theorem run_succ_eq_next (M : Host.Core) {n : Nat} {s t : M.State} (h : M.run (n + 1) s = .next t) :
    ∃ u, M.step s = .next u ∧ M.run n u = .next t := by
  rw [Host.Core.run] at h
  split at h
  · exact ⟨_, ‹_›, h⟩
  · cases h
  · cases h

/-- `run_succ` for this machine, in the terms of `step`. -/
theorem core_run_succ {n : Nat} {s t : State} (h : step s = .next t) : Sys2Proof.core.run (n + 1) s = Sys2Proof.core.run n t :=
  run_succ Sys2Proof.core h

/-- `run_succ_eq_next` for this machine, in the terms of `step`. -/
theorem core_run_succ_eq_next {n : Nat} {s t : State} (h : Sys2Proof.core.run (n + 1) s = .next t) :
    ∃ u : State, step s = .next u ∧ Sys2Proof.core.run n u = .next t :=
  run_succ_eq_next Sys2Proof.core h

end Sys2Proof.Machine
end

