-- ==== Sys2Proof/Laws/Exact.lean ====
section
/-!
SUPPORT. Laws/Exact.lean: the exact arithmetic of the ideal strategy is sound: the series intervals hold the elementary angles,
and the products of the zero candidate test have the argument and the logarithm of the sums of angles.
-/

namespace Sys2Proof.Machine

/-! ### Residuals as reals -/

@[simp] theorem Angle.toReal_ofDyad (a : Dyad) : (Angle.ofDyad a).toReal = (a.toRat : ℝ) := by
  simp [Angle.ofDyad, Angle.toReal, termsToReal]

@[simp] theorem Angle.toReal_addDyad (z : Angle) (a : Dyad) : (z.addDyad a).toReal = z.toReal + (a.toRat : ℝ) := by
  simp only [Angle.addDyad, Angle.toReal, Dyad.toRat_add]
  push_cast
  ring

theorem termsToReal_neg (ts : List AngleTerm) : termsToReal (ts.map fun t => ⟨!t.neg, t.atom⟩) = -termsToReal ts := by
  induction ts with
  | nil => simp [termsToReal]
  | cons t ts ih =>
    simp only [List.map_cons, termsToReal, ih, AngleTerm.toReal]
    cases t.neg <;> simp <;> ring

@[simp] theorem Angle.toReal_neg (z : Angle) : z.neg.toReal = -z.toReal := by
  simp only [Angle.neg, Angle.toReal, termsToReal_neg, Dyad.toRat_neg]
  push_cast
  ring

/-- `z - d·θ`. -/
theorem Angle.toReal_subAtom (z : Angle) (d : Bool) (t : Atom) :
    (z.subAtom d t).toReal = z.toReal - (dir d : ℝ) * t.toReal := by
  have h : ∀ u : Atom, (Angle.mk z.base (⟨d, u⟩ :: z.terms)).toReal = z.toReal - (dir d : ℝ) * u.toReal := by
    intro u
    simp only [Angle.toReal, termsToReal, AngleTerm.toReal, dir]
    cases d <;> simp <;> ring
  unfold Angle.subAtom
  split
  · simp [Atom.toReal]
  · exact h _

theorem Angle.wfFor_ofDyad (m : Mode) (a : Dyad) : (Angle.ofDyad a).wfFor m := by simp [Angle.ofDyad, Angle.wfFor]

theorem Angle.wfFor_addDyad {m : Mode} {z : Angle} (h : z.wfFor m) (a : Dyad) : (z.addDyad a).wfFor m := h

theorem Angle.wfFor_neg {m : Mode} {z : Angle} (h : z.wfFor m) : z.neg.wfFor m := by
  simp only [Angle.wfFor, Angle.neg, List.mem_map] at *
  rintro t ⟨u, hu, rfl⟩
  exact h u hu

theorem Angle.wfFor_subAtom {m : Mode} {z : Angle} (h : z.wfFor m) (d : Bool) {t : Atom} (ht : t.wf) (hm : t.mode = m) :
    (z.subAtom d t).wfFor m := by
  unfold Angle.subAtom
  split
  · exact h
  · intro u hu
    rcases List.mem_cons.1 hu with rfl | hu
    · exact ⟨ht, hm⟩
    · exact h u hu

theorem Angle.wf_ofDyad (a : Dyad) : (Angle.ofDyad a).wf := ⟨.circ, Angle.wfFor_ofDyad _ a⟩

theorem Angle.wf_addDyad {z : Angle} (h : z.wf) (a : Dyad) : (z.addDyad a).wf := h

theorem Angle.wf_neg {z : Angle} (h : z.wf) : z.neg.wf := h.imp fun _ hm => Angle.wfFor_neg hm

/-- The atoms of a residual of a run are well formed. -/
theorem Angle.wf.atoms {z : Angle} (h : z.wf) : ∀ t ∈ z.terms, t.atom.wf := fun t ht => (h.choose_spec t ht).1

theorem Angle.toReal_subElem (z : Angle) (d : Bool) (mode : Mode) (i : Nat) :
    (z.subElem d mode i).toReal = z.toReal - (dir d : ℝ) * elemAngle mode i := by
  cases mode with
  | circ => simp [Angle.subElem, Angle.toReal_subAtom, Atom.toReal, elemAngle]
  | hyp => simp [Angle.subElem, Angle.toReal_subAtom, Atom.toReal, elemAngle]
  | lin =>
    have h : ∀ n : Int, ((Dyad.mk n 0).shr i).toRat = n / 2 ^ i := by
      intro n
      rw [Dyad.toRat_shr]
      simp [Dyad.toRat]
    simp only [Angle.subElem, elemAngle, Angle.toReal_addDyad]
    cases d <;> simp [h, dir, sub_eq_add_neg, neg_div]

theorem Angle.wfFor_subElem {z : Angle} {mode : Mode} (h : z.wfFor mode) (d : Bool) {i : Nat} (hi : mode = .hyp → 1 ≤ i) :
    (z.subElem d mode i).wfFor mode := by
  cases mode with
  | circ => exact Angle.wfFor_subAtom h d (by simp [Atom.wf]) rfl
  | hyp =>
    refine Angle.wfFor_subAtom h d ⟨by positivity, ?_⟩ rfl
    calc 2 * 1 = 2 ^ 1 := by norm_num
      _ ≤ 2 ^ i := Nat.pow_le_pow_right (by norm_num) (hi rfl)
  | lin => exact Angle.wfFor_addDyad h _

/-! ### Intervals -/

/-- The interval at precision `p` holds the real `r`. -/
def Ival.has (p : Nat) (I : Ival) (r : ℝ) : Prop := (I.lo : ℝ) ≤ r * 2 ^ p ∧ r * 2 ^ p ≤ I.hi

theorem Ival.has_add {p : Nat} {I J : Ival} {r s : ℝ} (hr : I.has p r) (hs : J.has p s) : (I.add J).has p (r + s) := by
  obtain ⟨h1, h2⟩ := hr
  obtain ⟨h3, h4⟩ := hs
  constructor <;> simp only [Ival.add] <;> push_cast <;> linarith

theorem Ival.has_neg {p : Nat} {I : Ival} {r : ℝ} (hr : I.has p r) : I.neg.has p (-r) := by
  obtain ⟨h1, h2⟩ := hr
  constructor <;> simp only [Ival.neg] <;> push_cast <;> linarith

/-- A term of the two series, as a real. -/
noncomputable def realTerm (num den k : Nat) : ℝ := ((num : ℝ) / den) ^ (2 * k + 1) / (2 * k + 1)

theorem realTerm_nonneg (num den k : Nat) : 0 ≤ realTerm num den k := by
  unfold realTerm
  positivity

theorem seriesTerm_le {den : Nat} (hd : 0 < den) (p num k : Nat) : (seriesTerm p num den k : ℝ) ≤ realTerm num den k * 2 ^ p := by
  have hd' : (0 : ℝ) < den := by exact_mod_cast hd
  have h : (0 : ℝ) < (den : ℝ) ^ (2 * k + 1) * (2 * k + 1) := by positivity
  have e : realTerm num den k * 2 ^ p = ((2 ^ p * num ^ (2 * k + 1) : ℕ) : ℝ) / ((den ^ (2 * k + 1) * (2 * k + 1) : ℕ) : ℝ) := by
    rw [realTerm, div_pow]
    push_cast
    field_simp
  rw [e]
  exact Nat.cast_div_le

theorem lt_seriesTerm_succ {den : Nat} (hd : 0 < den) (p num k : Nat) :
    realTerm num den k * 2 ^ p < (seriesTerm p num den k : ℝ) + 1 := by
  have hd' : (0 : ℝ) < den := by exact_mod_cast hd
  have e : realTerm num den k * 2 ^ p = ((2 ^ p * num ^ (2 * k + 1) : ℕ) : ℝ) / ((den ^ (2 * k + 1) * (2 * k + 1) : ℕ) : ℝ) := by
    rw [realTerm, div_pow]
    push_cast
    field_simp
  have hD : 0 < den ^ (2 * k + 1) * (2 * k + 1) := by positivity
  rw [e, seriesTerm, div_lt_iff₀ (by exact_mod_cast hD)]
  have := Nat.lt_mul_div_succ (2 ^ p * num ^ (2 * k + 1)) hD
  rw [mul_comm (den ^ (2 * k + 1) * (2 * k + 1))] at this
  exact_mod_cast this

theorem seriesTerm_has {den : Nat} (hd : 0 < den) (p num k : Nat) :
    Ival.has p ⟨seriesTerm p num den k, seriesTerm p num den k + 1⟩ (realTerm num den k) := by
  constructor <;> push_cast
  · exact seriesTerm_le hd p num k
  · exact (lt_seriesTerm_succ hd p num k).le

theorem atanPartial_has {den : Nat} (hd : 0 < den) (p num n : Nat) :
    (atanPartial p num den n).has p (∑ k ∈ Finset.range n, (-1) ^ k * realTerm num den k) := by
  induction n with
  | zero => simp [atanPartial, Ival.has]
  | succ n ih =>
    rw [Finset.sum_range_succ, atanPartial]
    split
    · rename_i h
      rw [(Nat.even_iff.2 h).neg_one_pow, one_mul]
      exact Ival.has_add ih (seriesTerm_has hd p num n)
    · rename_i h
      rw [(Nat.odd_iff.2 (by omega)).neg_one_pow, neg_one_mul]
      exact Ival.has_add ih (Ival.has_neg (seriesTerm_has hd p num n))

theorem atanhPartial_has {den : Nat} (hd : 0 < den) (p num n : Nat) :
    (atanhPartial p num den n).has p (∑ k ∈ Finset.range n, realTerm num den k) := by
  induction n with
  | zero => simp [atanhPartial, Ival.has]
  | succ n ih =>
    rw [Finset.sum_range_succ, atanhPartial]
    exact Ival.has_add ih (seriesTerm_has hd p num n)

theorem ratio_le_half {num den : Nat} (hd : 0 < den) (h : 2 * num ≤ den) : (num : ℝ) / den ≤ 1 / 2 := by
  have hd' : (0 : ℝ) < den := by exact_mod_cast hd
  have h' : (2 : ℝ) * num ≤ den := by exact_mod_cast h
  rw [div_le_div_iff₀ hd' (by norm_num)]
  linarith

theorem realTerm_antitone {num den : Nat} (hd : 0 < den) (h : 2 * num ≤ den) : Antitone (realTerm num den) := by
  refine antitone_nat_of_succ_le fun k => ?_
  have hr := ratio_le_half hd h
  have h0 : (0 : ℝ) ≤ (num : ℝ) / den := by positivity
  unfold realTerm
  push_cast
  refine div_le_div₀ (by positivity) ?_ (by positivity) (by linarith)
  exact pow_le_pow_of_le_one h0 (by linarith) (by omega)

theorem realTerm_le_geometric {num den : Nat} (n j : Nat) :
    realTerm num den (n + j) ≤ realTerm num den n * (((num : ℝ) / den) ^ 2) ^ j := by
  have h0 : (0 : ℝ) ≤ (num : ℝ) / den := by positivity
  unfold realTerm
  rw [div_mul_eq_mul_div, ← pow_mul, ← pow_add]
  push_cast
  refine div_le_div₀ (by positivity) (le_of_eq ?_) (by positivity) (by linarith [(Nat.cast_nonneg j : (0 : ℝ) ≤ j)])
  congr 1
  ring

theorem ratio_sq_le {num den : Nat} (hd : 0 < den) (h : 2 * num ≤ den) : ((num : ℝ) / den) ^ 2 ≤ 1 / 4 := by
  have hr := ratio_le_half hd h
  have h0 : (0 : ℝ) ≤ (num : ℝ) / den := by positivity
  nlinarith

theorem realTerm_summable {num den : Nat} (hd : 0 < den) (h : 2 * num ≤ den) : Summable (realTerm num den) := by
  have hs := ratio_sq_le hd h
  refine Summable.of_nonneg_of_le (realTerm_nonneg num den) (fun k => ?_)
    ((summable_geometric_of_lt_one (sq_nonneg _) (by linarith : ((num : ℝ) / den) ^ 2 < 1)).mul_left (realTerm num den 0))
  simpa using realTerm_le_geometric (num := num) (den := den) 0 k

theorem atanSeries_has {num den : Nat} (hd : 0 < den) (h : 2 * num ≤ den) (p n : Nat) :
    (atanSeries p num den n).has p (Real.arctan ((num : ℝ) / den)) := by
  have hr := ratio_le_half hd h
  have h0 : (0 : ℝ) ≤ (num : ℝ) / den := by positivity
  have hs := Real.hasSum_arctan (x := (num : ℝ) / den) (by rw [Real.norm_of_nonneg h0]; linarith)
  have e : (∑' k : ℕ, (-1) ^ k * realTerm num den k) = Real.arctan ((num : ℝ) / den) := by
    rw [← hs.tsum_eq]
    refine tsum_congr fun k => ?_
    rw [realTerm]
    push_cast
    ring
  have hb := alternating_series_error_bound (realTerm num den) (realTerm_antitone hd h) (realTerm_summable hd h) n
  rw [e] at hb
  have h2 : (0 : ℝ) < 2 ^ p := by positivity
  have hlt := lt_seriesTerm_succ hd p num n
  have hrest : Ival.has p ⟨-(seriesTerm p num den n + 1 : Int), seriesTerm p num den n + 1⟩
      (Real.arctan ((num : ℝ) / den) - ∑ k ∈ Finset.range n, (-1) ^ k * realTerm num den k) := by
    obtain ⟨h3, h4⟩ := abs_le.1 hb
    constructor <;> push_cast <;> nlinarith
  have := Ival.has_add (atanPartial_has hd p num n) hrest
  rw [add_sub_cancel] at this
  exact this

theorem atanhSeries_has {num den : Nat} (hd : 0 < den) (h : 2 * num ≤ den) (p n : Nat) :
    (atanhSeries p num den n).has p (Real.artanh ((num : ℝ) / den)) := by
  have hr := ratio_le_half hd h
  have h0 : (0 : ℝ) ≤ (num : ℝ) / den := by positivity
  have hsq := ratio_sq_le hd h
  have hs := Real.hasSum_log_sub_log_of_abs_lt_one (x := (num : ℝ) / den) (by rw [abs_of_nonneg h0]; linarith)
  have e : (∑' k : ℕ, realTerm num den k) = Real.artanh ((num : ℝ) / den) := by
    rw [Real.artanh_eq_half_log (Set.mem_Icc.2 ⟨by linarith, by linarith⟩),
      Real.log_div (by linarith) (by linarith), ← hs.tsum_eq, ← tsum_mul_left]
    refine tsum_congr fun k => ?_
    rw [realTerm]
    ring
  have hsum := realTerm_summable hd h
  have hsplit := hsum.sum_add_tsum_nat_add n
  rw [e] at hsplit
  have htail0 : 0 ≤ ∑' k, realTerm num den (k + n) := tsum_nonneg fun k => realTerm_nonneg num den _
  have htail : ∑' k, realTerm num den (k + n) ≤ 2 * realTerm num den n := by
    have hg : Summable fun k : ℕ => realTerm num den n * (((num : ℝ) / den) ^ 2) ^ k :=
      (summable_geometric_of_lt_one (sq_nonneg _) (by linarith)).mul_left _
    calc ∑' k, realTerm num den (k + n) ≤ ∑' k : ℕ, realTerm num den n * (((num : ℝ) / den) ^ 2) ^ k :=
          ((summable_nat_add_iff n).2 hsum).tsum_le_tsum (fun k => by rw [add_comm]; exact realTerm_le_geometric n k) hg
      _ = realTerm num den n * (1 - ((num : ℝ) / den) ^ 2)⁻¹ := by
          rw [tsum_mul_left, tsum_geometric_of_lt_one (sq_nonneg _) (by linarith)]
      _ ≤ realTerm num den n * 2 := by
          refine mul_le_mul_of_nonneg_left ?_ (realTerm_nonneg num den n)
          rw [inv_le_comm₀ (by linarith) (by norm_num)]
          linarith
      _ = 2 * realTerm num den n := by ring
  have h2 : (0 : ℝ) < 2 ^ p := by positivity
  have hlt := lt_seriesTerm_succ hd p num n
  have hrest : Ival.has p ⟨0, 2 * (seriesTerm p num den n + 1)⟩ (∑' k, realTerm num den (k + n)) := by
    constructor <;> push_cast <;> nlinarith
  have := Ival.has_add (atanhPartial_has hd p num n) hrest
  rw [hsplit] at this
  exact this

theorem atanIval_has (p : Nat) (fuel : Nat) {num den : Nat} (hd : 0 < den) :
    (atanIval p fuel num den).has p (Real.arctan ((num : ℝ) / den)) := by
  induction fuel generalizing num den with
  | zero =>
    rw [atanIval]
    split
    · exact atanSeries_has hd (by assumption) p _
    · have h1 := Real.arctan_lt_pi_div_two ((num : ℝ) / den)
      have h2 : 0 ≤ Real.arctan ((num : ℝ) / den) := Real.arctan_nonneg.2 (by positivity)
      have h3 := Real.pi_le_four
      have h4 : (0 : ℝ) < 2 ^ p := by positivity
      constructor <;> simp only [pow2_eq] <;> push_cast <;> nlinarith
  | succ fuel ih =>
    rw [atanIval]
    split
    · exact atanSeries_has hd (by assumption) p _
    · rename_i h
      have hD : 0 < 2 * den + num := by omega
      have hd' : (0 : ℝ) < den := by exact_mod_cast hd
      have hn' : (0 : ℝ) ≤ num := by positivity
      have hD' : (0 : ℝ) < 2 * den + num := by linarith
      have hh := Ival.has_add (atanSeries_has (num := 1) (den := 2) (by norm_num) (by norm_num) p (seriesLength p 1 2))
        (ih (num := 2 * num - den) (den := 2 * den + num) hD)
      have hc : ((2 * num - den : ℕ) : ℝ) = 2 * num - den := by
        rw [Nat.cast_sub (by omega)]
        push_cast
        ring
      have e : Real.arctan ((1 : ℕ) / (2 : ℕ) : ℝ) + Real.arctan (((2 * num - den : ℕ) : ℝ) / ((2 * den + num : ℕ) : ℝ)) =
          Real.arctan ((num : ℝ) / den) := by
        rw [hc]
        push_cast
        have hlt : (1 / 2 : ℝ) * ((2 * num - den) / (2 * den + num)) < 1 := by
          rw [div_mul_div_comm, one_mul, div_lt_one (by positivity)]
          linarith
        rw [Real.arctan_add hlt]
        congr 1
        have h5 : (1 : ℝ) - 1 / 2 * ((2 * num - den) / (2 * den + num)) = 5 * den / (2 * (2 * den + num)) := by
          field_simp
          ring
        have h6 : (1 / 2 : ℝ) + (2 * num - den) / (2 * den + num) = 5 * num / (2 * (2 * den + num)) := by
          field_simp
          ring
        rw [h5, h6]
        field_simp
      rw [e] at hh
      exact hh

theorem Atom.ival_has {t : Atom} (h : t.wf) (p : Nat) : (t.ival p).has p t.toReal := by
  cases t with
  | atan num den => exact atanIval_has p 4 h
  | atanh num den => exact atanhSeries_has h.1 h.2 p _

theorem AngleTerm.ival_has {t : AngleTerm} (h : t.atom.wf) (p : Nat) : (t.ival p).has p t.toReal := by
  unfold AngleTerm.ival AngleTerm.toReal
  split
  · exact Ival.has_neg (Atom.ival_has h p)
  · exact Atom.ival_has h p

theorem termsIval_has {ts : List AngleTerm} (h : ∀ t ∈ ts, t.atom.wf) (p : Nat) :
    (termsIval p ts).has p (termsToReal ts) := by
  induction ts with
  | nil => simp [termsIval, termsToReal, Ival.has]
  | cons t ts ih =>
    exact Ival.has_add (AngleTerm.ival_has (h t (by simp)) p) (ih fun u hu => h u (by simp [hu]))

theorem Dyad.ival_has (p : Nat) (a : Dyad) : (a.ival p).has p (a.toRat : ℝ) := by
  have e : ((a.toRat : ℝ)) * 2 ^ p = ((((a.num * pow2 p : Int) : ℚ) / 2 ^ a.exp : ℚ) : ℝ) := by
    rw [Dyad.toRat, pow2_eq]
    push_cast
    ring
  have h1 := Int.floor_le (((a.num * pow2 p : Int) : ℚ) / 2 ^ a.exp)
  have h2 := (Int.lt_floor_add_one (((a.num * pow2 p : Int) : ℚ) / 2 ^ a.exp)).le
  constructor
  · rw [e]
    simp only [Dyad.ival, asr_eq_floor]
    exact_mod_cast h1
  · rw [e]
    simp only [Dyad.ival, asr_eq_floor]
    push_cast
    exact_mod_cast h2

theorem Angle.ival_has {z : Angle} (h : z.wf) (p : Nat) : (z.ival p).has p z.toReal :=
  Ival.has_add (Dyad.ival_has p z.base) (termsIval_has h.atoms p)

/-! ### The products of the zero candidate test -/

/-- The sum of the atan terms. -/
noncomputable def atanSum : List AngleTerm → ℝ
  | [] => 0
  | t :: ts => (match t.atom with | .atan _ _ => t.toReal | .atanh _ _ => 0) + atanSum ts

/-- The sum of the atanh terms. -/
noncomputable def atanhSum : List AngleTerm → ℝ
  | [] => 0
  | t :: ts => (match t.atom with | .atan _ _ => 0 | .atanh _ _ => t.toReal) + atanhSum ts

theorem termsToReal_split (ts : List AngleTerm) : termsToReal ts = atanSum ts + atanhSum ts := by
  induction ts with
  | nil => simp [termsToReal, atanSum, atanhSum]
  | cons t ts ih =>
    obtain ⟨neg, atom⟩ := t
    cases atom <;> simp only [termsToReal, atanSum, atanhSum, ih] <;> ring

/-- The product of the Gaussian integers has the sum of the atan terms as its argument. -/
theorem gaussProduct_polar {ts : List AngleTerm} (h : ∀ t ∈ ts, t.atom.wf) : ∃ R : ℝ, 0 < R ∧
    ((gaussProduct ts).1 : ℝ) = R * Real.cos (atanSum ts) ∧ ((gaussProduct ts).2 : ℝ) = R * Real.sin (atanSum ts) := by
  induction ts with
  | nil => exact ⟨1, by simp [gaussProduct, atanSum]⟩
  | cons t ts ih =>
    obtain ⟨R, hR, h1, h2⟩ := ih fun u hu => h u (by simp [hu])
    obtain ⟨neg, atom⟩ := t
    cases atom with
    | atanh num den => exact ⟨R, hR, by simpa [gaussProduct, atanSum] using h1, by simpa [gaussProduct, atanSum] using h2⟩
    | atan num den =>
      have hd : 0 < den := h ⟨neg, .atan num den⟩ (by simp)
      have hd' : (0 : ℝ) < den := by exact_mod_cast hd
      obtain ⟨b, hb⟩ : ∃ b : Int, b = if neg then -(num : Int) else (num : Int) := ⟨_, rfl⟩
      have ht : AngleTerm.toReal ⟨neg, .atan num den⟩ = Real.arctan ((b : ℝ) / den) := by
        rw [hb]
        cases neg
        · simp [AngleTerm.toReal, Atom.toReal]
        · simp [AngleTerm.toReal, Atom.toReal, neg_div, Real.arctan_neg]
      have hq : (0 : ℝ) < √(1 + ((b : ℝ) / den) ^ 2) := by positivity
      refine ⟨R * (den * √(1 + ((b : ℝ) / den) ^ 2)), by positivity, ?_, ?_⟩
      · simp only [gaussProduct, atanSum, ← hb, ht, Real.cos_add, Real.cos_arctan, Real.sin_arctan]
        push_cast
        rw [h1, h2]
        field_simp
      · simp only [gaussProduct, atanSum, ← hb, ht, Real.sin_add, Real.cos_arctan, Real.sin_arctan]
        push_cast
        rw [h1, h2]
        field_simp

/-- Half the logarithm of the product of the ratios is the sum of the atanh terms. -/
theorem ratioProduct_log {ts : List AngleTerm} (h : ∀ t ∈ ts, t.atom.wf) :
    0 < (ratioProduct ts).1 ∧ 0 < (ratioProduct ts).2 ∧
    atanhSum ts = 1 / 2 * (Real.log (ratioProduct ts).1 - Real.log (ratioProduct ts).2) := by
  induction ts with
  | nil => simp [ratioProduct, atanhSum]
  | cons t ts ih =>
    obtain ⟨h1, h2, h3⟩ := ih fun u hu => h u (by simp [hu])
    obtain ⟨neg, atom⟩ := t
    cases atom with
    | atan num den => exact ⟨h1, h2, by simpa [ratioProduct, atanhSum] using h3⟩
    | atanh num den =>
      obtain ⟨hd, hle⟩ : 0 < den ∧ 2 * num ≤ den := h ⟨neg, .atanh num den⟩ (by simp)
      have hr := ratio_le_half hd hle
      have h0 : (0 : ℝ) ≤ (num : ℝ) / den := by positivity
      have hd' : (0 : ℝ) < den := by exact_mod_cast hd
      have hm : (0 : Int) < (den : Int) - num := by omega
      have hp : (0 : Int) < (den : Int) + num := by omega
      have hm' : (0 : ℝ) < (den : ℝ) - num := by exact_mod_cast hm
      have hp' : (0 : ℝ) < (den : ℝ) + num := by exact_mod_cast hp
      have h1' : (0 : ℝ) < (ratioProduct ts).1 := by exact_mod_cast h1
      have h2' : (0 : ℝ) < (ratioProduct ts).2 := by exact_mod_cast h2
      have e : Real.artanh ((num : ℝ) / den) = 1 / 2 * (Real.log (den + num) - Real.log (den - num)) := by
        rw [Real.artanh_eq_half_log (Set.mem_Icc.2 ⟨by linarith, by linarith⟩), ← Real.log_div hp'.ne' hm'.ne']
        congr 2
        field_simp
      cases neg
      · refine ⟨by simpa [ratioProduct] using mul_pos hp h1, by simpa [ratioProduct] using mul_pos hm h2, ?_⟩
        simp only [atanhSum, AngleTerm.toReal, Atom.toReal, e, h3, ratioProduct]
        simp only [Bool.false_eq_true, if_false]
        push_cast
        rw [Real.log_mul hp'.ne' h1'.ne', Real.log_mul hm'.ne' h2'.ne']
        ring
      · refine ⟨by simpa [ratioProduct] using mul_pos hm h1, by simpa [ratioProduct] using mul_pos hp h2, ?_⟩
        simp only [atanhSum, AngleTerm.toReal, Atom.toReal, e, h3, ratioProduct]
        simp only [if_true]
        push_cast
        rw [Real.log_mul hm'.ne' h1'.ne', Real.log_mul hp'.ne' h2'.ne']
        ring

end Sys2Proof.Machine
end

