-- ==== Sys2Proof/Laws/Irrational.lean ====
section
/-!
SUPPORT. Laws/Irrational.lean: a case of the theorem of Hermite and Lindemann, from Mathlib's analytical part of it: the
exponential of a nonzero Gaussian rational is no Gaussian rational. The ideal strategy's sign search ends because of it.
-/

open Polynomial

namespace Sys2Proof.Laws

/-- `c^n · g(r)` has integer parts, for `r = (a + b·i)/c` and an integer polynomial `g` of degree at most `n`. -/
theorem exists_gaussian_of_aeval {a b : ℤ} {c : ℕ} (hc : 0 < c) (g : ℤ[X]) {n : ℕ} (hg : g.natDegree ≤ n) :
    ∃ x y : ℤ, (c : ℂ) ^ n * aeval (((a : ℂ) + b * Complex.I) / c) g = x + y * Complex.I := by
  have hc' : (c : ℂ) ≠ 0 := by exact_mod_cast hc.ne'
  have hpow : ∀ k : ℕ, ∃ x y : ℤ, ((a : ℂ) + b * Complex.I) ^ k = x + y * Complex.I := by
    intro k
    induction k with
    | zero => exact ⟨1, 0, by simp⟩
    | succ k ih =>
      obtain ⟨x, y, h⟩ := ih
      refine ⟨x * a - y * b, x * b + y * a, ?_⟩
      rw [pow_succ, h]
      push_cast
      linear_combination (y * b : ℂ) * Complex.I_sq
  rw [aeval_eq_sum_range' (Nat.lt_succ_of_le hg), Finset.mul_sum]
  have hterm : ∀ k ∈ Finset.range (n + 1), ∃ x y : ℤ,
      (c : ℂ) ^ n * (g.coeff k • (((a : ℂ) + b * Complex.I) / c) ^ k) = x + y * Complex.I := by
    intro k hk
    obtain ⟨x, y, h⟩ := hpow k
    refine ⟨c ^ (n - k) * g.coeff k * x, c ^ (n - k) * g.coeff k * y, ?_⟩
    have hk' : n = n - k + k := by have := Finset.mem_range.1 hk; omega
    rw [div_pow, h, zsmul_eq_mul]
    nth_rewrite 1 [hk']
    rw [pow_add]
    field_simp
    push_cast
    ring
  choose! x y hxy using hterm
  refine ⟨∑ k ∈ Finset.range (n + 1), x k, ∑ k ∈ Finset.range (n + 1), y k, ?_⟩
  rw [Finset.sum_congr rfl hxy, Finset.sum_add_distrib, ← Finset.sum_mul]
  push_cast
  rfl

/-- The exponential of a nonzero Gaussian rational is no Gaussian rational: a case of the theorem of Hermite and Lindemann. -/
theorem exp_gaussian_rational {a b u v : ℤ} {c w : ℕ} (hc : 0 < c) (hw : 0 < w) (hr : a ≠ 0 ∨ b ≠ 0)
    (h : Complex.exp (((a : ℂ) + b * Complex.I) / c) = ((u : ℂ) + v * Complex.I) / w) : False := by
  have hc' : (c : ℂ) ≠ 0 := by exact_mod_cast hc.ne'
  have hw' : (w : ℂ) ≠ 0 := by exact_mod_cast hw.ne'
  set r : ℂ := ((a : ℂ) + b * Complex.I) / c with hrdef
  obtain ⟨f, hf⟩ : ∃ f : ℤ[X], f = C ((c : ℤ) ^ 2) * X ^ 2 + C (-2 * a * c) * X + C (a ^ 2 + b ^ 2) := ⟨_, rfl⟩
  have hf0 : f.eval 0 = a ^ 2 + b ^ 2 := by rw [hf]; simp
  have hab : 0 < a ^ 2 + b ^ 2 := by
    rcases hr with h | h
    · have := sq_nonneg b; positivity
    · have := sq_nonneg a; positivity
  have hdeg : f.natDegree ≤ 2 := by rw [hf]; compute_degree
  have hne : f ≠ 0 := by
    intro h0
    rw [h0] at hf0
    simp at hf0
    omega
  have hroot : r ∈ f.aroots ℂ := by
    rw [mem_aroots]
    refine ⟨hne, ?_⟩
    rw [hf, hrdef]
    simp only [map_add, map_mul, map_pow, map_neg, aeval_X, eq_intCast, map_intCast, map_natCast, map_ofNat]
    field_simp
    linear_combination (b : ℂ) ^ 2 * Complex.I_sq
  obtain ⟨K, hK⟩ := LindemannWeierstrass.exp_polynomial_approx f (by rw [hf0]; exact hab.ne')
  have huv : u ≠ 0 ∨ v ≠ 0 := by
    by_contra hcon
    push Not at hcon
    rw [hcon.1, hcon.2] at h
    exact Complex.exp_ne_zero _ (by rw [h]; simp)
  -- a prime large enough
  have hlim : Filter.Tendsto (fun m : ℕ => (w * c ^ 2 * |K|) * ((c ^ 2 * |K|) ^ m / m.factorial)) Filter.atTop (nhds 0) := by
    simpa using (FloorSemiring.tendsto_pow_div_factorial_atTop ((c : ℝ) ^ 2 * |K|)).const_mul ((w : ℝ) * c ^ 2 * |K|)
  obtain ⟨N, hN⟩ := Filter.eventually_atTop.1 (hlim.eventually (gt_mem_nhds one_pos))
  obtain ⟨p, hp, hprime⟩ := Nat.exists_infinite_primes (N + (f.eval 0).natAbs + c + u.natAbs + v.natAbs + 2)
  obtain ⟨n, hn, gp, hgp, hbound⟩ := hK p (by omega) hprime
  have hb := hbound hroot
  obtain ⟨x, y, hxy⟩ := exists_gaussian_of_aeval (a := a) (b := b) hc gp
    (n := 2 * p) (hgp.trans ((Nat.sub_le _ _).trans (by rw [mul_comm]; exact Nat.mul_le_mul_right _ hdeg)))
  rw [← hrdef] at hxy
  have e : (w : ℂ) * c ^ (2 * p) * (n • Complex.exp r - p • aeval r gp) =
      ((c ^ (2 * p) * n * u - p * (w * x) : ℤ) : ℂ) + ((c ^ (2 * p) * n * v - p * (w * y) : ℤ) : ℂ) * Complex.I := by
    rw [h, zsmul_eq_mul, nsmul_eq_mul]
    push_cast
    have : (w : ℂ) * c ^ (2 * p) * (n * (((u : ℂ) + v * Complex.I) / w) - p * aeval r gp) =
        c ^ (2 * p) * n * (u + v * Complex.I) - p * w * (c ^ (2 * p) * aeval r gp) := by
      field_simp
    rw [this, hxy]
    ring
  have hpc : ¬(p : ℤ) ∣ (c : ℤ) ^ (2 * p) := by
    intro hd
    have := (Nat.prime_iff_prime_int.1 hprime).dvd_of_dvd_pow hd
    have := Nat.le_of_dvd hc (Int.natCast_dvd_natCast.1 this)
    omega
  have hdvd : ∀ t q : ℤ, t.natAbs < p → (c : ℤ) ^ (2 * p) * n * t - p * (w * q) = 0 → t = 0 := by
    intro t q ht h0
    have hd : (p : ℤ) ∣ (c : ℤ) ^ (2 * p) * n * t := ⟨w * q, by linarith⟩
    have hP := Nat.prime_iff_prime_int.1 hprime
    rcases hP.dvd_or_dvd hd with hd | hd
    · rcases hP.dvd_or_dvd hd with hd | hd
      · exact absurd hd hpc
      · exact absurd hd hn
    · by_contra htne
      have := Nat.le_of_dvd (Int.natAbs_pos.2 htne) (Int.natCast_dvd.1 hd)
      omega
  have hlow : 1 ≤ ‖(w : ℂ) * c ^ (2 * p) * (n • Complex.exp r - p • aeval r gp)‖ := by
    rw [e]
    generalize hA : (c : ℤ) ^ (2 * p) * n * u - p * (w * x) = A
    generalize hB : (c : ℤ) ^ (2 * p) * n * v - p * (w * y) = B
    have hAB : A ≠ 0 ∨ B ≠ 0 := by
      rcases huv with h | h
      · exact .inl fun h0 => h (hdvd u x (by omega) (hA.trans h0))
      · exact .inr fun h0 => h (hdvd v y (by omega) (hB.trans h0))
    rcases hAB with h | h
    · refine le_trans ?_ (Complex.abs_re_le_norm _)
      simp only [Complex.add_re, Complex.intCast_re, Complex.mul_re, Complex.I_re, Complex.intCast_im, Complex.I_im]
      simp only [mul_zero, sub_zero, add_zero, mul_one, ← Int.cast_abs]
      exact_mod_cast Int.one_le_abs h
    · refine le_trans ?_ (Complex.abs_im_le_norm _)
      simp only [Complex.add_im, Complex.intCast_re, Complex.mul_im, Complex.I_re, Complex.intCast_im, Complex.I_im]
      simp only [mul_zero, add_zero, zero_add, mul_one, ← Int.cast_abs]
      exact_mod_cast Int.one_le_abs h
  have hup : ‖(w : ℂ) * c ^ (2 * p) * (n • Complex.exp r - p • aeval r gp)‖ < 1 := by
    rw [norm_mul, norm_mul, norm_pow, Complex.norm_natCast, Complex.norm_natCast]
    obtain ⟨m, rfl⟩ : ∃ m, p = m + 1 := ⟨p - 1, by omega⟩
    have hNm := hN m (by omega)
    refine lt_of_le_of_lt ?_ hNm
    have hle : K ^ (m + 1) / ((m + 1 - 1).factorial : ℝ) ≤ |K| ^ (m + 1) / (m.factorial : ℝ) := by
      rw [Nat.add_sub_cancel]
      exact div_le_div_of_nonneg_right ((le_abs_self _).trans (abs_pow K (m + 1)).le) (by positivity)
    calc (w : ℝ) * c ^ (2 * (m + 1)) * _ ≤ w * c ^ (2 * (m + 1)) * (|K| ^ (m + 1) / (m.factorial : ℝ)) := by
          gcongr
          exact hb.trans hle
      _ = w * c ^ 2 * |K| * ((c ^ 2 * |K|) ^ m / m.factorial) := by
          rw [mul_pow, ← pow_mul, Nat.mul_add, pow_add, pow_succ |K|]
          ring
  exact absurd hlow (not_le.2 hup)

end Sys2Proof.Laws
end

