-- ==== Sys2Proof/Laws/PerInstr.lean ====
section
/-!
SUPPORT. Laws/PerInstr.lean: the law stated per constructor of Instr: under the mask of the opcode map every encoding has its
row's match, so no operand reaches the fields that select the row (spec/30_encoding.md rule R81).
-/

namespace Sys2Proof.Laws.MatchWord

/-- The command's encoding has the match of its row of R81's map, whatever the operands. -/
def Statement (i : Instr) : Prop := encode i &&& rowMask = matchWord i

/-- The fixed fields of a command word, whatever EE, ITER and SHAMT. -/
theorem cmdWord_and_rowMask (op : BitVec 4) (sem ee : Bool) (iter shamt : Nat) :
    cmdWord op sem ee iter shamt &&& rowMask = BitVec.setWidth 64 (BitVec.ofBool sem ++ op) := by
  apply BitVec.eq_of_getLsbD_eq
  intro j hj
  simp only [cmdWord, rowMask, BitVec.getLsbD_and, BitVec.getLsbD_append, BitVec.getLsbD_setWidth]
  interval_cases j <;> simp

theorem quant : Statement .quant := cmdWord_and_rowMask ..
theorem neg : Statement .neg := cmdWord_and_rowMask ..
theorem add : Statement .add := cmdWord_and_rowMask ..
theorem shr (k : Nat) : Statement (.shr k) := cmdWord_and_rowMask ..
theorem rotCircA (ee : Bool) (n : Nat) : Statement (.rotCircA ee n) := cmdWord_and_rowMask ..
theorem rotCircI (ee : Bool) (n : Nat) : Statement (.rotCircI ee n) := cmdWord_and_rowMask ..
theorem vecCircA (ee : Bool) (n : Nat) : Statement (.vecCircA ee n) := cmdWord_and_rowMask ..
theorem vecCircI (ee : Bool) (n : Nat) : Statement (.vecCircI ee n) := cmdWord_and_rowMask ..
theorem rotHypA (ee : Bool) (n : Nat) : Statement (.rotHypA ee n) := cmdWord_and_rowMask ..
theorem rotHypI (ee : Bool) (n : Nat) : Statement (.rotHypI ee n) := cmdWord_and_rowMask ..
theorem divLinA (ee : Bool) (n : Nat) : Statement (.divLinA ee n) := cmdWord_and_rowMask ..
theorem divLinI (ee : Bool) (n : Nat) : Statement (.divLinI ee n) := cmdWord_and_rowMask ..
theorem rotFastA (ee : Bool) (n : Nat) : Statement (.rotFastA ee n) := cmdWord_and_rowMask ..
theorem rotFastI (ee : Bool) (n : Nat) : Statement (.rotFastI ee n) := cmdWord_and_rowMask ..

end Sys2Proof.Laws.MatchWord
end

