-- ==== Sys2Proof/Laws/Sign.lean ====
section
/-!
SUPPORT. Laws/Sign.lean: the sign search of the ideal strategy is sound and ends (log entry 4): the intervals are narrow enough to
decide every sum that is not 0, and a sum that is 0 is a zero candidate, which is where the irrationality is used.
-/

namespace Sys2Proof.Machine

/-! ### Soundness -/

/-- A zero candidate that is no larger than 1 is 0. -/
theorem Angle.toReal_eq_zero_of_candidate {z : Angle} (h : z.wf) (hz : z.zeroCandidate = true) (h1 : |z.toReal| ≤ 1) :
    z.toReal = 0 := by
  simp only [Angle.zeroCandidate, Bool.and_eq_true, decide_eq_true_eq] at hz
  obtain ⟨⟨⟨hb, hs⟩, -⟩, hq⟩ := hz
  obtain ⟨-, -, h3⟩ := ratioProduct_log h.atoms
  obtain ⟨R, hR, -, hsin⟩ := gaussProduct_polar h.atoms
  rw [hq, sub_self, mul_zero] at h3
  rw [hs, Int.cast_zero] at hsin
  have hbase : (z.base.toRat : ℝ) = 0 := by
    rw [(Dyad.toRat_eq_zero_iff _).2 hb]
    simp
  have hz : z.toReal = atanSum z.terms := by
    rw [Angle.toReal, hbase, termsToReal_split, h3]
    ring
  have hsin0 : Real.sin (atanSum z.terms) = 0 := (mul_eq_zero.1 hsin.symm).resolve_left hR.ne'
  have hpi := Real.pi_gt_three
  obtain ⟨h5, h6⟩ := abs_le.1 h1
  rw [hz] at h5 h6 ⊢
  exact (Real.sin_eq_zero_iff_of_lt_of_lt (by linarith) (by linarith)).1 hsin0

/-- A precision that decides the sign decides it rightly. -/
theorem Angle.signAt_sound {z : Angle} (h : z.wf) {p : Nat} {b : Bool} (hb : z.signAt p = some b) : b = true ↔ 0 ≤ z.toReal := by
  obtain ⟨h1, h2⟩ := Angle.ival_has h p
  have h3 : (0 : ℝ) < 2 ^ p := by positivity
  unfold Angle.signAt at hb
  split at hb
  · rename_i hlo
    cases hb
    have : (0 : ℝ) ≤ (z.ival p).lo := by exact_mod_cast hlo
    simpa using nonneg_of_mul_nonneg_left (this.trans h1) h3
  · split at hb
    · rename_i hhi
      cases hb
      have : ((z.ival p).hi : ℝ) < 0 := by exact_mod_cast hhi
      simpa using neg_of_mul_neg_left (h2.trans_lt this) h3.le
    · split at hb
      · rename_i hc
        cases hb
        simp only [Bool.and_eq_true, decide_eq_true_eq, pow2_eq] at hc
        obtain ⟨⟨hc, hlo⟩, hhi⟩ := hc
        have hlo' : (-2 ^ p : ℝ) ≤ (z.ival p).lo := by exact_mod_cast hlo
        have hhi' : ((z.ival p).hi : ℝ) ≤ 2 ^ p := by exact_mod_cast hhi
        have h0 := Angle.toReal_eq_zero_of_candidate h hc (abs_le.2 ⟨by nlinarith, by nlinarith⟩)
        simp [h0]
      · cases hb

theorem signLadder_sound {z : Angle} (h : z.wf) {ps : List Nat} {b : Bool} (hb : signLadder z ps = some b) :
    b = true ↔ 0 ≤ z.toReal := by
  induction ps with
  | nil => cases hb
  | cons p ps ih =>
    rw [signLadder] at hb
    split at hb
    · rename_i hp
      cases hb
      exact Angle.signAt_sound h hp
    · exact ih hb

/-! ### The intervals narrow -/

/-- The width of an interval. -/
def Ival.width (I : Ival) : Int := I.hi - I.lo

theorem Ival.width_add (I J : Ival) : (I.add J).width = I.width + J.width := by
  simp only [Ival.width, Ival.add]
  ring

theorem Ival.width_neg (I : Ival) : I.neg.width = I.width := by
  simp only [Ival.width, Ival.neg]
  ring

theorem atanPartial_width (p num den n : Nat) : (atanPartial p num den n).width = n := by
  induction n with
  | zero => rfl
  | succ n ih =>
    rw [atanPartial]
    split <;> rw [Ival.width_add, ih] <;> simp [Ival.width, Ival.neg]

theorem atanhPartial_width (p num den n : Nat) : (atanhPartial p num den n).width = n := by
  induction n with
  | zero => rfl
  | succ n ih =>
    rw [atanhPartial, Ival.width_add, ih]
    simp [Ival.width]

/-- The series are cut where the next term is at most one unit. -/
theorem seriesTerm_seriesLength {num den : Nat} (h : 2 * num ≤ den) (p : Nat) :
    seriesTerm p num den (seriesLength p num den) ≤ 1 := by
  obtain ⟨n, hn⟩ : ∃ n, n = seriesLength p num den := ⟨_, rfl⟩
  rw [← hn]
  rcases Nat.eq_zero_or_pos num with rfl | hnum
  · simp [seriesTerm]
  · have hL : 1 ≤ Nat.log2 (den / num) := by
      rw [Nat.le_log2 (by have := Nat.div_pos (by omega : num ≤ den) hnum; omega), Nat.le_div_iff_mul_le hnum]
      omega
    generalize hl : Nat.log2 (den / num) = L at hL
    have hpow : 2 ^ L * num ≤ den := by
      rw [← hl]
      exact (Nat.le_div_iff_mul_le hnum).1 (Nat.log2_self_le (by have := Nat.div_pos (by omega : num ≤ den) hnum; omega))
    have hp : p ≤ L * (2 * n + 1) := by
      rw [hn, seriesLength, hl]
      have h1 := Nat.lt_mul_div_succ p (by omega : 0 < 2 * L)
      nlinarith
    rw [seriesTerm]
    apply Nat.div_le_of_le_mul
    calc 2 ^ p * num ^ (2 * n + 1) ≤ 2 ^ (L * (2 * n + 1)) * num ^ (2 * n + 1) :=
          Nat.mul_le_mul_right _ (Nat.pow_le_pow_right (by norm_num) hp)
      _ = (2 ^ L * num) ^ (2 * n + 1) := by rw [pow_mul, mul_pow]
      _ ≤ den ^ (2 * n + 1) := Nat.pow_le_pow_left hpow _
      _ ≤ den ^ (2 * n + 1) * (2 * n + 1) * 1 := by
          rw [mul_one]
          exact Nat.le_mul_of_pos_right _ (by omega)

theorem seriesLength_le (p num den : Nat) : seriesLength p num den ≤ p + 2 := Nat.add_le_add_right (Nat.div_le_self ..) 2

theorem atanSeries_width {num den : Nat} (h : 2 * num ≤ den) (p : Nat) :
    (atanSeries p num den (seriesLength p num den)).width ≤ p + 6 := by
  have h1 := seriesTerm_seriesLength h p
  have h2 := seriesLength_le p num den
  rw [atanSeries, Ival.width_add, atanPartial_width]
  simp only [Ival.width]
  omega

theorem atanhSeries_width {num den : Nat} (h : 2 * num ≤ den) (p : Nat) :
    (atanhSeries p num den (seriesLength p num den)).width ≤ p + 6 := by
  have h1 := seriesTerm_seriesLength h p
  have h2 := seriesLength_le p num den
  rw [atanhSeries, Ival.width_add, atanhPartial_width]
  simp only [Ival.width]
  omega

theorem atanIval_width_of_le_half (p : Nat) {fuel num den : Nat} (h : 2 * num ≤ den) : (atanIval p fuel num den).width ≤ p + 6 := by
  cases fuel <;> rw [atanIval, if_pos h] <;> exact atanSeries_width h p

/-- One reduction of an arc tangent adds the width of `atan (1/2)`. -/
theorem atanIval_width_succ {p fuel num den : Nat} {w : Int} (hw : 0 ≤ w)
    (h : (atanIval p fuel (2 * num - den) (2 * den + num)).width ≤ w) : (atanIval p (fuel + 1) num den).width ≤ w + (p + 6) := by
  rw [atanIval]
  split
  · have := atanSeries_width (by assumption) p
    omega
  · have := atanSeries_width (num := 1) (den := 2) le_rfl p
    rw [Ival.width_add]
    omega

/-- Three reductions bring every ratio to at most `1/2`: the first below 2, the second below `3/4`. -/
theorem atanIval_width (p num den : Nat) : (atanIval p 4 num den).width ≤ 4 * (p + 6) := by
  have h1 : ∀ n d : Nat, 4 * n ≤ 3 * d → (atanIval p 2 n d).width ≤ 2 * (p + 6) := fun n d h =>
    (atanIval_width_succ (fuel := 1) (by omega) (atanIval_width_of_le_half p (by omega))).trans (by omega)
  have h2 : ∀ n d : Nat, n ≤ 2 * d → (atanIval p 3 n d).width ≤ 3 * (p + 6) := fun n d h =>
    (atanIval_width_succ (fuel := 2) (by omega) (h1 (2 * n - d) (2 * d + n) (by omega))).trans (by omega)
  exact (atanIval_width_succ (fuel := 3) (by omega) (h2 (2 * num - den) (2 * den + num) (by omega))).trans (by omega)

theorem AngleTerm.ival_width {t : AngleTerm} (h : t.atom.wf) (p : Nat) : (t.ival p).width ≤ 4 * (p + 6) := by
  have : (t.atom.ival p).width ≤ 4 * (p + 6) := by
    cases ht : t.atom with
    | atan num den => exact atanIval_width p num den
    | atanh num den =>
      rw [ht] at h
      have := atanhSeries_width h.2 p
      simp only [Atom.ival]
      omega
  unfold AngleTerm.ival
  split
  · rwa [Ival.width_neg]
  · exact this

theorem termsIval_width {ts : List AngleTerm} (h : ∀ t ∈ ts, t.atom.wf) (p : Nat) :
    (termsIval p ts).width ≤ ts.length * (4 * (p + 6)) := by
  induction ts with
  | nil => simp [termsIval, Ival.width]
  | cons t ts ih =>
    rw [termsIval, Ival.width_add]
    have h1 := AngleTerm.ival_width (h t (by simp)) p
    have h2 := ih fun u hu => h u (by simp [hu])
    push_cast [List.length_cons]
    linarith

/-- The interval of a residual grows in width like the precision only. -/
theorem Angle.ival_width {z : Angle} (h : z.wf) (p : Nat) : (z.ival p).width ≤ z.terms.length * (4 * (p + 6)) + 1 := by
  have h1 := termsIval_width h.atoms p
  have h2 : (z.base.ival p).width = 1 := by simp [Dyad.ival, Ival.width]
  rw [Angle.ival, Ival.width_add, h2]
  linarith

/-- From some precision on, the interval of a residual is narrower than any share of `2^p`. -/
theorem Angle.ival_narrow {z : Angle} (h : z.wf) {ε : ℝ} (hε : 0 < ε) : ∃ P : Nat, ∀ p ≥ P, ((z.ival p).width : ℝ) < ε * 2 ^ p := by
  obtain ⟨C, hC⟩ : ∃ C : ℝ, C = 4 * z.terms.length := ⟨_, rfl⟩
  have hlim : Filter.Tendsto (fun p : ℕ => C * ((p : ℝ) ^ 1 / 2 ^ p) + (6 * C + 1) * (1 / 2) ^ p) Filter.atTop (nhds 0) := by
    have h1 := (tendsto_pow_const_div_const_pow_of_one_lt 1 (one_lt_two (α := ℝ))).const_mul C
    have h2 := (tendsto_pow_atTop_nhds_zero_of_lt_one (r := (1 / 2 : ℝ)) (by norm_num) (by norm_num)).const_mul (6 * C + 1)
    simpa using h1.add h2
  obtain ⟨P, hP⟩ := Filter.eventually_atTop.1 (hlim.eventually (gt_mem_nhds hε))
  refine ⟨P, fun p hp => ?_⟩
  have h1 : ((z.ival p).width : ℝ) ≤ z.terms.length * (4 * (p + 6)) + 1 := by exact_mod_cast Angle.ival_width h p
  have h2 : (0 : ℝ) < 2 ^ p := by positivity
  have h3 : C * ((p : ℝ) ^ 1 / 2 ^ p) + (6 * C + 1) * (1 / 2) ^ p = (z.terms.length * (4 * (p + 6)) + 1) / 2 ^ p := by
    rw [hC, div_pow, one_pow]
    field_simp
    ring
  have h4 := hP p hp
  rw [h3, div_lt_iff₀ h2] at h4
  exact h1.trans_lt h4

/-! ### A sum that is 0 is a candidate -/

theorem ratioProduct_of_circ {ts : List AngleTerm} (h : ∀ t ∈ ts, t.atom.mode = .circ) : ratioProduct ts = (1, 1) ∧ atanhSum ts = 0 := by
  induction ts with
  | nil => simp [ratioProduct, atanhSum]
  | cons t ts ih =>
    obtain ⟨neg, atom⟩ := t
    obtain ⟨h1, h2⟩ := ih fun u hu => h u (by simp [hu])
    cases atom with
    | atan num den => simp [ratioProduct, atanhSum, h1, h2]
    | atanh num den => cases h ⟨neg, .atanh num den⟩ (by simp)

theorem gaussProduct_of_hyp {ts : List AngleTerm} (h : ∀ t ∈ ts, t.atom.mode ≠ .circ) : gaussProduct ts = (1, 0) ∧ atanSum ts = 0 := by
  induction ts with
  | nil => simp [gaussProduct, atanSum]
  | cons t ts ih =>
    obtain ⟨neg, atom⟩ := t
    obtain ⟨h1, h2⟩ := ih fun u hu => h u (by simp [hu])
    cases atom with
    | atan num den => exact absurd rfl (h ⟨neg, .atan num den⟩ (by simp))
    | atanh num den => simp [gaussProduct, atanSum, h1, h2]

/-- A sum of arc tangents of rationals is no rational but 0: the square of the product of the Gaussian integers over its norm is
the exponential of `2i` times the sum. -/
theorem atanSum_eq_neg_dyad {ts : List AngleTerm} (h : ∀ t ∈ ts, t.atom.wf) {a : Dyad} (he : (a.toRat : ℝ) + atanSum ts = 0) :
    a.num = 0 := by
  obtain ⟨R, hR, hx, hy⟩ := gaussProduct_polar h
  generalize (gaussProduct ts).1 = x at hx
  generalize (gaussProduct ts).2 = y at hy
  by_contra ha
  have hS : atanSum ts = -(a.num : ℝ) / 2 ^ a.exp := by
    rw [Dyad.toRat] at he
    push_cast at he
    rw [neg_div]
    linarith
  have hn : ((x ^ 2 + y ^ 2 : ℤ) : ℝ) = R ^ 2 := by
    push_cast
    rw [hx, hy]
    linear_combination R ^ 2 * Real.cos_sq_add_sin_sq (atanSum ts)
  have hn0 : 0 < x ^ 2 + y ^ 2 := by
    have : (0 : ℝ) < ((x ^ 2 + y ^ 2 : ℤ) : ℝ) := by rw [hn]; positivity
    exact_mod_cast this
  obtain ⟨w, hw⟩ := Int.eq_ofNat_of_zero_le hn0.le
  refine Laws.exp_gaussian_rational (a := 0) (b := -2 * a.num) (u := x ^ 2 - y ^ 2) (v := 2 * x * y) (c := 2 ^ a.exp) (w := w)
    (by positivity) (by omega) (.inr (by omega)) ?_
  have hwR : (w : ℂ) = (R : ℂ) ^ 2 := by
    have : (w : ℝ) = R ^ 2 := by rw [← hn, hw]; rfl
    exact_mod_cast congrArg (fun r : ℝ => (r : ℂ)) this
  have hxC : (x : ℂ) = R * Complex.cos (atanSum ts) := by exact_mod_cast congrArg (fun r : ℝ => (r : ℂ)) hx
  have hyC : (y : ℂ) = R * Complex.sin (atanSum ts) := by exact_mod_cast congrArg (fun r : ℝ => (r : ℂ)) hy
  have hR' : (R : ℂ) ≠ 0 := by exact_mod_cast hR.ne'
  have e : ((0 : ℤ) + ((-2 * a.num : ℤ) : ℂ) * Complex.I) / ((2 ^ a.exp : ℕ) : ℂ) = ((2 * atanSum ts : ℝ) : ℂ) * Complex.I := by
    rw [hS]
    push_cast
    ring
  rw [e, Complex.exp_mul_I, hwR]
  push_cast
  rw [hxC, hyC, Complex.cos_two_mul', Complex.sin_two_mul]
  field_simp

/-- A sum of area tangents of rationals is no rational but 0: the product of the ratios is the exponential of twice the sum. -/
theorem atanhSum_eq_neg_dyad {ts : List AngleTerm} (h : ∀ t ∈ ts, t.atom.wf) {a : Dyad} (he : (a.toRat : ℝ) + atanhSum ts = 0) :
    a.num = 0 := by
  obtain ⟨hx, hy, hlog⟩ := ratioProduct_log h
  generalize (ratioProduct ts).1 = x at hx hlog
  generalize (ratioProduct ts).2 = y at hy hlog
  by_contra ha
  have hx' : (0 : ℝ) < x := by exact_mod_cast hx
  have hy' : (0 : ℝ) < y := by exact_mod_cast hy
  have hS : Real.log x - Real.log y = -2 * a.num / 2 ^ a.exp := by
    rw [Dyad.toRat, hlog] at he
    push_cast at he
    rw [neg_mul, neg_div]
    linarith [mul_div_assoc 2 (a.num : ℝ) (2 ^ a.exp)]
  obtain ⟨w, rfl⟩ := Int.eq_ofNat_of_zero_le hy.le
  refine Laws.exp_gaussian_rational (a := -2 * a.num) (b := 0) (u := x) (v := 0) (c := 2 ^ a.exp) (w := w)
    (by positivity) (by simpa using hy) (.inl (by omega)) ?_
  have e : (((-2 * a.num : ℤ) : ℂ) + ((0 : ℤ) : ℂ) * Complex.I) / ((2 ^ a.exp : ℕ) : ℂ) = ((Real.log x - Real.log w : ℝ) : ℂ) := by
    have : (Real.log x - Real.log w : ℝ) = -2 * a.num / 2 ^ a.exp := hS
    rw [this]
    push_cast
    ring
  rw [e, ← Complex.ofReal_exp, Real.exp_sub, Real.exp_log hx', Real.exp_log (by simpa using hy')]
  push_cast
  simp

/-- A residual of a run that is 0 is a zero candidate. -/
theorem Angle.zeroCandidate_of_toReal_eq_zero {z : Angle} (h : z.wf) (h0 : z.toReal = 0) : z.zeroCandidate = true := by
  obtain ⟨m, hm⟩ := h
  have hw : ∀ t ∈ z.terms, t.atom.wf := fun t ht => (hm t ht).1
  rw [Angle.toReal, termsToReal_split] at h0
  simp only [Angle.zeroCandidate, Bool.and_eq_true, decide_eq_true_eq, and_assoc]
  by_cases hc : m = .circ
  · obtain ⟨hr, hs⟩ := ratioProduct_of_circ fun t ht => (hm t ht).2.trans hc
    rw [hs, add_zero] at h0
    have hb := atanSum_eq_neg_dyad hw h0
    obtain ⟨R, hR, hx, hy⟩ := gaussProduct_polar hw
    rw [(Dyad.toRat_eq_zero_iff _).2 hb, Rat.cast_zero, zero_add] at h0
    rw [h0] at hx hy
    refine ⟨hb, by simpa using hy, ?_, by rw [hr]⟩
    have : (0 : ℝ) < (gaussProduct z.terms).1 := by rw [hx]; simpa using hR
    exact_mod_cast this
  · obtain ⟨hg, hs⟩ := gaussProduct_of_hyp fun t ht => (hm t ht).2 ▸ hc
    rw [hs, zero_add] at h0
    have hb := atanhSum_eq_neg_dyad hw h0
    obtain ⟨hx, hy, hlog⟩ := ratioProduct_log hw
    rw [(Dyad.toRat_eq_zero_iff _).2 hb, Rat.cast_zero, zero_add] at h0
    have hx' : (0 : ℝ) < (ratioProduct z.terms).1 := by exact_mod_cast hx
    have hy' : (0 : ℝ) < (ratioProduct z.terms).2 := by exact_mod_cast hy
    refine ⟨hb, by rw [hg], by rw [hg]; exact one_pos, ?_⟩
    have := Real.log_injOn_pos (Set.mem_Ioi.2 hx') (Set.mem_Ioi.2 hy') (by linarith)
    exact_mod_cast this

/-! ### The search ends -/

/-- From some precision on, every precision decides the sign. -/
theorem Angle.eventually_decided {z : Angle} (h : z.wf) : ∃ P : Nat, ∀ p ≥ P, ∃ b, z.signAt p = some b := by
  obtain ⟨P, hP⟩ := Angle.ival_narrow h (ε := if z.toReal = 0 then 1 else |z.toReal|) (by
    split
    · exact one_pos
    · exact abs_pos.2 (by assumption))
  refine ⟨P, fun p hp => ?_⟩
  have hw := hP p hp
  obtain ⟨h1, h2⟩ := Angle.ival_has h p
  have h3 : (0 : ℝ) < 2 ^ p := by positivity
  simp only [Ival.width, Int.cast_sub] at hw
  unfold Angle.signAt
  split
  · exact ⟨_, rfl⟩
  · rename_i hlo
    split
    · exact ⟨_, rfl⟩
    · rename_i hhi
      have hlo' : ((z.ival p).lo : ℝ) < 0 := by exact_mod_cast not_le.1 hlo
      have hhi' : (0 : ℝ) ≤ (z.ival p).hi := by exact_mod_cast not_lt.1 hhi
      split at hw
      · rename_i h0
        rw [if_pos]
        · exact ⟨_, rfl⟩
        · simp only [Bool.and_eq_true, decide_eq_true_eq, pow2_eq]
          have h4 : (-2 ^ p : ℝ) ≤ (z.ival p).lo := by linarith
          have h5 : ((z.ival p).hi : ℝ) ≤ 2 ^ p := by linarith
          exact ⟨⟨Angle.zeroCandidate_of_toReal_eq_zero h h0, by exact_mod_cast h4⟩, by exact_mod_cast h5⟩
      · rename_i h0
        exfalso
        rcases lt_or_gt_of_ne h0 with hneg | hpos
        · rw [abs_of_neg hneg] at hw
          linarith
        · rw [abs_of_pos hpos] at hw
          linarith

/-- The search answers what one of its precisions answers, if one of them decides. -/
theorem signSearch_of_decided {z : Angle} {p n : Nat} (h : ∃ b, z.signAt (2 ^ n * p) = some b) :
    ∃ q b, signSearch z p = some b ∧ z.signAt q = some b := by
  induction n generalizing p with
  | zero =>
    obtain ⟨b, hb⟩ := h
    rw [pow_zero, one_mul] at hb
    exact ⟨p, b, by rw [signSearch, hb], hb⟩
  | succ n ih =>
    rw [signSearch]
    cases hp : z.signAt p with
    | some b => exact ⟨p, b, rfl, hp⟩
    | none => exact ih (by rwa [← mul_assoc, ← pow_succ])

/-- The search ends for every residual of a run. -/
theorem signSearch_ends {z : Angle} (h : z.wf) {p : Nat} (hp : 0 < p) : ∃ q b, signSearch z p = some b ∧ z.signAt q = some b := by
  obtain ⟨P, hP⟩ := Angle.eventually_decided h
  refine signSearch_of_decided (n := P) (hP _ ?_)
  calc P ≤ 2 ^ P := Nat.lt_two_pow_self.le
    _ ≤ 2 ^ P * p := Nat.le_mul_of_pos_right _ hp

end Sys2Proof.Machine
end

