-- ==== Sys2Proof/Laws/StageTable.lean ====
section
/-!
SUPPORT. Laws/StageTable.lean: the sufficient condition of spec/44_stage_compressed.md rule R201 for the coverage obligation W6, and
the example table of R213 meets W1 to W6.
-/

namespace Sys2Proof.Machine

/-- A stage keeps a residual below the top of the table: it is left in its bracket, or moved to less than the bracket's width. -/
theorem abs_stage_lt {e : StageEntry} {top : Nat} {r : ℝ} (ht : e.hi ≤ top) (ha : e.angleExact) (hb : e.brackets |r|)
    (hp : e.b = 0 ∨ e.lo ≤ e.phi ∧ e.phi < e.hi) : |r - (if 0 ≤ r then 1 else -1) * e.angle| < (top : ℝ) / 2 ^ 64 := by
  obtain ⟨hlo, hhi⟩ := hb
  have ht' : (e.hi : ℝ) / 2 ^ 64 ≤ (top : ℝ) / 2 ^ 64 := by gcongr
  have habs : |r - (if 0 ≤ r then 1 else -1) * e.angle| = |(|r|) - e.angle| := by
    split
    · rw [one_mul, abs_of_nonneg (a := r) (by assumption)]
    · rw [abs_of_neg (a := r) (by linarith), ← abs_neg]
      congr 1
      ring
  rw [habs]
  rcases hp with h0 | ⟨h1, h2⟩
  · rw [StageEntry.angle, h0, Nat.cast_zero, zero_div, Real.arctan_zero, sub_zero, abs_abs]
    linarith
  · obtain ⟨hphi, -⟩ := ha
    have h3 : (e.phi : ℝ) ≤ e.angle * 2 ^ 64 := by
      have := Int.floor_le (e.angle * 2 ^ 64)
      rw [← hphi] at this
      exact_mod_cast this
    have h4 : e.angle * 2 ^ 64 < e.phi + 1 := by
      have := Int.lt_floor_add_one (e.angle * 2 ^ 64)
      rw [← hphi] at this
      exact_mod_cast this
    have h5 : (e.lo : ℝ) ≤ e.phi := by exact_mod_cast h1
    have h6 : (e.phi : ℝ) + 1 ≤ e.hi := by exact_mod_cast h2
    have h7 : (0 : ℝ) ≤ e.lo := by positivity
    rw [div_le_iff₀ (by positivity)] at hlo
    rw [lt_div_iff₀ (by positivity)] at hhi
    have h8 : (e.hi : ℝ) ≤ top := by exact_mod_cast ht
    rw [abs_lt, lt_div_iff₀ (by positivity), ← neg_div, div_lt_iff₀ (by positivity)]
    constructor <;> linarith

/-- "A sufficient condition: `hi_{M-1} > π/4`, and every `phi_j` with `b_j > 0` lies in its own bracket" (R201). -/
theorem coverage_of_angleInBracket {table : List StageEntry} {top : Nat} (hlast : ∀ e, table.getLast? = some e → e.hi = top)
    (htop : Real.pi / 4 < (top : ℝ) / 2 ^ 64) (hang : ∀ e ∈ table, e.angleExact)
    (hin : ∀ e ∈ table, e.hi ≤ top ∧ (e.b = 0 ∨ e.lo ≤ e.phi ∧ e.phi < e.hi)) : coverage table := by
  intro t ht n hn r hr e he
  rw [hlast e he]
  clear hn
  induction hr with
  | seed => linarith
  | stage _ hb _ =>
    obtain ⟨j, hj, hb, -⟩ := hb
    have hm := List.mem_of_getElem? hj
    exact abs_stage_lt (hin _ hm).1 (hang _ hm) hb (hin _ hm).2

/-- W5 of an entry, checked by the interval of its arc tangent at 128 bits. -/
def angleChecked (e : StageEntry) : Bool :=
  if e.b = 0 then e.phi == 0
  else decide (0 < e.a) && decide ((e.phi : Int) * pow2 64 ≤ (atanIval 128 4 e.b e.a).lo) &&
    decide ((atanIval 128 4 e.b e.a).hi < ((e.phi : Int) + 1) * pow2 64) && decide (e.phi < 2 ^ 64)

theorem angleExact_of_checked {e : StageEntry} (h : angleChecked e = true) : e.angleExact := by
  unfold angleChecked at h
  split at h
  · rename_i h0
    rw [beq_iff_eq] at h
    simp [StageEntry.angleExact, StageEntry.angle, h0, h]
  · simp only [Bool.and_eq_true, decide_eq_true_eq, pow2_eq] at h
    obtain ⟨⟨⟨ha, hlo⟩, hhi⟩, hphi⟩ := h
    obtain ⟨h1, h2⟩ := atanIval_has 128 4 (num := e.b) ha
    have hlo' : (e.phi : ℝ) * 2 ^ 64 ≤ (atanIval 128 4 e.b e.a).lo := by exact_mod_cast hlo
    have hhi' : ((atanIval 128 4 e.b e.a).hi : ℝ) < ((e.phi : ℝ) + 1) * 2 ^ 64 := by exact_mod_cast hhi
    have hphi' : (e.phi : ℝ) + 1 ≤ 2 ^ 64 := by exact_mod_cast hphi
    have e1 : (2 : ℝ) ^ 128 = 2 ^ 64 * 2 ^ 64 := by norm_num
    have hP : (0 : ℝ) < 2 ^ 64 := by positivity
    rw [e1] at h1 h2
    have h3 : (e.phi : ℝ) ≤ e.angle * 2 ^ 64 := by
      rw [StageEntry.angle]
      nlinarith
    have h4 : e.angle * 2 ^ 64 < e.phi + 1 := by
      rw [StageEntry.angle]
      nlinarith
    refine ⟨(Int.floor_eq_iff.2 ⟨by exact_mod_cast h3, by exact_mod_cast h4⟩).symm, ?_⟩
    nlinarith

/-- The parameters of `State.reset` are admissible. -/
theorem exampleParams_admissible : exampleParams.Admissible := by
  have hang : ∀ e ∈ exampleStageTable, e.angleExact := fun e he =>
    angleExact_of_checked (List.all_eq_true.1 (by decide +kernel : exampleStageTable.all angleChecked = true) e he)
  refine ⟨by decide +kernel, hang, coverage_of_angleInBracket (top := 0xE577D42968D8AFA6) (fun e he => ?_) ?_ hang ?_⟩
  · have : exampleStageTable.getLast? = some ⟨0xCEBD1A0798671C45, 0xE577D42968D8AFA6, 21, 24, 5, 0xDA1A7718809FE5F5⟩ := by
      decide +kernel
    change exampleStageTable.getLast? = some e at he
    rw [this] at he
    cases he
    rfl
  · have := Real.pi_lt_d2
    norm_num
    linarith
  · change ∀ e ∈ exampleStageTable, _
    decide +kernel

end Sys2Proof.Machine
end

