-- ==== Sys2Proof/Tests/Slice0.lean ====
section
/-!
SUPPORT. Tests/Slice0.lean: small checks of the model against the worked values of spec/95_test_vectors.md and the rules named, and
for every statement with hypotheses a concrete state and operands that meet them.
-/

-- Each kernel evaluation below waits for the ones before it; elaborating one theorem at a time keeps few threads waiting.
set_option Elab.async false

open Sys2Proof Sys2Proof.Machine

namespace Sys2Proof.Tests

/-! ### Helpers -/

/-- The state a result holds; the reset state where it holds none. -/
def after : Result → State
  | .next t => t
  | .fault _ => State.reset
  | .refused _ => State.reset

/-- What STATUS reads as after a result. -/
def statusAfter (r : Result) : ResVal := (after r).readReg 1

/-- `fmt(W, F)` as a register. -/
def fmtReg (w f : Nat) : FmtReg := FmtReg.ofWord (fmtWord w f)

/-- A quiescent block with FMT_IN, FMT_OUT and two operands written. -/
def prim (fin fout : FmtReg) (a b : Word) : State :=
  { State.reset with ins := { InRegs.reset with fmtIn := fin, fmtOut := fout, opA := a, opB := b } }

/-- A quiescent block with FMT_XY = FMT_Z = Q(16, 13) and the operands written. -/
def eng (a b c d : Word) : State :=
  { State.reset with ins := { InRegs.reset with fmtXy := fmtReg 16 13, fmtZ := fmtReg 16 13, opA := a, opB := b, opC := c, opD := d } }

/-- The issue of a command and one engine step. -/
def issueAndStep (i : Instr) (s : State) : Result := engineStep (after (exec i s))

/-! ### Well-formedness refuses an operand that its field cannot hold (R79) -/

theorem test_wf_shr : Instr.wellFormed (.shr 64) = false ∧ Instr.wellFormed (.shr 63) = true := by decide
theorem test_wf_rotCircA : Instr.wellFormed (.rotCircA true 128) = false ∧ Instr.wellFormed (.rotCircA true 127) = true := by decide
theorem test_wf_rotCircI : Instr.wellFormed (.rotCircI true 128) = false ∧ Instr.wellFormed (.rotCircI true 127) = true := by decide
theorem test_wf_vecCircA : Instr.wellFormed (.vecCircA true 128) = false ∧ Instr.wellFormed (.vecCircA true 127) = true := by decide
theorem test_wf_vecCircI : Instr.wellFormed (.vecCircI true 128) = false ∧ Instr.wellFormed (.vecCircI true 127) = true := by decide
theorem test_wf_rotHypA : Instr.wellFormed (.rotHypA true 128) = false ∧ Instr.wellFormed (.rotHypA true 127) = true := by decide
theorem test_wf_rotHypI : Instr.wellFormed (.rotHypI true 128) = false ∧ Instr.wellFormed (.rotHypI true 127) = true := by decide
theorem test_wf_divLinA : Instr.wellFormed (.divLinA true 128) = false ∧ Instr.wellFormed (.divLinA true 127) = true := by decide
theorem test_wf_divLinI : Instr.wellFormed (.divLinI true 128) = false ∧ Instr.wellFormed (.divLinI true 127) = true := by decide
theorem test_wf_rotFastA : Instr.wellFormed (.rotFastA true 128) = false ∧ Instr.wellFormed (.rotFastA true 127) = true := by decide
theorem test_wf_rotFastI : Instr.wellFormed (.rotFastI true 128) = false ∧ Instr.wellFormed (.rotFastI true 127) = true := by decide

/-! ### Words written out from R79's layout: OP [3:0], SEM [4], EE [5], ITER [14:8], SHAMT [21:16] -/

theorem test_decode_quant : decode 0b0000#64 = .ok .quant := by rfl
theorem test_decode_neg : decode 0b0001#64 = .ok .neg := by rfl
theorem test_decode_add : decode 0b0010#64 = .ok .add := by rfl
theorem test_decode_shr : decode 0b100101_0_0000000_00_0_0_0011#64 = .ok (.shr 37) := by rfl
theorem test_decode_rotCircA : decode 0b0001000_00_0_0_0100#64 = .ok (.rotCircA false 8) := by rfl
theorem test_decode_rotCircI : decode 0b0001000_00_0_1_0100#64 = .ok (.rotCircI false 8) := by rfl
theorem test_decode_vecCircA : decode 0b1000000_00_1_0_0101#64 = .ok (.vecCircA true 64) := by rfl
theorem test_decode_vecCircI : decode 0b0010000_00_0_1_0101#64 = .ok (.vecCircI false 16) := by rfl
theorem test_decode_rotHypA : decode 0b0000100_00_0_0_0110#64 = .ok (.rotHypA false 4) := by rfl
theorem test_decode_rotHypI : decode 0b1111111_00_1_1_0110#64 = .ok (.rotHypI true 127) := by rfl
theorem test_decode_divLinA : decode 0b0010000_00_1_0_0111#64 = .ok (.divLinA true 16) := by rfl
theorem test_decode_divLinI : decode 0b0010000_00_1_1_0111#64 = .ok (.divLinI true 16) := by rfl
theorem test_decode_rotFastA : decode 0b0001000_00_1_0_1000#64 = .ok (.rotFastA true 8) := by rfl
theorem test_decode_rotFastI : decode 0b0001000_00_1_1_1000#64 = .ok (.rotFastI true 8) := by rfl
/-- R80: SHAMT and ITER are ignored by QUANT, SHAMT by an engine command. -/
theorem test_decode_ignored : decode 0x3F7F20#64 = .ok .quant ∧ decode 0x3F0804#64 = .ok (.rotCircA false 8) := ⟨by rfl, by rfl⟩
/-- R84, and the order of R225: reserved bits come first. -/
theorem test_decode_refused :
    decode 0x0884#64 = .error .reservedBits ∧ decode 0x0889#64 = .error .reservedBits ∧ decode 0x0809#64 = .error .reservedOp ∧
      decode 0x0010#64 = .error .semNotAllowed ∧ decode 0x001F#64 = .error .reservedOp ∧
      decode 0x8000000000000004#64 = .error .reservedBits ∧ decode 0x8004#64 = .error .reservedBits :=
  ⟨by rfl, by rfl, by rfl, by rfl, by rfl, by rfl, by rfl⟩
/-- R89's examples, encoded. -/
theorem test_encode :
    encode (.rotCircA false 8) = 0x0804#64 ∧ encode (.shr 3) = 0x30003#64 ∧ encode (.divLinI true 16) = 0x1037#64 := by decide

/-! ### Primitives: the vectors of section 2.1 -/

theorem test_quant_tie :
    (after (exec .quant (prim (fmtReg 0 0) (fmtReg 8 4) 0x108000000 0))).readReg 10 = .word 16 ∧
      statusAfter (exec .quant (prim (fmtReg 0 0) (fmtReg 8 4) 0x108000000 0)) = .word 0x4 := by decide
theorem test_quant_saturates :
    (after (exec .quant (prim (fmtReg 0 0) (fmtReg 8 4) 0xFFFFFF9C00000000 0))).outs =
      { OutRegs.reset with rx := .word 0xFFFFFFFFFFFFFF80, inA := 0xFFFFFF9C00000000, out := 0x80 } := by decide
theorem test_neg_min :
    (after (exec .neg (prim (fmtReg 8 4) (fmtReg 8 4) 0xFFFFFFF800000000 0))).outs =
      { OutRegs.reset with rx := .word 127, inA := 0x80, out := 0x7F } := by decide
theorem test_neg_above_max :
    statusAfter (exec .neg (prim (fmtReg 8 4) (fmtReg 8 4) 0x800000000 0)) = .word 0x1001125 := by decide
theorem test_add_saturates_twice :
    (after (exec .add (prim (fmtReg 8 4) (fmtReg 6 2) 0x700000000 0x200000000))).outs =
      { OutRegs.reset with rx := .word 31, inA := 0x70, inB := 0x20, out := 0x1F } := by decide
theorem test_add_operands_saturate_first :
    (after (exec .add (prim (fmtReg 8 4) (fmtReg 8 4) 0x6400000000 0xFFFFFF9C00000000))).outs.out = 0xFF := by decide
theorem test_shr_floor :
    (after (exec (.shr 2) (prim (fmtReg 8 4) (fmtReg 8 4) 0xFFFFFFFE70000000 0))).outs =
      { OutRegs.reset with rx := .word 0xFFFFFFFFFFFFFFF9, inA := 0xE7, out := 0xF9 } := by decide
theorem test_shr_largest_amount :
    (after (exec (.shr 63) (prim (fmtReg 8 4) (fmtReg 8 4) 0xFFFFFFFFF0000000 0))).outs.out = 0xFF := by decide

/-! ### Engine commands: the one-iteration vectors of sections 1.8 and 2.5, and one iteration by hand from R168 to R171 -/

/-- Section 1.8: ROT.CIRC.A n=1 at 45 degrees. -/
theorem test_rotCircA_one_iteration :
    (after (issueAndStep (.rotCircA false 1) (eng 0x100000000 0 0xC90FDAA2 0))).outs.rx = .word 7326 ∧
      (after (issueAndStep (.rotCircA false 1) (eng 0x100000000 0 0xC90FDAA2 0))).outs.ry = .word 3663 := by decide +kernel
/-- Section 2.6. -/
theorem test_rotCircA_target_below_min :
    statusAfter (exec (.rotCircA false 8) (eng 0x100000000 0 0xFFFFFFFBFFF97247 0)) = .word 0x4002325 := by decide +kernel
/-- Section 1.8: 0.8944 and 0.4472 are `K` and `K/2` with `K^2 = 4/5`. -/
theorem test_rotCircI_one_iteration :
    (after (issueAndStep (.rotCircI false 1) (eng 0x100000000 0 0xC90FDAA2 0))).outs.rx = .real (.scaled ⟨1, 0⟩ 4 5) ∧
      (after (issueAndStep (.rotCircI false 1) (eng 0x100000000 0 0xC90FDAA2 0))).outs.ry = .real (.scaled ⟨1, 1⟩ 4 5) := by
  decide +kernel
/-- R169 with the seed 7327 and `θq(circ, 1) = 3798` (section 2.2): `y = 0` takes `d = +1`. -/
theorem test_vecCircA_one_iteration :
    (after (issueAndStep (.vecCircA false 1) (eng 0x100000000 0 0 0))).eng.fix = ⟨7327, -3664, 3798⟩ := by decide +kernel
/-- R169 by hand: `(1, 1)` goes to `(3/2, 1/2)`. -/
theorem test_vecCircI_one_iteration :
    (after (issueAndStep (.vecCircI false 1) (eng 0x100000000 0x100000000 0 0))).outs.rx = .real (.scaled ⟨3, 1⟩ 4 5) ∧
      (after (issueAndStep (.vecCircI false 1) (eng 0x100000000 0x100000000 0 0))).outs.ry = .real (.scaled ⟨1, 1⟩ 4 5) := by
  decide +kernel
/-- R170 with the seed `RoundInt(1.1547 · 2^13) = 9459` and `θq(hyp, 1) = 4500` (section 2.2). -/
theorem test_rotHypA_one_iteration :
    (after (issueAndStep (.rotHypA false 1) (eng 0x100000000 0 0 0))).eng.fix = ⟨9459, 4729, -4501⟩ := by decide +kernel
/-- Section 2.6: 3.5 · K_hyp(8) is above P.max. -/
theorem test_rotHypA_seed_above_max :
    statusAfter (exec (.rotHypA false 8) (eng 0x380000000 0 0 0)) = .word 0x6001425 := by decide +kernel
/-- R170 by hand, `K^2 = 4/3`. -/
theorem test_rotHypI_one_iteration :
    (after (issueAndStep (.rotHypI false 1) (eng 0x100000000 0 0x100000000 0))).outs.ry = .real (.scaled ⟨1, 1⟩ 4 3) ∧
      (after (issueAndStep (.rotHypI false 1) (eng 0x100000000 0 0x100000000 0))).outs.rz =
        .real (.angle ⟨⟨1, 0⟩, [⟨true, .atanh 1 2⟩]⟩) := by decide +kernel
/-- R171 by hand for 1/2: equal signs take `d = -1`, and the subtraction is biased. -/
theorem test_divLinA_one_iteration :
    (after (issueAndStep (.divLinA false 1) (eng 0x200000000 0x100000000 0 0))).eng.fix = ⟨16384, -1, 4096⟩ := by decide +kernel
/-- Section 2.6. -/
theorem test_divLinA_zero_divisor :
    statusAfter (exec (.divLinA false 16) (eng 0 0x100000000 0 0)) = .word 0x7000145 := by decide +kernel
/-- Section 2.4: DIV.LIN.I n=16 ee=1 of 1 by 2 ends CONVERGED_EARLY after one entry with 2, 0, 0.5. -/
theorem test_divLinI_converges :
    statusAfter (issueAndStep (.divLinI true 16) (eng 0x200000000 0x100000000 0 0)) = .word 0x17010002 ∧
      (after (issueAndStep (.divLinI true 16) (eng 0x200000000 0x100000000 0 0))).outs.rz = .real (.angle ⟨⟨1, 1⟩, []⟩) := by
  decide +kernel
/-- Section 2.5: ROT.FAST.A n=1. -/
theorem test_rotFastA_one_stage :
    (after (issueAndStep (.rotFastA false 1) (eng 0x100000000 0 0x1999999A 0))).outs =
      { OutRegs.reset with rx := .word 8192, ry := .word 1024, rz := .word 0xFFFFFFFFFFFFFF37 } ∧
    statusAfter (issueAndStep (.rotFastA false 1) (eng 0x100000000 0 0x1999999A 0)) = .word 0x8010003 := by decide +kernel
/-- Section 2.5: ROT.FAST.A n=4 outside the coverage. -/
theorem test_rotFastA_coverage :
    statusAfter (issueAndStep (.rotFastA false 4) (eng 0x100000000 0 0x100000000 0)) = .word 0x8000245 := by decide +kernel
/-- R211: with `z = 0` the identity stage leaves `z = 0`. -/
theorem test_rotFastI_identity_stage :
    (after (issueAndStep (.rotFastI false 1) (eng 0x100000000 0 0 0))).outs =
      { OutRegs.reset with rx := .real (.quot ⟨1, 0⟩ 1), ry := .real (.quot ⟨0, 0⟩ 1), rz := .real (.angle ⟨⟨0, 0⟩, []⟩) } := by
  decide +kernel

/-- R10: `sgnp(0) = +1` for a sum of angles that is 0, by Machin's and Euler's formulas for `π/4 = atan 1`; a unit of `2^-32` beside
it decides. -/
theorem test_sign_of_zero_sum :
    (⟨⟨0, 0⟩, [⟨false, .atan 1 1⟩, ⟨true, .atan 1 2⟩, ⟨true, .atan 1 3⟩]⟩ : Angle).nonneg = true ∧
      (⟨⟨0, 0⟩, [⟨false, .atan 1 239⟩, ⟨true, .atan 1 5⟩, ⟨true, .atan 1 5⟩, ⟨true, .atan 1 5⟩, ⟨true, .atan 1 5⟩,
        ⟨false, .atan 1 1⟩]⟩ : Angle).nonneg = true ∧
      (⟨⟨-1, 32⟩, [⟨false, .atan 1 1⟩, ⟨true, .atan 1 2⟩, ⟨true, .atan 1 3⟩]⟩ : Angle).nonneg = false := by decide +kernel

/-! ### Host actions: section 2.7 -/

theorem test_write_drops_unstored_bits :
    (after (step { State.reset with pending := [.write 4 0xFFFFFFFFFFFFFFFF] })).readReg 4 = .word 0x3F3F := by decide
theorem test_write_to_status_is_ignored :
    (after (step { State.reset with pending := [.write 1 0xFFFF] })).readReg 1 = .word 0 := by decide
/-- Section 2.7: a QUANT written while ROT.CIRC.A runs is dropped and sets OVR. -/
theorem test_command_dropped :
    statusAfter (step { after (exec (.rotCircA false 8) (eng 0x100000000 0 0xC90FDAA2 0)) with pending := [.write 0 0] }) =
      .word 0x4000019 := by decide +kernel
/-- Section 2.7: Reset while RUNNING. -/
theorem test_reset_while_running :
    statusAfter (step { after (exec (.rotCircA false 8) (eng 0x100000000 0 0xC90FDAA2 0)) with pending := [.reset] }) =
      .word 0 := by decide +kernel
/-- A busy poll of WAIT hands the engine one turn and polls again (log entry 3). -/
theorem test_wait_polls_again :
    (after (step { after (exec (.rotCircA false 8) (eng 0x100000000 0 0xC90FDAA2 0)) with pending := [.wait] })).pending =
      [.engine, .wait] := by decide +kernel
/-- Section 2.2. -/
theorem test_angles :
    thetaQ .halfEven .circ 1 ⟨16, 13⟩ = 3798 ∧ thetaQ .halfEven .hyp 1 ⟨16, 13⟩ = 4500 ∧ thetaQ .halfEven .circ 14 ⟨16, 13⟩ = 0 ∧
      thetaQ .halfEven .hyp 14 ⟨16, 13⟩ = 1 ∧ thetaQ .halfEven .lin 14 ⟨16, 13⟩ = 0 ∧ thetaQ .halfAway .lin 14 ⟨16, 13⟩ = 1 ∧
      angleTable .hyp 4 = [1, 2, 3, 4] ∧ angleTable .hyp 5 = [1, 2, 3, 4, 4] := by decide +kernel

/-! ### Witnesses: for each statement with hypotheses, a state and operands that meet them, clause by clause -/

/-- A host value that rounds to `n` in a format. -/
theorem isRoundInt_of_roundTo {m : RoundMode} {h : Word} {f : Fmt} {n : Int} (e : roundTo m (hv h) f = n) :
    IsRoundInt m (hvRat h * 2 ^ f.fracBits) n := by
  rw [← hv_toRat, ← e]
  exact roundTo_spec ..

/-- A gain-scaled host value that rounds to `n` in a format. -/
theorem isRoundInt_of_scaledSeed {m : RoundMode} {kw : Nat} {h : Word} {f : Fmt} {n : Int}
    (e : roundTo m (scaledSeed kw h) f = n) : IsRoundInt m ((kw : ℚ) / 2 ^ 64 * hvRat h * 2 ^ f.fracBits) n := by
  rw [← scaledSeed_toRat, ← e]
  exact roundTo_spec ..

/-- A running ROT.CIRC.A, with the host's next actions. -/
def running (pending : List HostEvent) : State :=
  { after (exec (.rotCircA false 8) (eng 0x100000000 0 0xC90FDAA2 0)) with pending := pending }

/-- The running state of a command that was just issued from `eng` with 1, 0, π/4 and eps 0. -/
def started (i : Instr) : State := after (exec i (eng 0x100000000 0 0xC90FDAA2 0))

/-- A completed QUANT, ADD, NEG or SHR state in Q(8, 4) with OPA = 3/2 and OPB = 1. -/
def primState : State := prim (fmtReg 8 4) (fmtReg 8 4) 0x180000000 0x100000000

/-- A state of the engine for each value of STATE. -/
theorem witness_StatusWordLayout :
    ∀ e ∈ [EngState.idle, .running, .convergedEarly, .exhausted, .done, .error],
      ({ State.reset with status := { Status.reset with state := e } } : State).status.state = e := by decide
/-- Each of the eight RW addresses, with the ends of the two ranges. -/
theorem witness_WriteStoresTheWordAndNothingElse :
    ∀ a ∈ [(0x02 : Addr), 0x03, 0x04, 0x05, 0x06, 0x07, 0x08, 0x09],
      ({ State.reset with pending := [.write a 5] } : State).pending = .write a 5 :: [] ∧ 2 ≤ a.toNat ∧ a.toNat ≤ 9 := by decide
theorem witness_ReservedAndReadOnlyAddresses :
    ({ State.reset with pending := [.write 1 5] } : State).pending = .write 1 5 :: [] ∧ (1 : Addr).toNat = 1 ∧
      10 ≤ (10 : Addr).toNat ∧ 10 ≤ (255 : Addr).toNat ∧ 16 ≤ (16 : Addr).toNat := by decide
theorem witness_HostReadChangesNothing :
    (running [.read 1]).pending = .read 1 :: [] ∧ (running [.wait]).pending = .wait :: [] ∧ (running [.wait]).running = true ∧
      ({ State.reset with pending := [.wait] } : State).running = false := by decide +kernel
theorem witness_ResetClearsTheHostRegisters : (running [.reset]).pending = .reset :: [] ∧ (running [.reset]).running = true := by
  decide +kernel
theorem witness_DecodeEncodeRoundTrip :
    (Instr.shr 63).wellFormed = true ∧ (Instr.rotFastI true 127).wellFormed = true ∧ (Instr.rotCircA false 0).wellFormed = true ∧
      Instr.add.wellFormed = true := by decide
theorem witness_DecodeFollowsTheOpcodeMap :
    decode 0x3F0804#64 = .ok (.rotCircA false 8) ∧ 0x3F0804#64 &&& 0xFFFFFFFFFFC080DF#64 = matchWord (.rotCircA true 0) :=
  ⟨by rfl, by decide⟩
theorem witness_OperandsAreTheWordsFields :
    decode 0x3F0003#64 = .ok (.shr 63) ∧ decode 0x7F34#64 = .ok (.rotCircI true 127) ∧ decode 0x0008#64 = .ok (.rotFastA false 0) :=
  ⟨by rfl, by rfl, by rfl⟩
theorem witness_IgnoredFieldsHaveNoEffect :
    (0x3F7F20#64 &&& 0xFFFFFFFFFFC080DF#64 = 0x0#64 &&& 0xFFFFFFFFFFC080DF#64 ∧ opField 0x3F7F20#64 ≠ 3 ∧
        (opField 0x3F7F20#64).toNat < 4) ∧
      (0x37F23#64 &&& 0xFFFFFFFFFFC080DF#64 = 0x30003#64 &&& 0xFFFFFFFFFFC080DF#64 ∧ opField 0x37F23#64 = 3 ∧
        0x37F23#64 &&& 0x3F0000#64 = 0x30003#64 &&& 0x3F0000#64) ∧
      (0x3F0804#64 &&& 0xFFFFFFFFFFC080DF#64 = 0x0804#64 &&& 0xFFFFFFFFFFC080DF#64 ∧ 4 ≤ (opField 0x3F0804#64).toNat ∧
        0x3F0804#64 &&& 0x7F20#64 = 0x0804#64 &&& 0x7F20#64) := by decide
theorem witness_ReservedWordsRaiseConfigError :
    State.reset.running = false ∧ 0x40#64 &&& 0xFFFFFFFFFFC080C0#64 ≠ 0 ∧ 0x8000000000000000#64 &&& 0xFFFFFFFFFFC080C0#64 ≠ 0 ∧
      (0x9#64 &&& 0xFFFFFFFFFFC080C0#64 = 0 ∧ 9 ≤ ((0x9#64).extractLsb' 0 4).toNat) ∧
      (0x1F#64 &&& 0xFFFFFFFFFFC080C0#64 = 0 ∧ 9 ≤ ((0x1F#64).extractLsb' 0 4).toNat) ∧
      (0x13#64 &&& 0xFFFFFFFFFFC080C0#64 = 0 ∧ ((0x13#64).extractLsb' 0 4).toNat ≤ 3 ∧ (0x13#64).getLsbD 4 = true) := by decide
theorem witness_ErrorCodesAndDetails :
    Cause.iterZero.code = Cause.iterZero.code ∧ Cause.iterZero.detail = Cause.iterZero.detail := ⟨rfl, rfl⟩
/-- A word that decodes to a command, and one that does not. -/
theorem witness_StepIssuesTheDecodedCommand :
    ({ State.reset with pending := [.write 0 0x0804] } : State).pending = .write 0 0x0804 :: [] ∧
      decode 0x0804#64 = .ok (.rotCircA false 8) ∧ decodeTableWord 64 0x0804 = some (.rotCircA false 8) ∧
      decodeTableWord 16 0x1037 = some (.divLinI true 16) ∧
      ({ State.reset with pending := [.write 0 0x40] } : State).pending = .write 0 0x40 :: [] ∧
      decode 0x40#64 = .error .reservedBits := ⟨rfl, by rfl, by decide, by decide, rfl, by rfl⟩
theorem witness_EngineStepsOnlyWhileRunning :
    (running []).pending = [] ∧ (running []).running = true ∧ (running [.engine]).pending = .engine :: [] ∧
      State.reset.pending = [] ∧ State.reset.running = false := by decide +kernel
theorem witness_CommandIsDroppedWhileRunning :
    (running [.write 0 0]).pending = .write 0 0 :: [] ∧ (running [.write 0 0]).running = true := by decide +kernel
/-- Both outcomes of an issue: refused, and not. -/
theorem witness_IssueClearsTheReport :
    State.reset.running = false ∧ (after (writeCmd 0 State.reset)).status.state = .error ∧ primState.running = false ∧
      (after (writeCmd 0 primState)).status.state ≠ .error := by decide +kernel
theorem witness_ErrorAtIssueWritesOnlyStatus :
    State.reset.running = false ∧ writeCmd 0 State.reset = .next (after (writeCmd 0 State.reset)) ∧
      (after (writeCmd 0 State.reset)).status.state = .error := ⟨rfl, rfl, rfl⟩
/-- A failing check of each of the steps 4 to 7 of R225, and commands with no failing check. -/
theorem witness_ValidationOrder :
    State.reset.running = false ∧ firstFailure (checks .add State.reset) = some (.format .fmtIn .width) ∧
      firstFailure (checks (.rotCircI true 0) State.reset) = some .iterZero ∧
      firstFailure (checks (.rotCircI true 65) State.reset) = some .iterTooLarge ∧
      firstFailure (checks (.rotHypA false 8) (eng 0x380000000 0 0 0)) = some (.range .seedX .aboveMax) ∧
      firstFailure (checks (.divLinA false 8) (eng 0 0 0 0)) = some .zeroDivisor ∧
      firstFailure (checks .add primState) = none ∧ firstFailure (checks (.rotFastA false 64) (eng 0 0 0 0)) = none := by
  decide +kernel
theorem witness_PrimitiveFrame :
    isPrimitive .add = true ∧ (∃ t, exec .add primState = .next t ∧ t.status.state = .done) ∧
      ∃ t, exec .add (running []) = .next t ∧ (running []).running = true := ⟨rfl, ⟨_, rfl, rfl⟩, ⟨_, rfl, by decide +kernel⟩⟩
theorem witness_EngineIssueFrame :
    isPrimitive (.rotCircA false 8) = false ∧
      (∃ t, exec (.rotCircA false 8) (eng 0x100000000 0 0xC90FDAA2 0) = .next t ∧ t.status.state = .running) ∧
      (∃ t, exec (.rotCircA false 0) (eng 0x100000000 0 0xC90FDAA2 0) = .next t ∧ t.status.state ≠ .running) ∧
      ∃ t, exec (.rotCircA false 8) (running []) = .next t ∧ (running []).running = true :=
  ⟨rfl, ⟨_, rfl, by decide +kernel⟩, ⟨_, rfl, by decide +kernel⟩, ⟨_, rfl, by decide +kernel⟩⟩
/-- A value inside Q(8, 4) and one beyond each end. -/
theorem witness_QuantizeSaturatesWhereEncodeRefuses :
    (IsRoundInt .halfEven ((hv 0x108000000).toRat * 2 ^ (⟨8, 4⟩ : Fmt).fracBits) 16 ∧ (⟨8, 4⟩ : Fmt).holds 16) ∧
      (IsRoundInt .halfEven ((hv 0x800000000).toRat * 2 ^ (⟨8, 4⟩ : Fmt).fracBits) 128 ∧ (2 : Int) ^ (8 - 1) - 1 < 128) ∧
      (IsRoundInt .halfEven ((hv 0xFFFFFFF7F0000000).toRat * 2 ^ (⟨8, 4⟩ : Fmt).fracBits) (-129) ∧
        (-129 : Int) ≤ 2 ^ (8 - 1) - 1 ∧ (-129 : Int) < -2 ^ (8 - 1)) := by
  refine ⟨⟨?_, by decide⟩, ⟨?_, by decide⟩, ⟨?_, by decide, by decide⟩⟩ <;> rw [hv_toRat] <;>
    exact isRoundInt_of_roundTo (by decide)
theorem witness_InLoopPrimitives :
    (⟨8, 4⟩ : Fmt).valid ∧ (⟨8, 4⟩ : Fmt).holds (-128) ∧ (⟨8, 4⟩ : Fmt).holds 127 ∧ (⟨1, 0⟩ : Fmt).valid ∧ (⟨1, 0⟩ : Fmt).holds 0 ∧
      (⟨32, 31⟩ : Fmt).valid ∧ (⟨32, 31⟩ : Fmt).holds (2 ^ 31 - 1) := by
  decide
theorem witness_LawsOfThePrimitives :
    (⟨8, 4⟩ : Fmt).valid ∧ (⟨0, 0⟩ : Dyad).toRat ≤ (⟨1, 0⟩ : Dyad).toRat ∧ (⟨8, 4⟩ : Fmt).holds (-128) ∧
      (-128 : Int) = -2 ^ (8 - 1) ∧ (⟨1, 0⟩ : Fmt).holds (-1) := by
  refine ⟨by decide, by norm_num [Dyad.toRat], by decide, by decide, by decide⟩
/-- A valid FMT_OUT, and the invalid one of reset. -/
theorem witness_QuantRule :
    primState.running = false ∧ primState.ins.fmtOut.fmt.valid ∧
      IsRoundInt primState.params.roundMode (hvRat primState.ins.opA * 2 ^ primState.ins.fmtOut.fmt.fracBits) 24 ∧
      State.reset.running = false ∧ ¬State.reset.ins.fmtOut.fmt.valid :=
  ⟨rfl, by decide, isRoundInt_of_roundTo (by decide), rfl, by decide⟩
/-- The hypotheses NEG and SHR share, for an operand inside the format and for one beyond each end. -/
theorem witness_NegRule_ShrRule :
    primState.running = false ∧ primState.ins.fmtIn.fmt.valid ∧ primState.ins.fmtOut.fmt.valid ∧
      IsRoundInt primState.params.roundMode (hvRat primState.ins.opA * 2 ^ primState.ins.fmtIn.fmt.fracBits) 24 ∧
      primState.ins.fmtIn.fmt.holds 24 ∧
      IsRoundInt .halfEven (hvRat 0x800000000 * 2 ^ (⟨8, 4⟩ : Fmt).fracBits) 128 ∧ (2 : Int) ^ (8 - 1) - 1 < 128 ∧
      IsRoundInt .halfEven (hvRat 0xFFFFFFF7F0000000 * 2 ^ (⟨8, 4⟩ : Fmt).fracBits) (-129) ∧ (-129 : Int) < -2 ^ (8 - 1) :=
  ⟨rfl, by decide, by decide, isRoundInt_of_roundTo (by decide), by decide, isRoundInt_of_roundTo (by decide), by decide,
    isRoundInt_of_roundTo (by decide), by decide⟩
/-- The results `r` the clauses of NEG and SHR quantify over exist for every operand: here for 24 and a shift by 2. -/
theorem witness_NegRule_ShrRule_result :
    (∃ r, IsRoundInt primState.params.roundMode
      (((-24 - 1 : Int) : ℚ) / 2 ^ primState.ins.fmtIn.fmt.fracBits * 2 ^ primState.ins.fmtOut.fmt.fracBits) r) ∧
    ∃ r, IsRoundInt primState.params.roundMode
      ((⌊((24 : Int) : ℚ) / 2 ^ 2⌋ : ℚ) / 2 ^ primState.ins.fmtIn.fmt.fracBits * 2 ^ primState.ins.fmtOut.fmt.fracBits) r := by
  constructor
  · exact ⟨_, roundTo_spec primState.params.roundMode (primState.ins.fmtIn.fmt.val (-24 - 1)) primState.ins.fmtOut.fmt⟩
  · exact ⟨_, roundTo_spec primState.params.roundMode
      (primState.ins.fmtIn.fmt.val ⌊((24 : Int) : ℚ) / 2 ^ 2⌋) primState.ins.fmtOut.fmt⟩
theorem witness_AddRule :
    primState.running = false ∧ primState.ins.fmtIn.fmt.valid ∧ primState.ins.fmtOut.fmt.valid ∧
      IsRoundInt primState.params.roundMode (hvRat primState.ins.opA * 2 ^ primState.ins.fmtIn.fmt.fracBits) 24 ∧
      IsRoundInt primState.params.roundMode (hvRat primState.ins.opB * 2 ^ primState.ins.fmtIn.fmt.fracBits) 16 ∧
      ∃ r, IsRoundInt primState.params.roundMode
        ((primState.ins.fmtIn.fmt.sat (primState.ins.fmtIn.fmt.sat 24 + primState.ins.fmtIn.fmt.sat 16) : ℚ) /
          2 ^ primState.ins.fmtIn.fmt.fracBits * 2 ^ primState.ins.fmtOut.fmt.fracBits) r :=
  ⟨rfl, by decide, by decide, isRoundInt_of_roundTo (by decide), isRoundInt_of_roundTo (by decide),
    ⟨_, roundTo_spec primState.params.roundMode (primState.ins.fmtIn.fmt.val _) primState.ins.fmtOut.fmt⟩⟩
theorem witness_BitStringsAgreeWithValues :
    isPrimitive .neg = true ∧ primState.running = false ∧
      (∃ t, exec .neg primState = .next t ∧ t.status.state = .done) ∧
      IsRoundInt primState.params.roundMode (hvRat primState.ins.opA * 2 ^ primState.ins.fmtIn.fmt.fracBits) 24 :=
  ⟨rfl, rfl, ⟨_, rfl, rfl⟩, isRoundInt_of_roundTo (by decide)⟩
theorem witness_AngleTablePositions :
    64 ≤ 64 ∧ 1 ≤ 1 ∧ (1 ≤ 64 ∧ 64 ≤ 64) ∧ (angleTable .hyp 64)[14 - 1]? = some 13 ∧ (angleTable .hyp 64)[15 - 1]? = some 13 ∧
      (angleTable .hyp 64)[42 - 1]? = some 40 ∧ (angleTable .hyp 64)[43 - 1]? = some 40 := by decide +kernel
theorem witness_tables : (1 ≤ 1 ∧ 1 ≤ 64) ∧ (1 ≤ 64 ∧ 64 ≤ 64) ∧ (⟨16, 13⟩ : Fmt).valid ∧ (⟨32, 31⟩ : Fmt).valid := by decide

/-- The formats and budget of the acceptance statements. -/
theorem witness_formats_budget :
    (eng 0x100000000 0 0xC90FDAA2 0).running = false ∧ (eng 0x100000000 0 0xC90FDAA2 0).ins.fmtXy.fmt.valid ∧
      (eng 0x100000000 0 0xC90FDAA2 0).ins.fmtZ.fmt.valid ∧ 1 ≤ 1 ∧ 1 ≤ 64 ∧ 64 ≤ 64 := by decide
theorem witness_CircularApproxAccepted :
    IsEnc .halfEven ((romKC 8 : ℚ) / 2 ^ 64 * hvRat 0x100000000) (fmtReg 16 13).fmt 7035 ∧
      IsEnc .halfEven ((romKC 8 : ℚ) / 2 ^ 64 * hvRat 0) (fmtReg 16 13).fmt 0 ∧
      IsEnc .halfEven (hvRat 0xC90FDAA2) (fmtReg 16 13).fmt 6434 :=
  ⟨⟨isRoundInt_of_scaledSeed (by decide +kernel), by decide⟩, ⟨isRoundInt_of_scaledSeed (by decide +kernel), by decide⟩,
    ⟨isRoundInt_of_roundTo (by decide), by decide⟩⟩
theorem witness_HyperbolicApproxAccepted :
    IsEnc .halfEven ((romKH .perEntry 8 : ℚ) / 2 ^ 64 * hvRat 0x100000000) (fmtReg 16 13).fmt 9892 ∧
      IsEnc .halfEven ((romKH .perEntry 8 : ℚ) / 2 ^ 64 * hvRat 0) (fmtReg 16 13).fmt 0 ∧
      IsEnc .halfEven (hvRat 0x100000000) (fmtReg 16 13).fmt 8192 :=
  ⟨⟨isRoundInt_of_scaledSeed (by decide +kernel), by decide⟩, ⟨isRoundInt_of_scaledSeed (by decide +kernel), by decide⟩,
    ⟨isRoundInt_of_roundTo (by decide), by decide⟩⟩
/-- A divisor of 3/2, and the divisor 1/16384 that rounds to 0. -/
theorem witness_DivisionApproxAccepted :
    (IsEnc .halfEven (hvRat 0x180000000) (fmtReg 16 13).fmt 12288 ∧ (12288 : Int) ≠ 0) ∧
      IsEnc .halfEven (hvRat 0x40000) (fmtReg 16 13).fmt 0 :=
  ⟨⟨⟨isRoundInt_of_roundTo (by decide), by decide⟩, by decide⟩, ⟨isRoundInt_of_roundTo (by decide), by decide⟩⟩
theorem witness_FastApproxAccepted :
    IsEnc .halfEven (hvRat 0x100000000) (fmtReg 16 13).fmt 8192 ∧ IsEnc .halfEven (hvRat 0) (fmtReg 16 13).fmt 0 ∧
      IsEnc .halfEven (hvRat 0xC90FDAA2) (fmtReg 16 13).fmt 6434 :=
  ⟨⟨isRoundInt_of_roundTo (by decide), by decide⟩, ⟨isRoundInt_of_roundTo (by decide), by decide⟩,
    ⟨isRoundInt_of_roundTo (by decide), by decide⟩⟩
theorem witness_IdealCommandsAccepted :
    State.reset.running = false ∧ State.reset.ins.opA = 0 ∧ (eng 1 0 0 0).running = false ∧ (eng 1 0 0 0).ins.opA ≠ 0 := by decide

theorem witness_CircularRotationStep :
    (∀ i ∈ [Instr.rotCircA false 8, .rotCircI true 8], (started i).running = true ∧
      (started i).eng.latch.op = .rotCirc ∧ (started i).eng.entries[(started i).eng.k]? = some 1) ∧
      (started (.rotCircA false 8)).eng.latch.sem = .approx ∧ (started (.rotCircI true 8)).eng.latch.sem = .ideal := by
  decide +kernel
theorem witness_CircularVectoringStep :
    (∀ i ∈ [Instr.vecCircA false 8, .vecCircI true 8], (started i).running = true ∧
      (started i).eng.latch.op = .vecCirc ∧ (started i).eng.entries[(started i).eng.k]? = some 1) ∧
      (started (.vecCircA false 8)).eng.latch.sem = .approx ∧ (started (.vecCircI true 8)).eng.latch.sem = .ideal := by
  decide +kernel
theorem witness_HyperbolicRotationStep :
    (∀ i ∈ [Instr.rotHypA false 8, .rotHypI true 8], (started i).running = true ∧
      (started i).eng.latch.op = .rotHyp ∧ (started i).eng.entries[(started i).eng.k]? = some 1) ∧
      (started (.rotHypA false 8)).eng.latch.sem = .approx ∧ (started (.rotHypI true 8)).eng.latch.sem = .ideal := by
  decide +kernel
theorem witness_DivisionStep :
    (∀ i ∈ [Instr.divLinA false 8, .divLinI true 8], (started i).running = true ∧
      (started i).eng.latch.op = .divLin ∧ (started i).eng.entries[(started i).eng.k]? = some 1) ∧
      (started (.divLinA false 8)).eng.latch.sem = .approx ∧ (started (.divLinI true 8)).eng.latch.sem = .ideal := by
  decide +kernel
/-- The residuals of a ROT.CIRC.I, a ROT.HYP.I and a ROT.FAST.I that were just issued, and one of three angles, are well formed. -/
theorem witness_step_residual :
    (started (.rotCircI true 8)).eng.real.z.wf ∧ (started (.rotHypI true 8)).eng.real.z.wf ∧
      (started (.rotFastI true 8)).eng.real.z.wf ∧
      (⟨⟨1, 0⟩, [⟨true, .atan 1 2⟩, ⟨false, .atan 1 4⟩, ⟨true, .atan 6 31⟩]⟩ : Angle).wf ∧
      (⟨⟨-1, 3⟩, [⟨true, .atanh 1 2⟩, ⟨false, .atanh 1 4⟩]⟩ : Angle).wf :=
  ⟨Angle.wf_ofDyad (hv 0xC90FDAA2), Angle.wf_ofDyad (hv 0xC90FDAA2), Angle.wf_ofDyad (hv 0xC90FDAA2),
    ⟨.circ, by simp [Angle.wfFor, Atom.wf, Atom.mode]⟩, ⟨.hyp, by simp [Angle.wfFor, Atom.wf, Atom.mode]⟩⟩
theorem witness_LookupFindsTheLeastBracket : (⟨16, 13⟩ : Fmt).valid ∧ (Angle.ofDyad (hv 0x1999999A)).wf :=
  ⟨by decide, Angle.wf_ofDyad _⟩
/-- A lookup that finds a bracket and one that does not. -/
theorem witness_FastApproxStep :
    (started (.rotFastA false 8)).running = true ∧
      (started (.rotFastA false 8)).eng.latch.op = .rotFast ∧ (started (.rotFastA false 8)).eng.latch.sem = .approx ∧
      lookupA exampleStageTable ⟨16, 13⟩ 6434 ≠ none ∧ lookupA exampleStageTable ⟨16, 13⟩ 8192 = none := by decide +kernel
theorem witness_FastIdealStep :
    (started (.rotFastI false 8)).running = true ∧
      (started (.rotFastI false 8)).eng.latch.op = .rotFast ∧ (started (.rotFastI false 8)).eng.latch.sem = .ideal ∧
      (∃ e, lookupI exampleStageTable (started (.rotFastI false 8)).eng.real.z = some e ∧ 0 < e.a) ∧
      lookupI exampleStageTable (Angle.ofDyad ⟨1, 0⟩) = none :=
  ⟨by decide +kernel, by decide +kernel, by decide +kernel, ⟨_, rfl, by decide +kernel⟩, by decide +kernel⟩
theorem witness_StepCountsAndEnds :
    (running []).running = true ∧ ∃ t, engineStep (running []) = .next t ∧ t.status.state ≠ .error :=
  ⟨by decide +kernel, ⟨_, rfl, by decide +kernel⟩⟩
/-- An approximate engine, an ideal vectoring engine, an ideal division, and an ideal rotation of a well-formed residual. -/
theorem witness_ConvergenceTestIsExact :
    (started (.rotCircA true 8)).eng.latch.sem = .approx ∧ (started (.vecCircI true 8)).eng.latch.op = .vecCirc ∧
      (started (.divLinI true 8)).eng.latch.op = .divLin ∧ (started (.rotCircI true 8)).eng.real.z.wf :=
  ⟨by decide +kernel, by decide +kernel, by decide +kernel, Angle.wf_ofDyad (hv 0xC90FDAA2)⟩
theorem witness_TerminationWritesResults :
    ∀ i ∈ [Instr.rotCircA false 1, .rotCircI false 1], (started i).running = true ∧
      (started i).eng.latch.op ≠ .rotFast ∧ (after (engineStep (started i))).running = false ∧ (started i).eng.latch.n ≤ 64 := by
  decide +kernel
theorem witness_FastNormalization :
    ∀ i ∈ [Instr.rotFastA false 1, .rotFastI false 1], (started i).running = true ∧
      (started i).eng.latch.op = .rotFast ∧ (after (engineStep (started i))).status.state = .exhausted := by
  decide +kernel
/-- A ROT.FAST and a standard mode, with host actions still to come. -/
theorem witness_EngineStepFrame :
    (started (.rotFastA false 8)).running = true ∧ (started (.rotFastA false 8)).eng.latch.op = .rotFast ∧
      (∃ t, engineStep (started (.rotFastA false 8)) = .next t ∧ t.status.state = .running) ∧
      (running [.read 1]).running = true ∧ (running [.read 1]).eng.latch.op ≠ .rotFast ∧
      ∃ t, engineStep (running [.read 1]) = .next t ∧ t.status.state = .running :=
  ⟨by decide +kernel, by decide +kernel, ⟨_, rfl, by decide +kernel⟩, by decide +kernel, by decide +kernel,
    ⟨_, rfl, by decide +kernel⟩⟩
/-- A positive residual, a negative one, and one that is 0 though it has angles: `atan 1 - atan (1/2) - atan (1/3) = 0`. -/
theorem witness_IdealSignIsExact :
    (⟨⟨1, 0⟩, [⟨true, .atan 1 2⟩]⟩ : Angle).wf ∧ (⟨⟨-1, 3⟩, [⟨false, .atanh 1 16⟩]⟩ : Angle).wf ∧
      (⟨⟨0, 0⟩, [⟨false, .atan 1 1⟩, ⟨true, .atan 1 2⟩, ⟨true, .atan 1 3⟩]⟩ : Angle).wf :=
  ⟨⟨.circ, by simp [Angle.wfFor, Atom.wf, Atom.mode]⟩, ⟨.hyp, by simp [Angle.wfFor, Atom.wf, Atom.mode]⟩,
    ⟨.circ, by simp [Angle.wfFor, Atom.wf, Atom.mode]⟩⟩

/-- The invariant holds of a quiescent block with its registers written. -/
theorem quiescent_inv : (eng 0x100000000 0 0xC90FDAA2 0).Inv :=
  ⟨exampleParams_admissible, .inr ⟨by decide, rfl, rfl⟩, by decide, fun _ => rfl, fun h => (nomatch h), fun h => (nomatch h)⟩

/-- The invariant holds of a running ROT.CIRC.A. -/
theorem running_inv : (running []).Inv := by
  refine ⟨exampleParams_admissible, .inr ⟨by decide +kernel, rfl, rfl⟩, by decide +kernel, fun _ => rfl, fun _ => rfl, fun _ => ?_⟩
  refine ⟨by decide +kernel, by decide +kernel, fun _ => by decide +kernel, fun _ => ?_, fun h => absurd h (by decide +kernel)⟩
  exact ⟨by decide +kernel, by decide +kernel, fun _ => by decide +kernel, fun h => absurd h (by decide +kernel),
    fun h => absurd h (by decide +kernel), fun h => absurd h (by decide +kernel), fun h => absurd h (by decide +kernel)⟩

/-- The invariant holds of a running ROT.FAST.A. -/
theorem running_fast_inv : (started (.rotFastA false 8)).Inv := by
  refine ⟨exampleParams_admissible, .inr ⟨by decide +kernel, rfl, rfl⟩, by decide +kernel, fun _ => rfl, fun _ => rfl, fun _ => ?_⟩
  refine ⟨by decide +kernel, by decide +kernel, fun h => absurd rfl h, fun _ => ?_, fun h => absurd h (by decide +kernel)⟩
  exact ⟨by decide +kernel, by decide +kernel, fun h => absurd rfl h, fun h => absurd h (by decide +kernel),
    fun _ => by decide +kernel, fun _ => by decide +kernel, fun _ => by decide +kernel⟩

theorem witness_InvariantKeptByEveryStep : (running []).Inv ∧ ∃ t, step (running []) = .next t := ⟨running_inv, ⟨_, rfl⟩⟩
theorem witness_EveryStepHasAnEffect : (eng 0x100000000 0 0xC90FDAA2 0).Inv ∧ (running []).Inv := ⟨quiescent_inv, running_inv⟩
theorem witness_TerminationIsGuaranteed :
    (running []).Inv ∧ (running []).running = true ∧ (running []).pending = [] := ⟨running_inv, by decide +kernel, rfl⟩
theorem witness_EveryAcceptedCommandEnds :
    (eng 0x100000000 0 0xC90FDAA2 0).Inv ∧ (eng 0x100000000 0 0xC90FDAA2 0).running = false ∧
      (eng 0x100000000 0 0xC90FDAA2 0).pending = [] ∧
      (∀ i ∈ [Instr.rotCircI true 64, .rotCircA false 1, .vecCircA true 8, .vecCircI true 8, .rotHypA true 64, .rotHypI false 64,
        .divLinA true 8, .divLinI false 1, .rotFastA true 64, .rotFastI false 8], isPrimitive i = false ∧
          firstFailure (checks i (eng 0x100000000 0 0xC90FDAA2 0)) = none) :=
  ⟨quiescent_inv, by decide, by decide, by decide +kernel⟩
theorem witness_AccumulatorsFit :
    (started (.rotFastA false 8)).Inv ∧ (started (.rotFastA false 8)).running = true ∧
      (started (.rotFastA false 8)).eng.latch.op = .rotFast ∧ (started (.rotFastA false 8)).eng.latch.sem = .approx ∧
      ∃ t, engineStep (started (.rotFastA false 8)) = .next t :=
  ⟨running_fast_inv, by decide +kernel, by decide +kernel, by decide +kernel, ⟨_, rfl⟩⟩
/-- A target of 1/2. -/
theorem witness_CoverageHoldsInRange :
    (eng 0x100000000 0 0x80000000 0).Inv ∧ (eng 0x100000000 0 0x80000000 0).running = false ∧
      (eng 0x100000000 0 0x80000000 0).pending = [] ∧
      |(hvRat (eng 0x100000000 0 0x80000000 0).ins.opC : ℝ)| ≤ Real.pi / 4 ∧
      ∃ a t : State, exec (.rotFastI false 2) (eng 0x100000000 0 0x80000000 0) = .next a ∧
        Sys2Proof.core.run 1 a = .next t ∧ t.running = true := by
  refine ⟨⟨exampleParams_admissible, .inr ⟨by decide, rfl, rfl⟩, by decide, fun _ => rfl, fun h => (nomatch h),
    fun h => (nomatch h)⟩, rfl, rfl, ?_, ⟨_, _, rfl, rfl, by decide +kernel⟩⟩
  have h : hvRat (eng 0x100000000 0 0x80000000 0).ins.opC = 1 / 2 := by
    rw [hvRat, show (eng 0x100000000 0 0x80000000 0).ins.opC.toInt = 2 ^ 31 by decide]
    norm_num
  have := Real.pi_gt_three
  rw [h]
  norm_num [abs_of_pos]
  linarith
theorem witness_WritesDoNotTouchTheRun :
    (running []).running = true ∧ ∃ t, engineStep (running []) = .next t := ⟨by decide +kernel, ⟨_, rfl⟩⟩
/-- Two states that differ in their last read and in the engine's left-over state, and every outcome the statement speaks of. -/
theorem witness_CommandsAreIndependent :
    State.reset.running = false ∧
      ({ State.reset with readData := some (.word 1), eng := (running []).eng } : State).running = false ∧
      (∃ a t : State, exec (.rotCircI false 1) State.reset = .next a ∧ Sys2Proof.core.run 1 a = .next t ∧
        t.status.state = .exhausted) ∧
      (∃ a t : State, exec .add primState = .next a ∧ Sys2Proof.core.run 0 a = .next t ∧ t.status.state = .done) :=
  ⟨rfl, rfl, ⟨_, _, rfl, rfl, by decide +kernel⟩, ⟨_, _, rfl, rfl, rfl⟩⟩

end Sys2Proof.Tests
end

/-! # The scope's rules (00_scope.md): rounding and the sign of an exact residual -/

namespace Sys2Proof.Machine

/-- R10: the model's `sgnp` of a well-formed residual is exact. The ladder and the search both answer what a precision answers that
decides, which is sound, and the search ends, so the default of `Angle.nonneg` is never taken. -/
theorem Angle.nonneg_iff_toReal {z : Angle} (h : z.wf) : z.nonneg = true ↔ 0 ≤ z.toReal := by
  unfold Angle.nonneg
  split
  case h_1 b hb => exact signLadder_sound h hb
  case h_2 =>
    obtain ⟨q, b, hb, hq⟩ := signSearch_ends h (p := 65536) (by decide)
    rw [hb, Option.getD_some]
    exact Angle.signAt_sound h hq

/-- Settles O21: `roundInt` meets R10's wording, and at most one integer does. -/
theorem roundIntIsNearest : Obligations.RoundIntIsNearest := roundInt_eq_iff

/-- Settles O51, by the soundness of every precision's answer and the end of the search. -/
theorem idealSignIsExact : Obligations.IdealSignIsExact := fun _ h => Angle.nonneg_iff_toReal h

end Sys2Proof.Machine

/-! # Host registers and the machine's invariant (10_state.md) -/

namespace Sys2Proof.Machine

/-! ### The STATUS word -/

/-- The fields of more than one bit: the words `Status.word` appends below a field are skipped, those above it dropped. -/
theorem Status.word_fields (st : Status) :
    st.word.extractLsb' 0 3 = st.state.code ∧ st.word.extractLsb' 5 2 = st.errCode ∧
    st.word.extractLsb' 8 8 = st.errDetail ∧ st.word.extractLsb' 16 7 = st.iters ∧
    st.word.extractLsb' 24 4 = st.lastOp ∧ st.word.extractLsb' 29 35 = 0 := by
  unfold Status.word
  simp (disch := omega) only [BitVec.extractLsb'_append_eq_of_le, BitVec.extractLsb'_append_eq_of_add_le]
  simp

/-- The fields of one bit, and the reserved bits 7 and 23. -/
theorem Status.word_bits (st : Status) :
    st.word.getLsbD 3 = st.busy ∧ st.word.getLsbD 4 = st.ovr ∧ st.word.getLsbD 7 = false ∧ st.word.getLsbD 23 = false ∧
    st.word.getLsbD 28 = st.lastSem := by
  simp only [Status.word, BitVec.getLsbD_append]
  simp

/-- Settles O1: each field of R22 is one of the words `Status.word` appends, and STATE's code is R22's value. -/
theorem statusWordLayout : Obligations.StatusWordLayout := by
  intro s
  obtain ⟨hstate, hcode, hdetail, hiters, hop, hzero⟩ := s.status.word_fields
  obtain ⟨hbusy, hovr, h7, h23, hsem⟩ := s.status.word_bits
  have hcases (e : EngState) (v : BitVec 3) (hv : e.code = v) (he : s.status.state = e) : s.status.word.extractLsb' 0 3 = v := by
    rw [hstate, he, hv]
  exact ⟨s.status.word, rfl, hcases .idle 0 rfl, hcases .running 1 rfl, hcases .convergedEarly 2 rfl, hcases .exhausted 3 rfl,
    hcases .done 4 rfl, hcases .error 5 rfl, hbusy, hovr, hcode, h7, hdetail, hiters, h23, hop, hsem, hzero⟩

/-! ### Angle tables and stage tables -/

/-- Every entry of a table from index `i` on is at least `i` (R143). -/
theorem le_of_mem_tableFrom {mode : Mode} {n i j : Nat} (h : j ∈ tableFrom mode n i) : i ≤ j := by
  fun_induction tableFrom mode n i with
  | case1 => cases h
  | case2 i => exact (List.mem_singleton.1 h).ge
  | case3 i n _ ih =>
    rw [List.mem_cons, List.mem_cons] at h
    obtain rfl | rfl | h := h
    exacts [le_rfl, le_rfl, Nat.le_of_succ_le (ih h)]
  | case4 i n _ ih =>
    rw [List.mem_cons] at h
    obtain rfl | h := h
    exacts [le_rfl, Nat.le_of_succ_le (ih h)]

theorem one_le_of_mem_angleTable {mode : Mode} {n i : Nat} (h : i ∈ angleTable mode n) : 1 ≤ i := le_of_mem_tableFrom h

/-- What a stage needs of its entry: `a ≥ 1` and `k ≤ 16` (R200). -/
theorem Params.Admissible.entry {p : Params} (h : p.Admissible) {st : StageEntry} (hst : st ∈ p.stageTable) :
    1 ≤ st.a ∧ st.k ≤ 16 := by
  have hwf := h.integers
  simp only [Params.wf, stageTableWf, Bool.and_eq_true, List.all_eq_true] at hwf
  obtain ⟨⟨-, hentries⟩, -⟩ := hwf
  have hentry := hentries st hst
  simp only [StageEntry.wf, Bool.and_eq_true, decide_eq_true_eq] at hentry
  omega

/-- `B` bits hold the row sum of every entry (R205). -/
theorem add_lt_two_pow_stageBits {table : List StageEntry} {st : StageEntry} (h : st ∈ table) :
    st.a + st.b < 2 ^ stageBits table := by
  have hle : Nat.log2 (st.a + st.b) + 1 ≤ stageBits table := List.le_max_of_le (List.mem_map_of_mem h) le_rfl
  calc st.a + st.b < 2 ^ (Nat.log2 (st.a + st.b) + 1) := Nat.lt_log2_self
    _ ≤ 2 ^ stageBits table := Nat.pow_le_pow_right (by decide) hle

/-- R205's growth of an accumulator by `B` bits a stage: one row of the matrix, of row sum below `2^B`. -/
theorem stageRow_bound {a b B E : Nat} {c X Y : Int} (hab : a + b < 2 ^ B) (hc : |c| = b) (hX : -2 ^ E ≤ X ∧ X < 2 ^ E)
    (hY : -2 ^ E ≤ Y ∧ Y < 2 ^ E) : -2 ^ (E + B) ≤ a * X + c * Y ∧ a * X + c * Y < 2 ^ (E + B) := by
  have hX' : |X| ≤ 2 ^ E := abs_le.2 ⟨hX.1, hX.2.le⟩
  have hY' : |Y| ≤ 2 ^ E := abs_le.2 ⟨hY.1, hY.2.le⟩
  have hab' : (a : Int) + b < 2 ^ B := by exact_mod_cast hab
  have hlt : |a * X + c * Y| < 2 ^ (E + B) :=
    calc |a * X + c * Y| ≤ |(a : Int) * X| + |c * Y| := abs_add_le _ _
      _ = a * |X| + b * |Y| := by rw [abs_mul, abs_mul, Nat.abs_cast, hc]
      _ ≤ a * 2 ^ E + b * 2 ^ E := by gcongr
      _ = (a + b) * 2 ^ E := by ring
      _ < 2 ^ B * 2 ^ E := by gcongr
      _ = 2 ^ (E + B) := by rw [pow_add, mul_comm]
  exact ⟨(abs_lt.1 hlt).1.le, (abs_lt.1 hlt).2⟩

/-! ### Iterations and stages keep the formats -/

theorem Fmt.holds_zero (f : Fmt) : f.holds 0 := by
  have : (0 : Int) < 2 ^ (f.totalBits - 1) := by positivity
  simp only [Fmt.holds]
  omega

/-- An approximate CordicState lies in its formats (R30). -/
def FixState.In (p z : Fmt) (c : FixState) : Prop := p.holds c.x ∧ p.holds c.y ∧ z.holds c.z

theorem iterRotCircA_in (m : RoundMode) (p z : Fmt) (i : Nat) (c : FixState) : (iterRotCircA m p z i c).In p z := by
  unfold iterRotCircA
  split <;> exact ⟨Fmt.clamp_holds .., Fmt.clamp_holds .., Fmt.clamp_holds ..⟩

theorem iterVecCircA_in (m : RoundMode) (p z : Fmt) (i : Nat) (c : FixState) : (iterVecCircA m p z i c).In p z := by
  unfold iterVecCircA
  split <;> exact ⟨Fmt.clamp_holds .., Fmt.clamp_holds .., Fmt.clamp_holds ..⟩

theorem iterRotHypA_in (m : RoundMode) (p z : Fmt) (i : Nat) (c : FixState) : (iterRotHypA m p z i c).In p z := by
  unfold iterRotHypA
  split <;> exact ⟨Fmt.clamp_holds .., Fmt.clamp_holds .., Fmt.clamp_holds ..⟩

theorem iterDivLinA_x (m : RoundMode) (p z : Fmt) (i : Nat) (c : FixState) : (iterDivLinA m p z i c).x = c.x := by
  unfold iterDivLinA
  split <;> rfl

theorem iterDivLinA_in (m : RoundMode) {p z : Fmt} (i : Nat) {c : FixState} (hx : p.holds c.x) :
    (iterDivLinA m p z i c).In p z := by
  unfold iterDivLinA
  split <;> exact ⟨hx, Fmt.clamp_holds .., Fmt.clamp_holds ..⟩

theorem iterRotCircI_wfFor (i : Nat) {c : RealState} (h : c.z.wfFor .circ) : (iterRotCircI i c).z.wfFor .circ := by
  simp only [iterRotCircI]
  split <;> exact Angle.wfFor_subElem h _ nofun

theorem iterVecCircI_wfFor (i : Nat) {c : RealState} (h : c.z.wfFor .circ) : (iterVecCircI i c).z.wfFor .circ := by
  simp only [iterVecCircI]
  split <;> exact Angle.wfFor_subElem h _ nofun

theorem iterRotHypI_wfFor {i : Nat} (hi : 1 ≤ i) {c : RealState} (h : c.z.wfFor .hyp) : (iterRotHypI i c).z.wfFor .hyp := by
  simp only [iterRotHypI]
  split <;> exact Angle.wfFor_subElem h _ fun _ => hi

theorem iterDivLinI_wfFor (i : Nat) {c : RealState} (h : c.z.wfFor .lin) : (iterDivLinI i c).z.wfFor .lin := by
  simp only [iterDivLinI]
  split <;> exact Angle.wfFor_subElem h _ nofun

theorem iterDivLinI_x (i : Nat) (c : RealState) : (iterDivLinI i c).x = c.x := by
  simp only [iterDivLinI]
  split <;> rfl

theorem mem_of_lookupA {table : List StageEntry} {z : Fmt} {n : Int} {st : StageEntry} (h : lookupA table z n = some st) :
    st ∈ table := List.mem_of_find?_eq_some h

theorem mem_of_lookupI {table : List StageEntry} {z : Angle} {st : StageEntry} (h : lookupI table z = some st) :
    st ∈ table := List.mem_of_find?_eq_some h

/-- The magnitude bits of an accumulator after `k` stages of a run in format `p`: `B` more a stage (R205). -/
def accBits (params : Params) (p : Fmt) (k : Nat) : Nat := p.totalBits - 1 + k * stageBits params.stageTable

theorem accBits_zero (params : Params) (p : Fmt) : accBits params p 0 = p.totalBits - 1 := by simp [accBits]

theorem accBits_succ (params : Params) (p : Fmt) (k : Nat) :
    accBits params p (k + 1) = accBits params p k + stageBits params.stageTable := by
  simp only [accBits]
  ring

/-- The accumulators lie within R205's bound after `k` stages of a run in format `p`. -/
def FixAcc.Within (params : Params) (p : Fmt) (k : Nat) (c : FixAcc) : Prop :=
  (-2 ^ accBits params p k ≤ c.X ∧ c.X < 2 ^ accBits params p k) ∧
  (-2 ^ accBits params p k ≤ c.Y ∧ c.Y < 2 ^ accBits params p k) ∧ c.L ≤ 16 * k

theorem stageAccA_within {params : Params} (hp : params.Admissible) {p : Fmt} {k : Nat} {c : FixAcc} (h : c.Within params p k)
    {st : StageEntry} (hst : st ∈ params.stageTable) (d : Bool) : (stageAccA st d c).Within params p (k + 1) := by
  obtain ⟨hX, hY, hL⟩ := h
  obtain ⟨-, hk⟩ := hp.entry hst
  have hab := add_lt_two_pow_stageBits hst
  rw [FixAcc.Within, accBits_succ]
  refine ⟨?_, ?_, by simp only [stageAccA]; omega⟩
  · have hrow := stageRow_bound (c := -(if d then (st.b : Int) else -st.b)) hab (by split <;> simp) hX hY
    rwa [neg_mul, ← sub_eq_add_neg] at hrow
  · have hrow := stageRow_bound (c := if d then (st.b : Int) else -st.b) hab (by split <;> simp) hY hX
    rwa [add_comm (_ * c.Y)] at hrow

/-! ### The engine's state after a seed and after a step -/

theorem Engine.FixOk.of_standard {params : Params} {e : Engine} (hop : e.latch.op ≠ .rotFast)
    (hf : e.latch.p.valid ∧ e.latch.z.valid) (hc : e.fix.In e.latch.p e.latch.z) (hd : e.latch.op = .divLin → e.fix.x ≠ 0) :
    e.FixOk params := by
  obtain ⟨hx, hy, hz⟩ := hc
  exact ⟨hf, hz, fun _ => ⟨hx, hy⟩, hd, (absurd · hop), (absurd · hop), (absurd · hop)⟩

theorem Engine.FixOk.of_fast {params : Params} {e : Engine} (hop : e.latch.op = .rotFast)
    (hf : e.latch.p.valid ∧ e.latch.z.valid) (hz : e.latch.z.holds e.fix.z) (ha : e.fixAcc.Within params e.latch.p e.k) :
    e.FixOk params := by
  obtain ⟨hX, hY, hL⟩ := ha
  exact ⟨hf, hz, (absurd hop ·), fun hd => by simp [hop] at hd, fun _ => hX, fun _ => hY, fun _ => hL⟩

theorem Engine.FixOk.within {params : Params} {e : Engine} (h : e.FixOk params) (hop : e.latch.op = .rotFast) :
    e.fixAcc.Within params e.latch.p e.k := ⟨h.accX hop, h.accY hop, h.shift hop⟩

/-- An entry keeps an approximate run in its formats (R164, R167). -/
theorem Engine.FixOk.applyEntry {params : Params} {e : Engine} (h : e.FixOk params) (m : RoundMode) (i k : Nat)
    (hop : e.latch.op ≠ .rotFast) (hsem : e.latch.sem = .approx) :
    Engine.FixOk params { Machine.applyEntry m i e with k := k } := by
  obtain ⟨hx, -⟩ := h.vector hop
  have hlatch : (Machine.applyEntry m i e).latch = e.latch := (applyEntry_frame m i e).1
  have hfix : (Machine.applyEntry m i e).fix.In e.latch.p e.latch.z ∧
      (e.latch.op = .divLin → (Machine.applyEntry m i e).fix.x ≠ 0) := by
    cases ho : e.latch.op <;> simp only [Machine.applyEntry, ho, hsem]
    case rotCirc => exact ⟨iterRotCircA_in .., nofun⟩
    case vecCirc => exact ⟨iterVecCircA_in .., nofun⟩
    case rotHyp => exact ⟨iterRotHypA_in .., nofun⟩
    case divLin => exact ⟨iterDivLinA_in m i hx, fun _ => (iterDivLinA_x m _ _ i e.fix).symm ▸ h.divisor ho⟩
    case rotFast => exact absurd ho hop
  exact .of_standard (hlatch ▸ hop) (hlatch ▸ h.formats) (hlatch ▸ hfix.1) (hlatch ▸ hfix.2)

/-- A stage keeps the residual in its format and the accumulators within R205's bound for one more stage. -/
theorem Engine.FixOk.stageA {params : Params} (hp : params.Admissible) {e e' : Engine} (h : e.FixOk params)
    (hop : e.latch.op = .rotFast) (hs : Machine.stageA params.stageTable e = some e') :
    Engine.FixOk params { e' with k := e.k + 1 } := by
  simp only [Machine.stageA, Option.map_eq_some_iff] at hs
  obtain ⟨st, hst, rfl⟩ := hs
  refine .of_fast hop h.formats ?_ (stageAccA_within hp (h.within hop) (mem_of_lookupA hst) _)
  simp only
  split <;> exact Fmt.clamp_holds ..

/-- An entry of a table, whose index is at least 1, keeps an ideal run's residual a sum of its mode's angles (R141, R160). -/
theorem Engine.RealOk.applyEntry {e : Engine} (h : e.RealOk) (m : RoundMode) {i : Nat} (hi : 1 ≤ i) (k : Nat)
    (hop : e.latch.op ≠ .rotFast) (hsem : e.latch.sem = .ideal) :
    Engine.RealOk { Machine.applyEntry m i e with k := k } := by
  have hz := h.residual
  have hlatch : (Machine.applyEntry m i e).latch = e.latch := (applyEntry_frame m i e).1
  have hreal : (Machine.applyEntry m i e).real.z.wfFor e.latch.op.mode ∧
      (e.latch.op = .divLin → (Machine.applyEntry m i e).real.x.toRat ≠ 0) := by
    cases ho : e.latch.op <;> simp only [Machine.applyEntry, ho, hsem] <;> rw [ho] at hz
    case rotCirc => exact ⟨iterRotCircI_wfFor i hz, nofun⟩
    case vecCirc => exact ⟨iterVecCircI_wfFor i hz, nofun⟩
    case rotHyp => exact ⟨iterRotHypI_wfFor hi hz, nofun⟩
    case divLin => exact ⟨iterDivLinI_wfFor i hz, fun _ => (iterDivLinI_x i e.real).symm ▸ h.divisor ho⟩
    case rotFast => exact absurd ho hop
  exact ⟨hlatch ▸ hreal.1, hlatch ▸ hreal.2, fun hf => absurd (hlatch ▸ hf) hop⟩

/-- A stage of an admissible entry subtracts an angle `atan2(b, a)` with `a ≥ 1` and doubles the divisor at most 16 times. -/
theorem Engine.RealOk.stageI {params : Params} (hp : params.Admissible) {e e' : Engine} (h : e.RealOk)
    (hop : e.latch.op = .rotFast) (hs : Machine.stageI params.stageTable e = some e') :
    Engine.RealOk { e' with k := e.k + 1 } := by
  simp only [Machine.stageI, Option.map_eq_some_iff] at hs
  obtain ⟨st, hst, rfl⟩ := hs
  obtain ⟨ha, hk⟩ := hp.entry (mem_of_lookupI hst)
  obtain ⟨l, hl, hD⟩ := h.cumulative hop
  have hmode : e.latch.op.mode = .circ := by rw [hop]; rfl
  refine ⟨Angle.wfFor_subAtom h.residual _ (t := .atan st.b st.a) ha hmode.symm, fun hd => by simp [hop] at hd, fun _ => ?_⟩
  exact ⟨l + st.k, by simp only; omega, by simp only [stageAccI, hD, pow_add]⟩

/-- The engine's state after a step that applies an entry or a stage, terminating or not. -/
theorem Applied.keeps {s : State} {e : Engine} (hp : s.params.Admissible) (h : s.eng.Ok s.params) (ha : Applied s e) :
    (s.eng.latch.sem = .approx → Engine.FixOk s.params { e with k := s.eng.k + 1 }) ∧
    (s.eng.latch.sem = .ideal → Engine.RealOk { e with k := s.eng.k + 1 }) := by
  obtain ⟨hop, i, hi, rfl⟩ | ⟨hop, hs⟩ := ha
  · have h1 : 1 ≤ i := one_le_of_mem_angleTable (h.table hop ▸ List.mem_of_getElem? hi)
    exact ⟨fun hsem => (h.approx hsem).applyEntry _ i _ hop hsem, fun hsem => (h.ideal hsem).applyEntry _ h1 _ hop hsem⟩
  · constructor <;> intro hsem <;> simp only [stage, hsem] at hs
    · exact (h.approx hsem).stageA hp hop hs
    · exact (h.ideal hsem).stageI hp hop hs

theorem Applied.ok {s : State} {e : Engine} (hp : s.params.Admissible) (h : s.eng.Ok s.params) (ha : Applied s e)
    (hn : e.k + 1 ≠ e.latch.n) : Engine.Ok s.params { e with k := e.k + 1 } := by
  obtain ⟨hfix, hreal⟩ := ha.keeps hp h
  obtain ⟨hlatch, hentries, hk⟩ := ha.frame
  rw [hlatch, hk] at hn
  rw [← hlatch, ← hk] at hfix hreal
  exact {
    budget := hlatch ▸ h.budget
    pointer := by
      have := h.pointer
      simp only [hlatch, hk]
      omega
    table := by simpa only [hlatch, hentries] using h.table
    approx := hfix
    ideal := hreal }

/-- What the seed of a command makes of the engine's state `e`, in which the command is latched: the mode's entry list, and values
in their formats and bounds before the first step. -/
structure Engine.Seeded (params : Params) (e e' : Engine) : Prop where
  latch : e'.latch = e.latch
  table : e.latch.op ≠ .rotFast → e'.entries = angleTable e.latch.op.mode e.latch.n
  approx : e.latch.sem = .approx → Engine.FixOk params { e' with k := 0 }
  ideal : e.latch.sem = .ideal → Engine.RealOk { e' with k := 0 }

theorem Engine.Seeded.ok {params : Params} {e e' : Engine} (h : e.Seeded params e') (hn : 1 ≤ e.latch.n ∧ e.latch.n ≤ 64) :
    Engine.Ok params { e' with k := 0 } := by
  obtain ⟨hlatch, htable, hfix, hreal⟩ := h
  rw [← hlatch] at htable hfix hreal hn
  exact ⟨hn, hn.1, htable, hfix, hreal⟩

/-- The seed rule of an approximate command seeds every engine in which that command is latched. -/
def SeedsApprox (params : Params) (op : EngineOp) (n : Nat) (seed : State → Fmt → Fmt → Engine → Except Cause Engine) : Prop :=
  ∀ (s : State) (e e' : Engine), seed s e.latch.p e.latch.z e = .ok e' → e.latch.op = op → e.latch.sem = .approx →
    e.latch.n = n → e.latch.p.valid ∧ e.latch.z.valid → e.Seeded params e'

/-- The same of an ideal command. -/
def SeedsIdeal (params : Params) (op : EngineOp) (n : Nat) (seed : State → Engine → Except Cause Engine) : Prop :=
  ∀ (s : State) (e e' : Engine), seed s e = .ok e' → e.latch.op = op → e.latch.sem = .ideal → e.latch.n = n →
    e.Seeded params e'

/-- A seed of a standard mode: the values the checks left in their formats, and the mode's entry list. -/
theorem Engine.Seeded.of_fix {params : Params} {e : Engine} {c : FixState} (hop : e.latch.op ≠ .rotFast)
    (hsem : e.latch.sem = .approx) (hf : e.latch.p.valid ∧ e.latch.z.valid) (hc : c.In e.latch.p e.latch.z)
    (hd : e.latch.op = .divLin → c.x ≠ 0) :
    e.Seeded params { e with fix := c, entries := angleTable e.latch.op.mode e.latch.n } where
  latch := rfl
  table _ := rfl
  approx _ := .of_standard hop hf hc hd
  ideal h := by simp [hsem] at h

/-- The target is 0 or an encoded operand, so it lies in `Z` either way (R166). -/
theorem seedGain_seeds (params : Params) (kw n : Nat) (target : Bool) {op : EngineOp} (hfast : op ≠ .rotFast)
    (hdiv : op ≠ .divLin) : SeedsApprox params op n (seedGain kw target op.mode n) := by
  rintro s e e' h rfl hsem rfl hf
  have seeded (c : FixState) (hc : c.In e.latch.p e.latch.z) := Engine.Seeded.of_fix (params := params) hfast hsem hf hc
    fun hd => absurd hd hdiv
  cases target <;>
    simp only [seedGain, except_bind_eq_ok, enc_eq_ok_iff, if_true, Bool.false_eq_true, if_false] at h
  case false =>
    obtain ⟨x, ⟨-, hx⟩, y, ⟨-, hy⟩, t, ht, he⟩ := h
    cases ht
    cases he
    exact seeded _ ⟨hx, hy, e.latch.z.holds_zero⟩
  case true =>
    obtain ⟨x, ⟨-, hx⟩, y, ⟨-, hy⟩, t, ⟨-, hz⟩, he⟩ := h
    cases he
    exact seeded _ ⟨hx, hy, hz⟩

/-- The divisor an accepted division holds passed the zero test (R166, D20). -/
theorem seedDivision_seeds (params : Params) (n : Nat) : SeedsApprox params .divLin n (seedDivision n) := by
  rintro s e e' h hop hsem rfl hf
  simp only [seedDivision, except_bind_eq_ok, enc_eq_ok_iff] at h
  obtain ⟨x, ⟨-, hx⟩, y, ⟨-, hy⟩, h⟩ := h
  split at h
  · cases h
  next hx0 =>
    cases h
    have hmode : Mode.lin = e.latch.op.mode := by rw [hop]; rfl
    rw [hmode]
    exact .of_fix (by simp [hop]) hsem hf ⟨hx, hy, e.latch.z.holds_zero⟩ fun _ => hx0

/-- Before the first stage the accumulators are the encoded operands (R204). -/
theorem seedFast_seeds (params : Params) (n : Nat) : SeedsApprox params .rotFast n seedFast := by
  rintro s e e' h hop hsem rfl hf
  simp only [seedFast, except_bind_eq_ok, enc_eq_ok_iff] at h
  obtain ⟨x, ⟨-, hx⟩, y, ⟨-, hy⟩, t, ⟨-, hz⟩, h⟩ := h
  cases h
  refine ⟨rfl, fun h => absurd hop h, fun _ => .of_fast hop hf hz ?_, fun h => by simp [hsem] at h⟩
  simp only [FixAcc.Within, Fmt.holds, accBits_zero] at *
  omega

theorem seedIdeal_seeds (params : Params) (n : Nat) (target : Bool) {op : EngineOp} (hfast : op ≠ .rotFast)
    (hdiv : op ≠ .divLin) : SeedsIdeal params op n (seedIdeal target op.mode n) := by
  rintro s e e' h rfl hsem rfl
  cases h
  exact ⟨rfl, fun _ => rfl, fun h => by simp [hsem] at h, fun _ =>
    ⟨Angle.wfFor_ofDyad _ _, fun h => absurd h hdiv, fun h => absurd h hfast⟩⟩

theorem seedDivisionIdeal_seeds (params : Params) (n : Nat) : SeedsIdeal params .divLin n (seedDivisionIdeal n) := by
  rintro s e e' h hop hsem rfl
  unfold seedDivisionIdeal at h
  split at h
  · cases h
  next hx0 =>
    cases h
    exact ⟨rfl, fun _ => by rw [hop]; rfl, fun h => by simp [hsem] at h, fun _ =>
      ⟨Angle.wfFor_ofDyad _ _, fun _ => (Dyad.toRat_eq_zero_iff _).not.2 hx0, fun h => by simp [hop] at h⟩⟩

theorem seedFastIdeal_seeds (params : Params) (n : Nat) : SeedsIdeal params .rotFast n seedFastIdeal := by
  rintro s e e' h hop hsem rfl
  cases h
  exact ⟨rfl, fun h => absurd hop h, fun h => by simp [hsem] at h, fun _ =>
    ⟨Angle.wfFor_ofDyad _ _, fun h => by simp [hop] at h, fun _ => ⟨0, by simp, by simp⟩⟩⟩

/-! ### The invariant, by the shape of the next state -/

/-- The invariant reads the parameters, STATUS and the engine only. -/
theorem State.Inv.of_frame {s t : State} (h : s.Inv) (hp : t.params = s.params) (hst : t.status = s.status)
    (he : t.eng = s.eng) : t.Inv := by
  have hr : t.running = s.running := by rw [State.running, hst, State.running]
  exact {
    params := hp ▸ h.params
    report := hst ▸ h.report
    iters := hst ▸ h.iters
    itersZero := hst ▸ h.itersZero
    counter := by rw [hr, hst, he]; exact h.counter
    engine := by rw [hr, hp, he]; exact h.engine }

/-- A state that is not RUNNING owes nothing of the engine. -/
theorem State.Inv.of_not_running {s : State} (hr : s.status.state ≠ .running) (hp : s.params.Admissible)
    (report : (s.status.state = .error ∧ ∃ c : Cause, s.status.errCode = c.code ∧ s.status.errDetail = c.detail) ∨
      (s.status.state ≠ .error ∧ s.status.errCode = 0 ∧ s.status.errDetail = 0))
    (iters : s.status.iters.toNat ≤ 64) (itersZero : s.status.state = .idle ∨ s.status.state = .done → s.status.iters = 0) :
    s.Inv :=
  ⟨hp, report, iters, itersZero, fun h => absurd (s.running_iff.1 h) hr, fun h => absurd (s.running_iff.1 h) hr⟩

/-- While RUNNING no error is reported. -/
theorem State.Inv.noError {s : State} (h : s.Inv) (hr : s.running = true) : s.status.errCode = 0 ∧ s.status.errDetail = 0 := by
  rw [State.running_iff] at hr
  obtain ⟨he, -⟩ | ⟨-, he⟩ := h.report
  · rw [hr] at he
    cases he
  · exact he

theorem State.Inv.dropCommand {s : State} (h : s.Inv) : s.dropCommand.Inv :=
  ⟨h.params, h.report, h.iters, h.itersZero, h.counter, h.engine⟩

theorem State.Inv.refused {s : State} (h : s.Inv) (op : BitVec 4) (sem : Bool) (c : Cause) : (s.refused op sem c).Inv :=
  .of_not_running nofun h.params (.inl ⟨rfl, c, rfl, rfl⟩) (Nat.zero_le _) nofun

theorem State.Inv.completed {s : State} (h : s.Inv) (op : BitVec 4) (n : Int) (inA inB out : Word) :
    (s.completed op n inA inB out).Inv :=
  .of_not_running nofun h.params (.inr ⟨nofun, rfl, rfl⟩) (Nat.zero_le _) fun _ => rfl

theorem State.Inv.accepted {s : State} (h : s.Inv) (op : BitVec 4) (sem : Bool) {e : Engine} (hk : e.k = 0)
    (he : e.Ok s.params) : (s.accepted op sem e).Inv where
  params := h.params
  report := .inr ⟨nofun, rfl, rfl⟩
  iters := Nat.zero_le _
  itersZero := nofun
  counter _ := hk.symm
  engine _ := he

theorem State.Inv.resetAction {s : State} (h : s.Inv) : s.resetAction.Inv :=
  .of_not_running nofun h.params (.inr ⟨nofun, rfl, rfl⟩) (Nat.zero_le _) fun _ => rfl

theorem State.Inv.raise {s : State} (h : s.Inv) (c : Cause) : (s.raise c).Inv :=
  .of_not_running nofun h.params (.inl ⟨rfl, c, rfl, rfl⟩) h.iters nofun

/-- The end of an engine step: it terminates, or it goes on with a pointer below the budget (R105). -/
theorem State.Inv.advance {s : State} {e : Engine} (h : s.Inv) (hr : s.running = true) (ha : Applied s e) :
    (s.advance e).Inv := by
  have hok := h.engine hr
  have hno := h.noError hr
  have hiters : (BitVec.ofNat 7 (e.k + 1)).toNat = e.k + 1 ∧ e.k + 1 ≤ 64 := by
    obtain ⟨-, -, hk⟩ := ha.frame
    have hpointer := hok.pointer
    have hbudget := hok.budget
    simp only [BitVec.toNat_ofNat]
    omega
  have hle : (BitVec.ofNat 7 (e.k + 1)).toNat ≤ 64 := hiters.1.trans_le hiters.2
  obtain ⟨-, -, ht⟩ | ⟨-, -, ht⟩ | ⟨-, hn, ht⟩ := State.advance_cases e s <;> rw [ht]
  · exact .of_not_running nofun h.params (.inr ⟨nofun, hno⟩) hle nofun
  · exact .of_not_running nofun h.params (.inr ⟨nofun, hno⟩) hle nofun
  · have hnext := ha.ok h.params hok hn
    exact ⟨h.params, h.report, hle, fun hz => by simp [State.counted, s.running_iff.1 hr] at hz, fun _ => hiters.1,
      fun _ => hnext⟩

/-! ### Every step keeps the invariant -/

theorem issueApprox_inv {op : EngineOp} {ee : Bool} {n : Nat} {seed : State → Fmt → Fmt → Engine → Except Cause Engine}
    {s t : State} (h : s.Inv) (hs : SeedsApprox s.params op n seed) (ht : issueApprox op ee n seed s = .next t) : t.Inv := by
  obtain ⟨-, h'⟩ | ⟨-, c, h'⟩ | ⟨-, hp, hz, h1, h64, e, he, h'⟩ := issueApprox_cases op ee n seed s <;>
    cases h'.symm.trans ht
  · exact h.dropCommand
  · exact h.refused ..
  · have hseed := hs _ { s.eng with latch := ⟨op, .approx, ee, n, _, _, hv s.ins.opD⟩ } e he rfl rfl rfl ⟨hp, hz⟩
    exact h.accepted _ _ rfl (hseed.ok ⟨h1, h64⟩)

theorem issueIdeal_inv {op : EngineOp} {ee : Bool} {n : Nat} {seed : State → Engine → Except Cause Engine} {s t : State}
    (h : s.Inv) (hs : SeedsIdeal s.params op n seed) (ht : issueIdeal op ee n seed s = .next t) : t.Inv := by
  obtain ⟨-, h'⟩ | ⟨-, c, h'⟩ | ⟨-, h1, h64, e, he, h'⟩ := issueIdeal_cases op ee n seed s <;> cases h'.symm.trans ht
  · exact h.dropCommand
  · exact h.refused ..
  · exact h.accepted _ _ rfl ((hs _ _ e he rfl rfl rfl).ok ⟨h1, h64⟩)

theorem exec_primitive_inv {i : Instr} (hi : isPrimitive i = true) {s t : State} (h : s.Inv) (ht : exec i s = .next t) :
    t.Inv := by
  obtain ⟨-, h'⟩ | ⟨-, c, h'⟩ | ⟨-, n, inA, inB, out, h'⟩ := exec_primitive_cases hi s <;> cases h'.symm.trans ht
  · exact h.dropCommand
  · exact h.refused ..
  · exact h.completed ..

theorem exec_inv {i : Instr} {s t : State} (h : s.Inv) (ht : exec i s = .next t) : t.Inv := by
  cases i with
  | quant => exact exec_primitive_inv rfl h ht
  | neg => exact exec_primitive_inv rfl h ht
  | add => exact exec_primitive_inv rfl h ht
  | shr _ => exact exec_primitive_inv rfl h ht
  | rotCircA _ n => exact issueApprox_inv h (seedGain_seeds _ _ n true (op := .rotCirc) nofun nofun) ht
  | vecCircA _ n => exact issueApprox_inv h (seedGain_seeds _ _ n false (op := .vecCirc) nofun nofun) ht
  | rotHypA _ n => exact issueApprox_inv h (seedGain_seeds _ _ n true (op := .rotHyp) nofun nofun) ht
  | divLinA _ n => exact issueApprox_inv h (seedDivision_seeds _ n) ht
  | rotFastA _ n => exact issueApprox_inv h (seedFast_seeds _ n) ht
  | rotCircI _ n => exact issueIdeal_inv h (seedIdeal_seeds _ n true (op := .rotCirc) nofun nofun) ht
  | vecCircI _ n => exact issueIdeal_inv h (seedIdeal_seeds _ n false (op := .vecCirc) nofun nofun) ht
  | rotHypI _ n => exact issueIdeal_inv h (seedIdeal_seeds _ n true (op := .rotHyp) nofun nofun) ht
  | divLinI _ n => exact issueIdeal_inv h (seedDivisionIdeal_seeds _ n) ht
  | rotFastI _ n => exact issueIdeal_inv h (seedFastIdeal_seeds _ n) ht

theorem writeCmd_inv {c : Word} {s t : State} (h : s.Inv) (ht : writeCmd c s = .next t) : t.Inv := by
  unfold writeCmd at ht
  split at ht
  · exact exec_inv h ht
  next e _ =>
    cases hr : s.running with
    | true =>
      cases (issue_of_running hr ..).symm.trans ht
      exact h.dropCommand
    | false =>
      cases (issue_of_error hr (c := decodeCause e) rfl).symm.trans ht
      exact h.refused ..

theorem engineTurn_inv {s t : State} (h : s.Inv) (ht : engineTurn s = .next t) : t.Inv := by
  cases hr : s.running with
  | false =>
    cases (engineTurn_of_not_running hr).symm.trans ht
    exact h
  | true =>
    rw [engineTurn_of_running hr] at ht
    obtain ⟨e, ha, h'⟩ | ⟨-, -, h'⟩ | ⟨-, -, h'⟩ := engineStep_cases s <;> cases h'.symm.trans ht
    · exact h.advance hr ha
    · exact h.raise _

theorem State.Inv.poll {s : State} (h : s.Inv) : s.poll.Inv := by
  unfold State.poll
  split <;> exact h.of_frame rfl rfl rfl

theorem hostEvent_inv {ev : HostEvent} {s t : State} (h : s.Inv) (ht : hostEvent ev s = .next t) : t.Inv := by
  cases ev with
  | write a w =>
    rw [hostEvent] at ht
    split at ht
    · exact writeCmd_inv h ht
    · cases ht
      exact h.of_frame rfl rfl rfl
  | read a =>
    cases ht
    exact h.of_frame rfl rfl rfl
  | reset =>
    cases ht
    exact h.resetAction
  | wait =>
    cases ht
    exact h.poll
  | engine => exact engineTurn_inv h ht

/-- Settles O53, by the item the step performs: a host access frames the invariant, an issue ends in one of the states it can
answer, and an engine step keeps the engine's formats and bounds or ends the run. -/
theorem invariantKeptByEveryStep : Obligations.InvariantKeptByEveryStep := by
  intro s t h ht
  cases hp : s.pending with
  | nil => exact engineTurn_inv h (step_nil hp ▸ ht)
  | cons ev rest => exact hostEvent_inv (h.of_frame rfl rfl rfl : (s.setPending rest).Inv) (step_cons hp ▸ ht)

end Sys2Proof.Machine

/-! # The host's address space (20_memory.md) -/

namespace Sys2Proof.Machine

/-! ### Register writes and reads -/

/-- R23: a FMT register reads as the word written, less bits [7:6] and [63:14]. -/
theorem FmtReg.word_ofWord (c : Word) : (FmtReg.ofWord c).word = c &&& 0x3F3F#64 := by
  apply BitVec.eq_of_getLsbD_eq
  intro j hj
  simp only [FmtReg.word, FmtReg.ofWord, BitVec.getLsbD_and, BitVec.getLsbD_append, BitVec.getLsbD_extractLsb']
  interval_cases j <;> simp

/-- R55's map of the RW registers, read by register: each takes the word at its own address and keeps its value at every other. -/
theorem InRegs.write_eq (a : Addr) (w : Word) (r : InRegs) : r.write a w =
    { fmtIn := if a.toNat = 2 then FmtReg.ofWord w else r.fmtIn
      fmtOut := if a.toNat = 3 then FmtReg.ofWord w else r.fmtOut
      fmtXy := if a.toNat = 4 then FmtReg.ofWord w else r.fmtXy
      fmtZ := if a.toNat = 5 then FmtReg.ofWord w else r.fmtZ
      opA := if a.toNat = 6 then w else r.opA
      opB := if a.toNat = 7 then w else r.opB
      opC := if a.toNat = 8 then w else r.opC
      opD := if a.toNat = 9 then w else r.opD } := by
  unfold InRegs.write
  split <;> simp_all

@[simp] theorem State.readReg_setPending (p : List HostEvent) (a : Addr) (s : State) :
    (s.setPending p).readReg a = s.readReg a := rfl

theorem State.readReg_writeReg_same {a : Addr} (h2 : 2 ≤ a.toNat) (h9 : a.toNat ≤ 9) (w : Word) (s : State) :
    (s.writeReg a w).readReg a = .word (if a.toNat ≤ 5 then w &&& 0x3F3F#64 else w) := by
  simp only [State.readReg, State.writeReg_ins, InRegs.write_eq, apply_ite FmtReg.word, FmtReg.word_ofWord]
  interval_cases a.toNat <;> rfl

/-- Whichever register `b` reads, `InRegs.write_eq` asks there whether `a` is that register's own address, and it is not. -/
theorem State.readReg_writeReg_of_ne {a b : Addr} (h : b ≠ a) (w : Word) (s : State) :
    (s.writeReg a w).readReg b = s.readReg b := by
  have hne : a.toNat ≠ b.toNat := fun he => h (BitVec.eq_of_toNat_eq he.symm)
  simp only [State.readReg, State.writeReg_ins, InRegs.write_eq]
  split <;> simp_all

/-- R52: CMD and the reserved addresses. -/
theorem State.readReg_of_reserved {a : Addr} (h : a.toNat = 0 ∨ 16 ≤ a.toNat) (s : State) : s.readReg a = .word 0 := by
  unfold State.readReg
  split <;> first | rfl | omega

/-! ### One round of WAIT -/

theorem State.poll_of_running {s : State} (h : s.running = true) :
    s.poll = (s.hostRead 1).setPending (.engine :: .wait :: s.pending) := if_pos h

theorem State.poll_of_not_running {s : State} (h : s.running = false) : s.poll = s.hostRead 1 := if_neg (by simp [h])

/-! ### The step of a host access -/

/-- Every write but CMD's, which issues a command, is a register write. -/
theorem step_write {s : State} {a : Addr} {w : Word} {rest : List HostEvent} (h : s.pending = .write a w :: rest)
    (ha : a.toNat ≠ 0) : step s = .next ((s.setPending rest).writeReg a w) := by
  have ha' : a ≠ 0 := fun he => ha (he ▸ rfl)
  rw [step_cons h, hostEvent, if_neg ha']

theorem step_read {s : State} {a : Addr} {rest : List HostEvent} (h : s.pending = .read a :: rest) :
    step s = .next ((s.setPending rest).hostRead a) := step_cons h

theorem step_wait {s : State} {rest : List HostEvent} (h : s.pending = .wait :: rest) :
    step s = .next (s.setPending rest).poll := step_cons h

/-! ### The obligations -/

/-- Settles O2, by the laws of a read after a write to the same and to another address; which register an address names is
`InRegs.write` at that address. -/
theorem writeStoresTheWordAndNothingElse : Obligations.WriteStoresTheWordAndNothingElse := by
  intro s a w rest hp h2 h9
  refine ⟨_, step_write hp (by omega), State.readReg_writeReg_same h2 h9 w _,
    fun b hb => (State.readReg_writeReg_of_ne hb w _).trans (State.readReg_setPending ..), rfl, ?_, ?_, ?_, ?_, ?_, ?_, ?_,
    ?_⟩
  all_goals
    rintro rfl
    rfl

/-- Settles O3: such a write is a register write that no register takes. -/
theorem reservedAndReadOnlyAddresses : Obligations.ReservedAndReadOnlyAddresses := by
  refine ⟨fun s a w rest hp ha => ?_, fun s a ha => s.readReg_of_reserved (ha.imp_left (· ▸ rfl))⟩
  rw [step_write hp (by omega), State.writeReg, InRegs.write_of_other (by omega)]
  rfl

/-- Settles O4: a read is `State.hostRead`, the map of R55 is `State.readReg` at each address, and WAIT is `State.poll`. -/
theorem hostReadChangesNothing : Obligations.HostReadChangesNothing := by
  refine ⟨fun s a rest hp => step_read hp, fun s => ?map, fun s rest hp => ⟨fun hr => ?idle, fun hr => ?running⟩⟩
  case map => exact ⟨rfl, rfl, rfl, rfl, rfl, rfl, rfl, rfl, rfl, rfl, rfl, rfl, rfl, rfl, rfl⟩
  case idle =>
    rw [step_wait hp, State.poll_of_not_running (s := s.setPending rest) hr]
    rfl
  case running =>
    rw [step_wait hp, State.poll_of_running (s := s.setPending rest) hr]
    rfl

end Sys2Proof.Machine

/-! # Command words (30_encoding.md) -/

namespace Sys2Proof

open Machine (instrOp instrSem)

/-! ### The fields of a masked word -/

theorem extractLsb'_and_of_ones {m : Word} {lo n : Nat} (h : m.extractLsb' lo n = BitVec.allOnes n) (c : Word) :
    (c &&& m).extractLsb' lo n = c.extractLsb' lo n := by
  rw [BitVec.extractLsb'_and, h, BitVec.and_allOnes]

theorem rsvField_and_of_ones {m : Word} (h : rsvField m = BitVec.allOnes 45) (c : Word) : rsvField (c &&& m) = rsvField c := by
  have hand : rsvField (c &&& m) = rsvField c &&& rsvField m := by
    simp only [rsvField, BitVec.extractLsb'_and]
    rw [BitVec.and_append, BitVec.and_append]
  rw [hand, h, BitVec.and_allOnes]

/-- The reserved bits of a command word (R79). -/
def rsvMask : Word := 0xFFFFFFFFFFC080C0#64

theorem opField_and_rowMask (c : Word) : opField (c &&& rowMask) = opField c := extractLsb'_and_of_ones rfl c

theorem semField_and_rowMask (c : Word) : semField (c &&& rowMask) = semField c := by
  simp [semField, rowMask]

theorem rsvField_and_rowMask (c : Word) : rsvField (c &&& rowMask) = rsvField c := rsvField_and_of_ones rfl c

theorem shamtField_and_mask (c : Word) : shamtField (c &&& 0x3F0000#64) = shamtField c :=
  congrArg BitVec.toNat (extractLsb'_and_of_ones rfl c)

theorem iterField_and_mask (c : Word) : iterField (c &&& 0x7F20#64) = iterField c :=
  congrArg BitVec.toNat (extractLsb'_and_of_ones rfl c)

theorem eeField_and_mask (c : Word) : eeField (c &&& 0x7F20#64) = eeField c := by
  simp [eeField]

/-- The bits that the mask of R81 keeps are RSV's, SEM and OP's. -/
theorem and_rowMask_eq_fields (c : Word) : c &&& rowMask =
    (rsvField c).extractLsb' 3 42 ++ 0#6 ++ (rsvField c).extractLsb' 2 1 ++ 0#7 ++ (rsvField c).extractLsb' 0 2 ++ 0#1 ++
      BitVec.ofBool (semField c) ++ opField c := by
  apply BitVec.eq_of_getLsbD_eq
  intro j hj
  simp only [rowMask, rsvField, semField, opField, BitVec.getLsbD_and, BitVec.getLsbD_append, BitVec.getLsbD_extractLsb']
  interval_cases j <;> simp

theorem and_rowMask_eq_iff {c d : Word} : c &&& rowMask = d &&& rowMask ↔
    rsvField c = rsvField d ∧ opField c = opField d ∧ semField c = semField d := by
  constructor
  · intro h
    rw [← rsvField_and_rowMask c, ← opField_and_rowMask c, ← semField_and_rowMask c, h, rsvField_and_rowMask,
      opField_and_rowMask, semField_and_rowMask]
    exact ⟨rfl, rfl, rfl⟩
  · rintro ⟨hr, ho, hs⟩
    rw [and_rowMask_eq_fields, hr, ho, hs, ← and_rowMask_eq_fields]

theorem rsvField_eq_zero_iff {c : Word} : rsvField c = 0 ↔ c &&& rsvMask = 0 := by
  have hmask : (c &&& rsvMask) &&& rowMask = c &&& rsvMask := BitVec.and_assoc ..
  have hrsv : rsvField (c &&& rsvMask) = rsvField c := rsvField_and_of_ones rfl c
  have hop : opField (c &&& rsvMask) = 0 := BitVec.extractLsb'_and.trans BitVec.and_zero
  have hsem : semField (c &&& rsvMask) = false := by simp [semField, rsvMask]
  have hzero := and_rowMask_eq_iff (c := c &&& rsvMask) (d := 0)
  rw [hmask, hrsv] at hzero
  exact ⟨fun h => hzero.2 ⟨h, hop, hsem⟩, fun h => (hzero.1 h).1⟩

/-! ### The rows of the opcode map -/

/-- R81's match `OP | SEM << 4`. -/
def rowWord (sem : Bool) (op : BitVec 4) : Word := BitVec.setWidth 64 (BitVec.ofBool sem ++ op)

theorem matchWord_eq (i : Instr) : matchWord i = rowWord (instrSem i) (instrOp i) := by
  cases i <;> simp [matchWord, rowWord, instrSem, instrOp]

@[simp] theorem rowWord_and_rowMask : ∀ sem op, rowWord sem op &&& rowMask = rowWord sem op := by decide

@[simp] theorem rsvField_rowWord : ∀ sem op, rsvField (rowWord sem op) = 0 := by decide

@[simp] theorem opField_rowWord : ∀ sem op, opField (rowWord sem op) = op := by decide

@[simp] theorem semField_rowWord : ∀ sem op, semField (rowWord sem op) = sem := by decide

/-- R81: a word has a command's match under the mask where no reserved bit is set and OP and SEM are the command's. -/
theorem and_rowMask_eq_matchWord_iff {c : Word} {i : Instr} : c &&& rowMask = matchWord i ↔
    rsvField c = 0 ∧ opField c = instrOp i ∧ semField c = instrSem i := by
  rw [matchWord_eq, ← rowWord_and_rowMask, and_rowMask_eq_iff, rsvField_rowWord, opField_rowWord, semField_rowWord]

/-- The command of `i`'s row with the operands that a word holds (R80). -/
def Instr.readFields (c : Word) : Instr → Instr
  | .quant => .quant
  | .neg => .neg
  | .add => .add
  | .shr _ => .shr (shamtField c)
  | .rotCircA _ _ => .rotCircA (eeField c) (iterField c)
  | .rotCircI _ _ => .rotCircI (eeField c) (iterField c)
  | .vecCircA _ _ => .vecCircA (eeField c) (iterField c)
  | .vecCircI _ _ => .vecCircI (eeField c) (iterField c)
  | .rotHypA _ _ => .rotHypA (eeField c) (iterField c)
  | .rotHypI _ _ => .rotHypI (eeField c) (iterField c)
  | .divLinA _ _ => .divLinA (eeField c) (iterField c)
  | .divLinI _ _ => .divLinI (eeField c) (iterField c)
  | .rotFastA _ _ => .rotFastA (eeField c) (iterField c)
  | .rotFastI _ _ => .rotFastI (eeField c) (iterField c)

@[simp] theorem Instr.readFields_readFields (c : Word) (i : Instr) : (i.readFields c).readFields c = i.readFields c := by
  cases i <;> rfl

@[simp] theorem matchWord_readFields (c : Word) (i : Instr) : matchWord (i.readFields c) = matchWord i := by
  cases i <;> rfl

/-- What the decoder accepts: the words of a row, with the operands read from their fields (R80, R81). -/
theorem decode_eq_ok_iff {c : Word} {i : Instr} :
    decode c = .ok i ↔ c &&& rowMask = matchWord i ∧ i.readFields c = i := by
  rw [and_rowMask_eq_matchWord_iff, decode]
  constructor
  · intro h
    split at h
    next hrsv =>
      unfold decodeOp at h
      split at h
      case h_15 => split at h <;> cases h
      case h_16 => cases h
      all_goals
        cases h
        exact ⟨⟨hrsv, BitVec.eq_of_toNat_eq ‹_›, ‹_›⟩, rfl⟩
    next => cases h
  · rintro ⟨⟨hrsv, hop, hsem⟩, hi⟩
    rw [if_pos hrsv, decodeOp, hop, hsem]
    cases i <;> exact congrArg Except.ok hi

/-! ### The words of the encoder -/

theorem encode_and_rowMask : ∀ i : Instr, encode i &&& rowMask = matchWord i
  | .quant => Laws.MatchWord.quant
  | .neg => Laws.MatchWord.neg
  | .add => Laws.MatchWord.add
  | .shr k => Laws.MatchWord.shr k
  | .rotCircA ee n => Laws.MatchWord.rotCircA ee n
  | .rotCircI ee n => Laws.MatchWord.rotCircI ee n
  | .vecCircA ee n => Laws.MatchWord.vecCircA ee n
  | .vecCircI ee n => Laws.MatchWord.vecCircI ee n
  | .rotHypA ee n => Laws.MatchWord.rotHypA ee n
  | .rotHypI ee n => Laws.MatchWord.rotHypI ee n
  | .divLinA ee n => Laws.MatchWord.divLinA ee n
  | .divLinI ee n => Laws.MatchWord.divLinI ee n
  | .rotFastA ee n => Laws.MatchWord.rotFastA ee n
  | .rotFastI ee n => Laws.MatchWord.rotFastI ee n

@[simp] theorem shamtField_cmdWord (op : BitVec 4) (sem ee : Bool) (iter shamt : Nat) :
    shamtField (cmdWord op sem ee iter shamt) = shamt % 64 := by
  unfold shamtField cmdWord
  simp (disch := omega) only [BitVec.extractLsb'_append_eq_of_le, BitVec.extractLsb'_append_eq_of_add_le]
  simp

@[simp] theorem iterField_cmdWord (op : BitVec 4) (sem ee : Bool) (iter shamt : Nat) :
    iterField (cmdWord op sem ee iter shamt) = iter % 128 := by
  unfold iterField cmdWord
  simp (disch := omega) only [BitVec.extractLsb'_append_eq_of_le, BitVec.extractLsb'_append_eq_of_add_le]
  simp

@[simp] theorem eeField_cmdWord (op : BitVec 4) (sem ee : Bool) (iter shamt : Nat) :
    eeField (cmdWord op sem ee iter shamt) = ee := by
  simp only [eeField, cmdWord, BitVec.getLsbD_append]
  simp

/-- The encoder writes every operand into its field, which holds it (R79). -/
theorem readFields_encode {i : Instr} (h : i.wellFormed = true) : i.readFields (encode i) = i := by
  cases i <;> simp_all [Instr.wellFormed, Instr.readFields, encode, Nat.mod_eq_of_lt]

/-! ### The operand fields as numbers -/

theorem shamtField_eq_toNat (c : Word) : shamtField c = c.toNat / 2 ^ 16 % 2 ^ 6 := by
  rw [shamtField, BitVec.extractLsb'_toNat, Nat.shiftRight_eq_div_pow]

theorem iterField_eq_toNat (c : Word) : iterField c = c.toNat / 2 ^ 8 % 2 ^ 7 := by
  rw [iterField, BitVec.extractLsb'_toNat, Nat.shiftRight_eq_div_pow]

theorem eeField_iff_toNat (c : Word) : eeField c = true ↔ c.toNat / 2 ^ 5 % 2 = 1 := by
  rw [eeField, ← BitVec.testBit_toNat, Nat.testBit_eq_decide_div_mod_eq, decide_eq_true_iff]

/-! ### The words that are refused, and the fields that are read -/

theorem decode_of_reservedBits {c : Word} (h : rsvField c ≠ 0) : decode c = .error .reservedBits := if_neg h

theorem decode_of_reservedOp {c : Word} (hrsv : rsvField c = 0) (hop : 9 ≤ (opField c).toNat) :
    decode c = .error .reservedOp := by
  rw [decode, if_pos hrsv, decodeOp]
  split
  case h_15 => rw [if_neg (by omega)]
  case h_16 => rfl
  all_goals omega

theorem decode_of_semNotAllowed {c : Word} (hrsv : rsvField c = 0) (hop : (opField c).toNat ≤ 3) (hsem : semField c = true) :
    decode c = .error .semNotAllowed := by
  rw [decode, if_pos hrsv, decodeOp, hsem]
  split
  case h_1 | h_2 | h_3 | h_4 | h_16 => contradiction
  case h_15 => rw [if_pos (by omega)]
  all_goals omega

/-- Decoding reads SHAMT where OP is 3, EE and ITER where OP is 4 or more, and no other field besides OP, SEM and RSV (R80). -/
theorem decode_congr {c d : Word} (hrow : c &&& rowMask = d &&& rowMask)
    (hshr : (opField c).toNat = 3 → shamtField c = shamtField d)
    (heng : 4 ≤ (opField c).toNat → eeField c = eeField d ∧ iterField c = iterField d) : decode c = decode d := by
  obtain ⟨hrsv, hop, hsem⟩ := and_rowMask_eq_iff.1 hrow
  rw [hop] at hshr heng
  rw [decode, decode, hrsv, decodeOp, decodeOp, hop, hsem]
  split
  case isFalse => rfl
  case isTrue =>
    split
    case h_4 h _ => rw [hshr h]
    case h_5 | h_6 | h_7 | h_8 | h_9 | h_10 | h_11 | h_12 | h_13 | h_14 =>
      obtain ⟨hee, hiter⟩ := heng (by omega)
      rw [hee, hiter]
    all_goals rfl

end Sys2Proof

namespace Sys2Proof.Machine

/-! ### The CMD write of a word -/

theorem writeCmd_congr {c d : Word} (hd : decode c = decode d) (hrow : c &&& rowMask = d &&& rowMask) (s : State) :
    writeCmd c s = writeCmd d s := by
  obtain ⟨-, hop, hsem⟩ := and_rowMask_eq_iff.1 hrow
  rw [writeCmd, writeCmd, hd]
  unfold refuseWord
  rw [hop, hsem]

theorem writeCmd_of_error {s : State} (hr : s.running = false) {c : Word} {e : DecodeError} (h : decode c = .error e) :
    writeCmd c s = .next (s.refused (opField c) (semField c) (decodeCause e)) := by
  rw [writeCmd, h]
  exact issue_of_error hr rfl

/-! ### The obligations -/

/-- Settles O6: the encoding stands in its command's row, and the operands read from it are the command's own. -/
theorem decodeEncodeRoundTrip : Obligations.DecodeEncodeRoundTrip :=
  fun i h => decode_eq_ok_iff.2 ⟨encode_and_rowMask i, readFields_encode h⟩

/-- Settles O7: the two directions of `decode_eq_ok_iff`; the command found has the row's operands read from the word. -/
theorem decodeFollowsTheOpcodeMap : Obligations.DecodeFollowsTheOpcodeMap :=
  ⟨fun _ _ h => (decode_eq_ok_iff.1 h).1, fun c i h => ⟨i.readFields c,
    decode_eq_ok_iff.2 ⟨h.trans (matchWord_readFields c i).symm, i.readFields_readFields c⟩, matchWord_readFields c i⟩⟩

/-- Settles O8: a decoded command is the one its own word's fields give, and a field is a quotient's remainder. -/
theorem operandsAreTheWordsFields : Obligations.OperandsAreTheWordsFields := by
  refine fun c => ⟨fun k h => ?shamt, fun ee n h => ?engine⟩
  case shamt =>
    cases (decode_eq_ok_iff.1 h).2
    exact shamtField_eq_toNat c
  case engine =>
    rcases h with h | h | h | h | h | h | h | h | h | h <;> cases (decode_eq_ok_iff.1 h).2 <;>
      exact ⟨iterField_eq_toNat c, eeField_iff_toNat c⟩

/-- Settles O9, by evaluating the decoder. -/
theorem writtenOutWordsDecode : Obligations.WrittenOutWordsDecode :=
  ⟨by rfl, by rfl, by rfl, by rfl, by rfl, by rfl, by rfl, by rfl, by rfl⟩

/-- Settles O10: the two words decode alike, and a refusal reads OP and SEM only. -/
theorem ignoredFieldsHaveNoEffect : Obligations.IgnoredFieldsHaveNoEffect := by
  intro c d s hrow hshr heng
  refine writeCmd_congr (decode_congr hrow (fun h => ?shamt) fun h => ?engine) hrow s
  case shamt =>
    rw [← shamtField_and_mask, hshr (BitVec.eq_of_toNat_eq h), shamtField_and_mask]
  case engine =>
    rw [← eeField_and_mask, ← iterField_and_mask, heng h, eeField_and_mask, iterField_and_mask]
    exact ⟨rfl, rfl⟩

/-- Settles O11: each clause is one of the decoder's errors, and its refusal is the issue of that error. -/
theorem reservedWordsRaiseConfigError : Obligations.ReservedWordsRaiseConfigError := by
  intro s c hr
  refine ⟨fun h => ?bits, fun h hop => ?op, fun h hop hsem => ?sem⟩
  case bits => exact writeCmd_of_error hr (decode_of_reservedBits (mt rsvField_eq_zero_iff.1 h))
  case op => exact writeCmd_of_error hr (decode_of_reservedOp (rsvField_eq_zero_iff.2 h) hop)
  case sem =>
    have hw := writeCmd_of_error hr (decode_of_semNotAllowed (rsvField_eq_zero_iff.2 h) hop hsem)
    rwa [show semField c = true from hsem] at hw

end Sys2Proof.Machine

/-! # Command dispatch (40_command_dispatch.md) -/

namespace Sys2Proof.Machine

/-! ### The step of a CMD write and of the engine's turn -/

/-- R21, R100: the item is taken from the list, then the word is issued. -/
theorem step_writeCmd {s : State} {c : Word} {rest : List HostEvent} (h : s.pending = .write 0 c :: rest) :
    step s = writeCmd c (s.setPending rest) := by
  rw [step_cons h, hostEvent, if_pos rfl]

theorem step_engine {s : State} {rest : List HostEvent} (h : s.pending = .engine :: rest) :
    step s = engineTurn (s.setPending rest) := step_cons h

theorem writeCmd_of_decode {c : Word} {i : Instr} (h : decode c = .ok i) (s : State) : writeCmd c s = exec i s := by
  rw [writeCmd, h]

theorem decode_tableWord {nbits w : Nat} {i : Instr} (h : decodeTableWord nbits w = some i) :
    decode (tableWord nbits w) = .ok i := by
  unfold decodeTableWord at h
  split at h
  next hd => rw [hd, Option.some.inj h]
  next => cases h

/-- Settles O13: the step is the issue of the word, and the issue of a word that decodes is its command's exec. -/
theorem stepIssuesTheDecodedCommand : Obligations.StepIssuesTheDecodedCommand := by
  refine ⟨fun s c rest hp => step_writeCmd hp, fun s c i rest hp hd => ?_, fun s nbits w i hd => ?_⟩
  · exact (step_writeCmd hp).trans (writeCmd_of_decode hd _)
  · exact (step_writeCmd rfl).trans (writeCmd_of_decode (decode_tableWord hd) _)

/-- Settles O14: in both cases the step is the engine's turn. -/
theorem engineStepsOnlyWhileRunning : Obligations.EngineStepsOnlyWhileRunning :=
  ⟨fun _ hp => step_nil hp, fun _ _ hp => step_engine hp⟩

/-- Settles O15: whatever the word decodes to, its issue drops it. -/
theorem commandIsDroppedWhileRunning : Obligations.CommandIsDroppedWhileRunning := fun s c rest hp hr =>
  (step_writeCmd hp).trans (writeCmd_of_running (s := s.setPending rest) hr c)

/-! ### What an issue writes and what it leaves -/

/-- The report that the issue of a command of these OP and SEM leaves (R102, R224). -/
def State.Issued (op : BitVec 4) (sem : Bool) (t : State) : Prop :=
  t.status.lastOp = op ∧ t.status.lastSem = sem ∧ t.status.ovr = false ∧ t.status.iters = 0 ∧
    (t.status.state ≠ .error → t.status.errCode = 0 ∧ t.status.errDetail = 0)

theorem State.refused_issued (s : State) (op : BitVec 4) (sem : Bool) (c : Cause) : (s.refused op sem c).Issued op sem :=
  ⟨rfl, rfl, rfl, rfl, fun h => absurd rfl h⟩

theorem State.accepted_issued (s : State) (op : BitVec 4) (sem : Bool) (e : Engine) : (s.accepted op sem e).Issued op sem :=
  ⟨rfl, rfl, rfl, rfl, fun _ => ⟨rfl, rfl⟩⟩

theorem State.completed_issued (s : State) (op : BitVec 4) (n : Int) (inA inB out : Word) :
    (s.completed op n inA inB out).Issued op false := ⟨rfl, rfl, rfl, rfl, fun _ => ⟨rfl, rfl⟩⟩

/-- A primitive has one semantics, SEM = 0 (R81). -/
theorem instrSem_of_isPrimitive {i : Instr} (h : isPrimitive i = true) : instrSem i = false := by
  revert h
  cases i <;> simp [isPrimitive, instrOp, instrSem]

theorem exec_issued (i : Instr) {s : State} (hr : s.running = false) :
    ∃ t, exec i s = .next t ∧ t.Issued (instrOp i) (instrSem i) := by
  have hnot : s.running ≠ true := by simp [hr]
  cases hi : isPrimitive i with
  | true =>
    obtain ⟨h, -⟩ | ⟨-, c, h⟩ | ⟨-, n, inA, inB, out, h⟩ := exec_primitive_cases hi s
    · exact absurd h hnot
    · exact ⟨_, h, s.refused_issued ..⟩
    · exact ⟨_, h, instrSem_of_isPrimitive hi ▸ s.completed_issued ..⟩
  | false =>
    obtain ⟨h, -⟩ | ⟨-, c, h⟩ | ⟨-, e, -, h⟩ := exec_engine_cases hi s
    · exact absurd h hnot
    · exact ⟨_, h, s.refused_issued ..⟩
    · exact ⟨_, h, s.accepted_issued ..⟩

/-- Settles O16: a word's command has the word's OP and SEM, and a word that is no command is refused with them. -/
theorem issueClearsTheReport : Obligations.IssueClearsTheReport := by
  intro s c hr
  cases hd : decode c with
  | ok i =>
    obtain ⟨-, hop, hsem⟩ := and_rowMask_eq_matchWord_iff.1 (decode_eq_ok_iff.1 hd).1
    rw [writeCmd_of_decode hd]
    obtain ⟨t, ht, hissued⟩ := exec_issued i hr
    rw [← hop, ← hsem] at hissued
    exact ⟨t, ht, hissued⟩
  | error e => exact ⟨_, writeCmd_of_error hr hd, s.refused_issued ..⟩

/-- Settles O19, by the three answers of a primitive: dropped, refused, completed. -/
theorem primitiveFrame : Obligations.PrimitiveFrame := by
  intro i s t hi ht
  obtain ⟨-, h⟩ | ⟨hr, c, h⟩ | ⟨hr, n, inA, inB, out, h⟩ := exec_primitive_cases hi s <;> cases h.symm.trans ht
  · exact ⟨rfl, rfl, rfl, rfl, rfl, rfl, rfl, fun _ => ⟨rfl, rfl⟩⟩
  all_goals exact ⟨rfl, rfl, rfl, rfl, rfl, rfl, rfl, fun h => by simp [hr] at h⟩

/-- Settles O20, by the three answers of an engine command: only the accepted one, which is RUNNING, writes the engine. -/
theorem engineIssueFrame : Obligations.EngineIssueFrame := by
  intro i s t hi ht
  obtain ⟨-, h⟩ | ⟨-, c, h⟩ | ⟨hr, e, -, h⟩ := exec_engine_cases hi s <;> cases h.symm.trans ht
  · exact ⟨rfl, rfl, rfl, rfl, rfl, fun _ => rfl⟩
  · exact ⟨rfl, rfl, rfl, rfl, rfl, fun _ => rfl⟩
  · exact ⟨rfl, rfl, rfl, rfl, rfl, fun h => h.elim (absurd rfl) fun h => by simp [hr] at h⟩

/-! ### The engine step -/

/-- Settles O46: the step ends as `State.advance` does, or raises COVERAGE, or stops in the fault. -/
theorem stepCountsAndEnds : Obligations.StepCountsAndEnds := by
  intro s t hr ht herr
  obtain ⟨e, ha, h⟩ | ⟨-, -, h⟩ | ⟨-, -, h⟩ := engineStep_cases s <;> cases h.symm.trans ht
  · obtain ⟨hlatch, hentries, hk⟩ := ha.frame
    rw [State.advance_eng, State.advance_status, converged_setK, s.running_iff.1 hr, ← hlatch, ← hentries, ← hk]
    exact ⟨rfl, rfl, rfl, rfl, rfl⟩
  · exact absurd rfl herr

/-! ### Every run ends (R107, R176) -/

/-- A table has as many entries as its budget (R143). -/
@[simp] theorem length_tableFrom (mode : Mode) (n i : Nat) : (tableFrom mode n i).length = n := by
  fun_induction tableFrom mode n i <;> simp_all

@[simp] theorem length_angleTable (mode : Mode) (n : Nat) : (angleTable mode n).length = n := length_tableFrom ..

/-- While the pointer is below the budget a standard mode finds its entry. -/
theorem Engine.Ok.entry {params : Params} {e : Engine} (h : e.Ok params) (hop : e.latch.op ≠ .rotFast) :
    e.entries[e.k]? ≠ none := by
  rw [h.table hop, ne_eq, List.getElem?_eq_none_iff, length_angleTable, not_le]
  exact h.pointer

/-- How a run of operation `op` ends whose last engine step is its `n`-th (R107, R207). -/
def State.EndedAt (op : EngineOp) (n : Nat) (t : State) : Prop :=
  (t.status.state = .convergedEarly ∨ t.status.state = .exhausted) ∧ t.status.errCode = 0 ∧ t.status.errDetail = 0 ∧
      t.status.iters.toNat = n ∨
    op = .rotFast ∧ t.status.state = .error ∧ t.status.errCode = 2 ∧ t.status.errDetail = 0x02 ∧ t.status.iters.toNat + 1 = n

/-- What one engine step of a run whose pointer was `k` leads to: the run goes on, or it has ended. -/
def State.StepsTo (s t : State) : Prop :=
  (t.Inv ∧ t.running = true ∧ t.pending = [] ∧ t.eng.latch = s.eng.latch ∧ t.eng.k = s.eng.k + 1 ∧
      s.eng.k + 1 < s.eng.latch.n) ∨
    t.EndedAt s.eng.latch.op (s.eng.k + 1)

theorem State.Inv.advance_stepsTo {s : State} {e : Engine} (h : s.Inv) (hr : s.running = true) (hp : s.pending = [])
    (ha : Applied s e) : s.StepsTo (s.advance e) := by
  have hok := h.engine hr
  obtain ⟨hlatch, -, hk⟩ := ha.frame
  have hpointer := hok.pointer
  have hbudget := hok.budget
  have hiters : (BitVec.ofNat 7 (e.k + 1)).toNat = s.eng.k + 1 := by
    rw [hk, BitVec.toNat_ofNat]
    omega
  have hinv := h.advance hr ha
  have hno := h.noError hr
  obtain ⟨-, -, ht⟩ | ⟨-, -, ht⟩ | ⟨-, hn, ht⟩ := State.advance_cases e s <;> rw [ht] at hinv ⊢
  · exact .inr (.inl ⟨.inl rfl, hno.1, hno.2, hiters⟩)
  · exact .inr (.inl ⟨.inr rfl, hno.1, hno.2, hiters⟩)
  · rw [hk, hlatch] at hn
    exact .inl ⟨hinv, hr, hp, hlatch, congrArg (· + 1) hk, by omega⟩

/-- Under the invariant an engine step has an effect, and a run goes on or ends by it. -/
theorem State.Inv.step_running {s : State} (h : s.Inv) (hr : s.running = true) (hp : s.pending = []) :
    ∃ t, step s = .next t ∧ s.StepsTo t := by
  rw [step_nil hp, engineTurn_of_running hr]
  obtain ⟨e, ha, ht⟩ | ⟨hop, -, ht⟩ | ⟨hop, hnone, -⟩ := engineStep_cases s
  · exact ⟨_, ht, h.advance_stepsTo hr hp ha⟩
  · exact ⟨_, ht, .inr (.inr ⟨hop, rfl, rfl, rfl, congrArg (· + 1) (h.counter hr)⟩)⟩
  · exact absurd hnone ((h.engine hr).entry hop)

/-- Settles O55, by induction on the budget that is left: each engine step ends the run or advances the pointer below `N`. -/
theorem terminationIsGuaranteed : Obligations.TerminationIsGuaranteed := by
  intro s h hr hp
  generalize hm : s.eng.latch.n - s.eng.k = m
  induction m generalizing s with
  | zero =>
    have := (h.engine hr).pointer
    omega
  | succ m ih =>
    obtain ⟨u, hu, ⟨hinv, hur, hup, hlatch, hk, hlt⟩ | hend⟩ := h.step_running hr hp
    case inl =>
      obtain ⟨j, t, h1, hj, ht, hbefore, hend⟩ := ih u hinv hur hup (by rw [hlatch, hk]; omega)
      refine ⟨j + 1, t, by omega, by omega, (core_run_succ hu).trans ht, fun i hi => ?_, ?_⟩
      · cases i with
        | zero => exact ⟨s, rfl, hr⟩
        | succ i =>
          obtain ⟨v, hv, hvr⟩ := hbefore i (by omega)
          exact ⟨v, (core_run_succ hu).trans hv, hvr⟩
      · rwa [hlatch, hk, show s.eng.k + 1 + j = s.eng.k + (j + 1) by omega] at hend
    case inr =>
      refine ⟨1, u, le_rfl, by omega, core_run_succ hu, fun i hi => ?_, hend⟩
      obtain rfl : i = 0 := by omega
      exact ⟨s, rfl, hr⟩

/-! ### A command that passes its checks -/

/-- A computation that makes the checks `cs`, in order: it fails for the first that fails, and with none answers a value of
which `P` holds (R225). -/
def Checked {α : Type} (cs : List (Bool × Cause)) (P : α → Prop) : Except Cause α → Prop
  | .ok v => firstFailure cs = none ∧ P v
  | .error c => firstFailure cs = some c

theorem Checked.bind {α β : Type} {a b : List (Bool × Cause)} {P : α → Prop} {Q : β → Prop} {x : Except Cause α}
    {f : α → Except Cause β} (hx : Checked a P x) (hf : ∀ v, P v → Checked b Q (f v)) : Checked (a ++ b) Q (x >>= f) := by
  cases x with
  | ok v =>
    obtain ⟨ha, hv⟩ := hx
    have hfv := hf v hv
    change Checked (a ++ b) Q (f v)
    cases hy : f v <;> simpa [hy, Checked, firstFailure_append, ha] using hfv
  | error c => exact (firstFailure_append a b).trans (by rw [show firstFailure a = some c from hx])

theorem Checked.bind_ok {α β : Type} {cs : List (Bool × Cause)} {P : α → Prop} {Q : β → Prop} {x : Except Cause α} {g : α → β}
    (hx : Checked cs P x) (hg : ∀ v, P v → Q (g v)) : Checked cs Q (x >>= fun v => .ok (g v)) := by
  cases x with
  | ok v => exact ⟨hx.1, hg v hx.2⟩
  | error c => exact hx

theorem checkFmt_checked (name : FmtName) (r : FmtReg) : Checked (fmtChecks name r) (· = r.fmt) (checkFmt name r) := by
  rw [checkFmt_eq]
  cases h : firstFailure (fmtChecks name r) <;> simp [Checked, h]

theorem checkIter_checked (n : Nat) : Checked (iterChecks n) (fun _ => True) (checkIter n) := by
  rw [checkIter_eq]
  cases h : firstFailure (iterChecks n) <;> simp [Checked, h]

theorem enc_checked (m : RoundMode) (v : Dyad) (f : Fmt) (s : RangeSubject) :
    Checked (encChecks m v f s) (· = roundTo m v f) (enc m v f s) := by
  rw [enc_eq]
  cases h : firstFailure (encChecks m v f s) <;> simp [Checked, h]

/-- The zero-divisor check, which is a division's last (R166, D20). -/
theorem zeroDivisor_checked {α : Type} {P : α → Prop} {v : α} (h : P v) {b c : Prop} [Decidable b] [Decidable c] (hbc : b ↔ c) :
    Checked [(decide c, .zeroDivisor)] P (if b then .error .zeroDivisor else .ok v) := by
  by_cases hc : c
  · simp [hbc, hc, Checked, firstFailure]
  · simp [hbc, hc, Checked, firstFailure, h]

/-- The issue of a command that makes the checks `cs`: the first failure is reported, and with none `P` holds of the next state
(R225, R102 to R104). -/
def DecidedBy (cs : List (Bool × Cause)) (op : BitVec 4) (sem : Bool) (P : State → Prop) (s : State) (r : Result) : Prop :=
  (∀ c, firstFailure cs = some c → r = .next (s.refused op sem c)) ∧ (firstFailure cs = none → ∃ t, r = .next t ∧ P t)

theorem issue_decidedBy {s : State} (hr : s.running = false) {op : BitVec 4} {sem : Bool}
    {body : State → Except Cause State} {cs : List (Bool × Cause)} {P : State → Prop}
    (h : Checked cs P (body (s.beginIssue op sem))) : DecidedBy cs op sem P s (issue op sem body s) := by
  cases hb : body (s.beginIssue op sem) with
  | ok t =>
    rw [hb] at h
    obtain ⟨hnone, ht⟩ := h
    exact ⟨fun c hc => by simp [hnone] at hc, fun _ => ⟨t, issue_of_ok hr hb, ht⟩⟩
  | error c =>
    rw [hb] at h
    have hsome : firstFailure cs = some c := h
    refine ⟨fun d hd => ?_, fun hn => by simp [hsome] at hn⟩
    obtain rfl : c = d := Option.some.inj (hsome.symm.trans hd)
    exact issue_of_error hr hb

/-- An accepted run of the operation of code `op` (R104). -/
def State.RunOf (op : BitVec 4) (t : State) : Prop := t.status.state = .running ∧ t.eng.latch.op.code = op

theorem issueApprox_decidedBy {s : State} (hr : s.running = false) {op : EngineOp} {ee : Bool} {n : Nat}
    {seed : State → Fmt → Fmt → Engine → Except Cause Engine} {cs : List (Bool × Cause)}
    (hseed : ∀ e, Checked cs (·.latch = e.latch) (seed (s.beginIssue op.code false) s.ins.fmtXy.fmt s.ins.fmtZ.fmt e)) :
    DecidedBy (fmtChecks .fmtXy s.ins.fmtXy ++ (fmtChecks .fmtZ s.ins.fmtZ ++ (iterChecks n ++ cs))) op.code false
      (State.RunOf op.code) s (issueApprox op ee n seed s) := by
  refine issue_decidedBy hr ((checkFmt_checked ..).bind ?_)
  rintro _ rfl
  refine (checkFmt_checked ..).bind ?_
  rintro _ rfl
  exact (checkIter_checked n).bind fun _ _ => (hseed _).bind_ok fun _ he => ⟨rfl, congrArg (·.op.code) he⟩

theorem issueIdeal_decidedBy {s : State} (hr : s.running = false) {op : EngineOp} {ee : Bool} {n : Nat}
    {seed : State → Engine → Except Cause Engine} {cs : List (Bool × Cause)}
    (hseed : ∀ e, Checked cs (·.latch = e.latch) (seed (s.beginIssue op.code true) e)) :
    DecidedBy (iterChecks n ++ cs) op.code true (State.RunOf op.code) s (issueIdeal op ee n seed s) :=
  issue_decidedBy hr ((checkIter_checked n).bind fun _ _ => (hseed _).bind_ok fun _ he => ⟨rfl, congrArg (·.op.code) he⟩)

/-- The checks of the gain-scaled seeds, and of the target where the command has one (R166). -/
theorem seedGain_checked (kw : Nat) (target : Bool) (mode : Mode) (n : Nat) (s : State) (p z : Fmt) (e : Engine) :
    Checked (encChecks s.params.roundMode (scaledSeed kw s.ins.opA) p .seedX ++
        (encChecks s.params.roundMode (scaledSeed kw s.ins.opB) p .seedY ++
          if target then encChecks s.params.roundMode (hv s.ins.opC) z .opC else []))
      (·.latch = e.latch) (seedGain kw target mode n s p z e) := by
  refine (enc_checked ..).bind fun x _ => (enc_checked ..).bind fun y _ => ?_
  cases target with
  | true => exact (enc_checked ..).bind_ok fun _ _ => rfl
  | false => exact ⟨rfl, rfl⟩

/-- The zero-divisor check is of the encoded divisor, `roundTo` of OPA where its encoding passed (D20). -/
theorem seedDivision_checked (n : Nat) (s : State) (p z : Fmt) (e : Engine) :
    Checked (encChecks s.params.roundMode (hv s.ins.opA) p .opA ++ (encChecks s.params.roundMode (hv s.ins.opB) p .opB ++
        [(decide (roundTo s.params.roundMode (hv s.ins.opA) p = 0), .zeroDivisor)]))
      (·.latch = e.latch) (seedDivision n s p z e) := by
  refine (enc_checked ..).bind ?_
  rintro _ rfl
  exact (enc_checked ..).bind fun y _ => zeroDivisor_checked (by rfl) Iff.rfl

theorem seedFast_checked (s : State) (p z : Fmt) (e : Engine) :
    Checked (encChecks s.params.roundMode (hv s.ins.opA) p .opA ++ (encChecks s.params.roundMode (hv s.ins.opB) p .opB ++
        encChecks s.params.roundMode (hv s.ins.opC) z .opC))
      (·.latch = e.latch) (seedFast s p z e) :=
  (enc_checked ..).bind fun _ _ => (enc_checked ..).bind fun _ _ => (enc_checked ..).bind_ok fun _ _ => rfl

theorem seedDivisionIdeal_checked (n : Nat) (s : State) (e : Engine) :
    Checked [(decide (s.ins.opA = 0), .zeroDivisor)] (·.latch = e.latch) (seedDivisionIdeal n s e) :=
  zeroDivisor_checked (by rfl) (hv_num_eq_zero_iff _)

/-- An engine command makes the checks of R225, in order, and with no failure it is an accepted run of its own operation. -/
theorem exec_engine_decidedBy {i : Instr} (hi : isPrimitive i = false) {s : State} (hr : s.running = false) :
    DecidedBy (checks i s) (instrOp i) (instrSem i) (State.RunOf (instrOp i)) s (exec i s) := by
  cases i <;> simp only [checks, List.append_assoc]
  case quant | neg | add | shr => cases hi
  case rotCircA n => exact issueApprox_decidedBy hr fun e => seedGain_checked (romKC n) true ..
  case vecCircA n => exact issueApprox_decidedBy hr fun e => seedGain_checked (romKC n) false ..
  case rotHypA n => exact issueApprox_decidedBy hr fun e => seedGain_checked (romKH s.params.hypGainRule n) true ..
  case divLinA n => exact issueApprox_decidedBy hr fun e => seedDivision_checked n (z := s.ins.fmtZ.fmt) ..
  case rotFastA => exact issueApprox_decidedBy hr fun e => seedFast_checked ..
  case rotCircI => exact issueIdeal_decidedBy hr fun e => ⟨rfl, rfl⟩
  case vecCircI => exact issueIdeal_decidedBy hr fun e => ⟨rfl, rfl⟩
  case rotHypI => exact issueIdeal_decidedBy hr fun e => ⟨rfl, rfl⟩
  case divLinI n => exact issueIdeal_decidedBy hr fun e => seedDivisionIdeal_checked n ..
  case rotFastI => exact issueIdeal_decidedBy hr fun e => ⟨rfl, rfl⟩

/-- With nothing pending a step writes neither LAST_OP nor LAST_SEM (R101, R105). -/
theorem step_lastOp {s t : State} (hp : s.pending = []) (h : step s = .next t) :
    t.pending = [] ∧ t.status.lastOp = s.status.lastOp ∧ t.status.lastSem = s.status.lastSem := by
  rw [step_nil hp] at h
  cases hr : s.running with
  | false =>
    cases (engineTurn_of_not_running hr).symm.trans h
    exact ⟨hp, rfl, rfl⟩
  | true =>
    rw [engineTurn_of_running hr] at h
    obtain ⟨e, -, h'⟩ | ⟨-, -, h'⟩ | ⟨-, -, h'⟩ := engineStep_cases s <;> cases h'.symm.trans h
    · rw [State.advance_pending, State.advance_status]
      exact ⟨hp, rfl, rfl⟩
    · exact ⟨hp, rfl, rfl⟩

theorem run_lastOp {j : Nat} {s t : State} (hp : s.pending = []) (h : Sys2Proof.core.run j s = .next t) :
    t.status.lastOp = s.status.lastOp ∧ t.status.lastSem = s.status.lastSem := by
  induction j generalizing s with
  | zero =>
    cases h
    exact ⟨rfl, rfl⟩
  | succ j ih =>
    obtain ⟨u, hu, h⟩ := core_run_succ_eq_next h
    obtain ⟨hup, hop, hsem⟩ := step_lastOp hp hu
    rw [← hop, ← hsem]
    exact ih hup h

theorem EngineOp.code_eq_rotFast_iff {op : EngineOp} : op = .rotFast ↔ op.code = 8 := by
  cases op <;> decide

/-- Settles O56: the command is accepted with its own operation latched, in a state of the invariant, from which its run ends. -/
theorem everyAcceptedCommandEnds : Obligations.EveryAcceptedCommandEnds := by
  intro i s hinv hr hp hi hchecks
  obtain ⟨a, ha, hrun, hop⟩ := (exec_engine_decidedBy hi hr).2 hchecks
  obtain ⟨-, -, -, hap, -⟩ := engineIssueFrame i s a hi ha
  obtain ⟨a', ha', hlastOp, hlastSem, -⟩ := exec_issued i hr
  cases ha.symm.trans ha'
  have hainv := exec_inv hinv ha
  have harun := a.running_iff.2 hrun
  have hbudget := (hainv.engine harun).budget
  obtain ⟨j, t, h1, hj, ht, -, hend⟩ := terminationIsGuaranteed a hainv harun (hap.trans hp)
  obtain ⟨htop, htsem⟩ := run_lastOp (hap.trans hp) ht
  refine ⟨a, t, j, ha, hrun, h1, by omega, ht, htop.trans hlastOp, htsem.trans hlastSem, ?_⟩
  obtain ⟨hstate, -⟩ | ⟨hfast, herr, hcode, hdetail, -⟩ := hend
  · exact hstate.imp_right .inl
  · exact .inr (.inr ⟨herr, hop.symm.trans (EngineOp.code_eq_rotFast_iff.1 hfast), hcode, hdetail⟩)


/-! ### What a run reads of the engine's state -/

/-- What a run reads of the engine's state; the rest, left over from earlier commands, is set to zero. An approximate run reads no
exact value, an ideal one no format and no integer, a standard mode no accumulator, and ROT.FAST no entry list, `x` or `y`. -/
def Engine.read (e : Engine) : Engine :=
  match e.latch.op, e.latch.sem with
  | .rotFast, .approx =>
    { e with entries := [], fix := ⟨0, 0, e.fix.z⟩, real := Engine.reset.real, realAcc := Engine.reset.realAcc }
  | .rotFast, .ideal =>
    { e with latch := { e.latch with p := ⟨0, 0⟩, z := ⟨0, 0⟩ }, entries := [], fix := Engine.reset.fix,
             real := ⟨⟨0, 0⟩, ⟨0, 0⟩, e.real.z⟩, fixAcc := Engine.reset.fixAcc }
  | _, .approx => { e with real := Engine.reset.real, fixAcc := Engine.reset.fixAcc, realAcc := Engine.reset.realAcc }
  | _, .ideal =>
    { e with latch := { e.latch with p := ⟨0, 0⟩, z := ⟨0, 0⟩ }, fix := Engine.reset.fix, fixAcc := Engine.reset.fixAcc,
             realAcc := Engine.reset.realAcc }

/-- The latched command but the formats, and the pointer. -/
theorem Engine.read_command (e : Engine) :
    e.read.latch.op = e.latch.op ∧ e.read.latch.ee = e.latch.ee ∧ e.read.latch.n = e.latch.n ∧ e.read.k = e.k := by
  unfold Engine.read
  split <;> exact ⟨rfl, rfl, rfl, rfl⟩

theorem Engine.read_entries {e : Engine} (h : e.latch.op ≠ .rotFast) : e.read.entries = e.entries := by
  unfold Engine.read
  split
  case h_1 | h_2 => contradiction
  all_goals rfl

/-- The pointer is read, so advancing it commutes with reading. -/
theorem Engine.read_count (e : Engine) : { e with k := e.k + 1 }.read = { e.read with k := e.read.k + 1 } := by
  obtain ⟨⟨op, sem, ee, n, p, z, eps⟩, entries, k, fix, real, fixAcc, realAcc⟩ := e
  cases op <;> cases sem <;> rfl

theorem converged_read (e : Engine) : converged e.read = converged e := by
  obtain ⟨⟨op, sem, ee, n, p, z, eps⟩, entries, k, fix, real, fixAcc, realAcc⟩ := e
  cases op <;> cases sem <;> rfl

/-- The results of a run that ends (R173, R208). -/
theorem results_read (rule : HypGainRule) (e : Engine) :
    resultX rule e.read = resultX rule e ∧ resultY rule e.read = resultY rule e ∧ resultZ e.read = resultZ e := by
  obtain ⟨⟨op, sem, ee, n, p, z, eps⟩, entries, k, fix, real, fixAcc, realAcc⟩ := e
  cases op <;> cases sem <;> exact ⟨rfl, rfl, rfl⟩

theorem applyEntry_read (m : RoundMode) (i : Nat) (e : Engine) : applyEntry m i e.read = (applyEntry m i e).read := by
  obtain ⟨⟨op, sem, ee, n, p, z, eps⟩, entries, k, fix, real, fixAcc, realAcc⟩ := e
  cases op <;> cases sem <;> rfl

theorem stage_read (table : List StageEntry) {e : Engine} (h : e.latch.op = .rotFast) :
    stage table e.read = (stage table e).map Engine.read := by
  obtain ⟨⟨op, sem, ee, n, p, z, eps⟩, entries, k, fix, real, fixAcc, realAcc⟩ := e
  cases h
  cases sem <;> simp only [stage, stageA, stageI, Option.map_map] <;> rfl

theorem Engine.op_eq_of_read {e e' : Engine} (h : e.read = e'.read) : e.latch.op = e'.latch.op := by
  rw [← e.read_command.1, h, e'.read_command.1]

/-- Engines that read alike end a step alike (R105). -/
theorem Engine.end_eq_of_read {e e' : Engine} (h : e.read = e'.read) :
    e.latch.ee = e'.latch.ee ∧ e.latch.n = e'.latch.n ∧ e.k = e'.k ∧ converged e = converged e' := by
  obtain ⟨-, hee, hn, hk⟩ := e.read_command
  obtain ⟨-, hee', hn', hk'⟩ := e'.read_command
  rw [← hee, ← hn, ← hk, ← converged_read e, h]
  exact ⟨hee', hn', hk', converged_read e'⟩

theorem results_eq_of_read {e e' : Engine} (h : e.read = e'.read) (rule : HypGainRule) :
    resultX rule e = resultX rule e' ∧ resultY rule e = resultY rule e' ∧ resultZ e = resultZ e' := by
  obtain ⟨hx, hy, hz⟩ := results_read rule e
  rw [← hx, ← hy, ← hz, h]
  exact results_read rule e'

/-! ### Two runs of one command (R109) -/

/-- Two states in which a command's report and, where it has ended, its results are the same, and in which a run that has not
ended will read the same. -/
structure State.Agree (s t : State) : Prop where
  params : s.params = t.params
  pending : s.pending = [] ∧ t.pending = []
  status : s.status = t.status
  engine : s.running = true → s.eng.read = t.eng.read
  results : s.status.state = .convergedEarly ∨ s.status.state = .exhausted →
    s.outs.rx = t.outs.rx ∧ s.outs.ry = t.outs.ry ∧ s.outs.rz = t.outs.rz
  bits : s.status.state = .done →
    s.outs.rx = t.outs.rx ∧ s.outs.inA = t.outs.inA ∧ s.outs.inB = t.outs.inB ∧ s.outs.out = t.outs.out

theorem State.Agree.raise {s t : State} (h : s.Agree t) (c : Cause) : (s.raise c).Agree (t.raise c) where
  params := h.params
  pending := h.pending
  status := by rw [State.raise_status, State.raise_status, h.status]
  engine := nofun
  results := nofun
  bits := nofun

/-- Two runs that read alike end a step alike: both tests answer the same, and the results are those of the same values. -/
theorem State.Agree.advance {s t : State} (h : s.Agree t) (hr : s.running = true) {e e' : Engine} (he : e.read = e'.read) :
    (s.advance e).Agree (t.advance e') := by
  obtain ⟨hee, hn, hk, hconv⟩ := Engine.end_eq_of_read he
  have hcount : { e with k := e.k + 1 }.read = { e' with k := e'.k + 1 }.read := by
    rw [Engine.read_count, Engine.read_count, he]
  have hstate := congrArg Status.state (State.advance_status e s)
  rw [s.running_iff.1 hr] at hstate
  constructor
  case params => rw [State.advance_params, State.advance_params, h.params]
  case pending => exact ⟨(State.advance_pending e s).trans h.pending.1, (State.advance_pending e' t).trans h.pending.2⟩
  case status => rw [State.advance_status, State.advance_status, h.status, hee, hn, hk, hconv]
  case engine => exact fun _ => by rw [State.advance_eng, State.advance_eng, hcount]
  case results =>
    intro hend
    have hcond : (e.latch.ee = true ∧ converged e = true) ∨ e.k + 1 = e.latch.n := by
      by_contra hno
      obtain ⟨hno1, hno2⟩ := not_or.1 hno
      simp [hstate, hno1, hno2] at hend
    rw [State.advance_outs, State.advance_outs, if_pos hcond, if_pos (by rwa [← hee, ← hn, ← hk, ← hconv]), ← h.params]
    exact results_eq_of_read hcount _
  case bits =>
    intro hdone
    rw [hstate] at hdone
    split_ifs at hdone

/-- Both runs apply the same entry or stage, or both raise COVERAGE. -/
theorem engineStep_agree {s t s' t' : State} (h : s.Agree t) (hr : s.running = true) (hs : engineStep s = .next s')
    (ht : engineStep t = .next t') : s'.Agree t' := by
  have he := h.engine hr
  have hop := Engine.op_eq_of_read he
  by_cases hfast : s.eng.latch.op = .rotFast
  · have hstage : (stage s.params.stageTable s.eng).map Engine.read = (stage t.params.stageTable t.eng).map Engine.read := by
      rw [← stage_read _ hfast, ← stage_read _ (hop ▸ hfast), he, h.params]
    rw [engineStep, if_pos hfast, fastStep_eq] at hs
    rw [engineStep, if_pos (hop ▸ hfast), fastStep_eq] at ht
    cases hs
    cases ht
    cases hx : stage s.params.stageTable s.eng <;> cases hy : stage t.params.stageTable t.eng <;> rw [hx, hy] at hstage
    · exact h.raise _
    · cases hstage
    · cases hstage
    · exact h.advance hr (Option.some.inj hstage)
  · have hfast' : t.eng.latch.op ≠ .rotFast := hop ▸ hfast
    have hentry : s.eng.entries[s.eng.k]? = t.eng.entries[t.eng.k]? := by
      rw [← Engine.read_entries hfast, ← Engine.read_entries hfast', he, (Engine.end_eq_of_read he).2.2.1]
    rw [engineStep, if_neg hfast, hentry] at hs
    rw [engineStep, if_neg hfast'] at ht
    cases hi : t.eng.entries[t.eng.k]? with
    | none => rw [hi] at hs; cases hs
    | some i =>
      rw [hi] at hs ht
      cases hs
      cases ht
      exact h.advance hr (by rw [← applyEntry_read, ← applyEntry_read, he, h.params])

theorem step_agree {s t s' t' : State} (h : s.Agree t) (hs : step s = .next s') (ht : step t = .next t') : s'.Agree t' := by
  rw [step_nil h.pending.1] at hs
  rw [step_nil h.pending.2] at ht
  have hrun : t.running = s.running := by rw [State.running, State.running, h.status]
  cases hr : s.running with
  | false =>
    cases (engineTurn_of_not_running hr).symm.trans hs
    cases (engineTurn_of_not_running (hrun.trans hr)).symm.trans ht
    exact h
  | true =>
    rw [engineTurn_of_running hr] at hs
    rw [engineTurn_of_running (hrun.trans hr)] at ht
    exact engineStep_agree h hr hs ht

theorem run_agree {j : Nat} {s t s' t' : State} (h : s.Agree t) (hs : Sys2Proof.core.run j s = .next s')
    (ht : Sys2Proof.core.run j t = .next t') : s'.Agree t' := by
  induction j generalizing s t with
  | zero =>
    cases hs
    cases ht
    exact h
  | succ j ih =>
    obtain ⟨u, hu, hs⟩ := core_run_succ_eq_next hs
    obtain ⟨v, hv, ht⟩ := core_run_succ_eq_next ht
    exact ih (step_agree h hu hv) hs ht

/-! ### Two issues of one command (R109) -/

/-- Two states that the body of an issue cannot tell apart: STATE, the results and the engine's state may differ. -/
structure State.Alike (s s' : State) : Prop where
  params : s.params = s'.params
  ins : s.ins = s'.ins
  pending : s.pending = [] ∧ s'.pending = []
  report : ∀ st, { s.status with state := st } = { s'.status with state := st }

/-- Two computations that fail for the same cause, or answer values in the relation `R`. -/
inductive AgreeOn {α : Type} (R : α → α → Prop) : Except Cause α → Except Cause α → Prop
  | ok {v w : α} : R v w → AgreeOn R (.ok v) (.ok w)
  | error (c : Cause) : AgreeOn R (.error c) (.error c)

theorem AgreeOn.bind {α β : Type} {S : α → α → Prop} {R : β → β → Prop} {x y : Except Cause α} {f g : α → Except Cause β}
    (h : AgreeOn S x y) (hfg : ∀ v w, S v w → AgreeOn R (f v) (g w)) : AgreeOn R (x >>= f) (y >>= g) := by
  cases h with
  | ok hvw => exact hfg _ _ hvw
  | error c => exact .error c

/-- A check that both computations make. -/
theorem AgreeOn.bind_same {α β : Type} {R : β → β → Prop} {f g : α → Except Cause β} (x : Except Cause α)
    (hfg : ∀ v, AgreeOn R (f v) (g v)) : AgreeOn R (x >>= f) (x >>= g) := by
  cases x with
  | ok v => exact hfg v
  | error c => exact .error c

theorem State.Alike.finishPrimitive {s s' : State} (h : s.Alike s') (rx : ResVal) (inA inB out : Word) :
    (s.finishPrimitive rx inA inB out).Agree (s'.finishPrimitive rx inA inB out) where
  params := h.params
  pending := h.pending
  status := h.report .done
  engine := nofun
  results := nofun
  bits _ := ⟨rfl, rfl, rfl, rfl⟩

/-- Engines that an acceptance makes read alike (R104: it sets the pointer). -/
def Engine.StartAlike (e e' : Engine) : Prop := { e with k := 0 }.read = { e' with k := 0 }.read

theorem State.Alike.accept {s s' : State} (h : s.Alike s') {e e' : Engine} (he : e.StartAlike e') :
    (s.accept e).Agree (s'.accept e') where
  params := h.params
  pending := h.pending
  status := congrArg (fun st : Status => { st with iters := 0 }) (h.report .running)
  engine _ := he
  results := nofun
  bits := nofun

theorem State.Alike.raise {s s' : State} (h : s.Alike s') (c : Cause) : (s.raise c).Agree (s'.raise c) where
  params := h.params
  pending := h.pending
  status := congrArg (fun st : Status => { st with errCode := c.code, errDetail := c.detail }) (h.report .error)
  engine := nofun
  results := nofun
  bits := nofun

/-- An approximate seed reads the registers and the parameters only, and writes all that its run reads of the engine. -/
def ApproxSeedAlike (op : EngineOp) (ee : Bool) (n : Nat) (seed : State → Fmt → Fmt → Engine → Except Cause Engine) : Prop :=
  ∀ (s s' : State) (p z : Fmt) (eps : Dyad), s.Alike s' →
    AgreeOn Engine.StartAlike (seed s p z { s.eng with latch := ⟨op, .approx, ee, n, p, z, eps⟩ })
      (seed s' p z { s'.eng with latch := ⟨op, .approx, ee, n, p, z, eps⟩ })

/-- The same of an ideal seed, whose latched formats are left over. -/
def IdealSeedAlike (op : EngineOp) (ee : Bool) (n : Nat) (seed : State → Engine → Except Cause Engine) : Prop :=
  ∀ (s s' : State) (p z p' z' : Fmt) (eps : Dyad), s.Alike s' →
    AgreeOn Engine.StartAlike (seed s { s.eng with latch := ⟨op, .ideal, ee, n, p, z, eps⟩ })
      (seed s' { s'.eng with latch := ⟨op, .ideal, ee, n, p', z', eps⟩ })

theorem seedGain_alike {op : EngineOp} (hop : op ≠ .rotFast) (kw : Nat) (target : Bool) (mode : Mode) (ee : Bool) (n : Nat) :
    ApproxSeedAlike op ee n (seedGain kw target mode n) := by
  intro s s' p z eps h
  unfold seedGain
  rw [h.params, h.ins]
  refine .bind_same _ fun x => .bind_same _ fun y => ?_
  have hstart (t : Int) : Engine.StartAlike
      { s.eng with latch := ⟨op, .approx, ee, n, p, z, eps⟩, fix := ⟨x, y, t⟩, entries := angleTable mode n }
      { s'.eng with latch := ⟨op, .approx, ee, n, p, z, eps⟩, fix := ⟨x, y, t⟩, entries := angleTable mode n } := by
    cases op
    case rotFast => contradiction
    all_goals rfl
  cases target with
  | true => exact .bind_same _ fun t => .ok (hstart t)
  | false => exact .ok (hstart 0)

theorem seedDivision_alike (ee : Bool) (n : Nat) : ApproxSeedAlike .divLin ee n (seedDivision n) := by
  intro s s' p z eps h
  unfold seedDivision
  rw [h.params, h.ins]
  refine .bind_same _ fun x => .bind_same _ fun y => ?_
  split
  · exact .error _
  · exact .ok rfl

theorem seedFast_alike (ee : Bool) (n : Nat) : ApproxSeedAlike .rotFast ee n seedFast := by
  intro s s' p z eps h
  unfold seedFast
  rw [h.params, h.ins]
  exact .bind_same _ fun x => .bind_same _ fun y => .bind_same _ fun t => .ok rfl

theorem seedIdeal_alike {op : EngineOp} (hop : op ≠ .rotFast) (target : Bool) (mode : Mode) (ee : Bool) (n : Nat) :
    IdealSeedAlike op ee n (seedIdeal target mode n) := by
  intro s s' p z p' z' eps h
  unfold seedIdeal
  rw [h.ins]
  cases op
  case rotFast => contradiction
  all_goals exact .ok rfl

theorem seedDivisionIdeal_alike (ee : Bool) (n : Nat) : IdealSeedAlike .divLin ee n (seedDivisionIdeal n) := by
  intro s s' p z p' z' eps h
  unfold seedDivisionIdeal
  rw [h.ins]
  split
  · exact .error _
  · exact .ok rfl

theorem seedFastIdeal_alike (ee : Bool) (n : Nat) : IdealSeedAlike .rotFast ee n seedFastIdeal := by
  intro s s' p z p' z' eps h
  unfold seedFastIdeal
  rw [h.ins]
  exact .ok rfl

section
variable {s s' a a' : State} (hr : s.running = false) (hr' : s'.running = false) (hp : s.params = s'.params)
  (hi : s.ins = s'.ins) (hpend : s.pending = [] ∧ s'.pending = [])
include hr hr' hp hi hpend

/-- The two issues of one body that cannot tell the begun states apart. -/
theorem issue_agree {op : BitVec 4} {sem : Bool} {body : State → Except Cause State}
    (hb : ∀ t t', State.Alike t t' → AgreeOn State.Agree (body t) (body t'))
    (ha : issue op sem body s = .next a) (ha' : issue op sem body s' = .next a') : a.Agree a' := by
  have h : (s.beginIssue op sem).Alike (s'.beginIssue op sem) := ⟨hp, hi, hpend, fun _ => rfl⟩
  have hb := hb _ _ h
  generalize hx : body (s.beginIssue op sem) = x at hb
  generalize hy : body (s'.beginIssue op sem) = y at hb
  cases hb with
  | ok hvw =>
    cases (issue_of_ok hr hx).symm.trans ha
    cases (issue_of_ok hr' hy).symm.trans ha'
    exact hvw
  | error c =>
    cases (issue_of_error hr hx).symm.trans ha
    cases (issue_of_error hr' hy).symm.trans ha'
    exact h.raise c

theorem issueApprox_agree {op : EngineOp} {ee : Bool} {n : Nat} {seed : State → Fmt → Fmt → Engine → Except Cause Engine}
    (hseed : ApproxSeedAlike op ee n seed) (ha : issueApprox op ee n seed s = .next a)
    (ha' : issueApprox op ee n seed s' = .next a') : a.Agree a' := by
  refine issue_agree hr hr' hp hi hpend (fun t t' h => ?_) ha ha'
  rw [h.ins]
  exact .bind_same _ fun p => .bind_same _ fun z => .bind_same _ fun _ =>
    (hseed t t' p z _ h).bind fun e e' he => .ok (h.accept he)

theorem issueIdeal_agree {op : EngineOp} {ee : Bool} {n : Nat} {seed : State → Engine → Except Cause Engine}
    (hseed : IdealSeedAlike op ee n seed) (ha : issueIdeal op ee n seed s = .next a)
    (ha' : issueIdeal op ee n seed s' = .next a') : a.Agree a' := by
  refine issue_agree hr hr' hp hi hpend (fun t t' h => ?_) ha ha'
  rw [h.ins]
  exact .bind_same _ fun _ => (hseed t t' _ _ _ _ _ h).bind fun e e' he => .ok (h.accept he)

/-- The bodies of the fourteen commands read the parameters and the registers only (R103, R104). -/
theorem exec_agree {i : Instr} (ha : exec i s = .next a) (ha' : exec i s' = .next a') : a.Agree a' := by
  have approx {op ee n seed} (hseed : ApproxSeedAlike op ee n seed) :=
    issueApprox_agree (a := a) (a' := a') hr hr' hp hi hpend hseed
  have ideal {op ee n seed} (hseed : IdealSeedAlike op ee n seed) :=
    issueIdeal_agree (a := a) (a' := a') hr hr' hp hi hpend hseed
  cases i <;> simp only [exec] at ha ha'
  case quant | add | neg | shr =>
    refine issue_agree hr hr' hp hi hpend (fun t t' h => ?_) ha ha'
    rw [h.params, h.ins]
    repeat refine .bind_same _ fun _ => ?_
    exact .ok (h.finishPrimitive ..)
  case rotHypA ee n =>
    rw [execRotHypA, ← hp] at ha'
    exact approx (seedGain_alike (op := .rotHyp) nofun _ true .hyp ee n) ha ha'
  case rotCircA ee n => exact approx (seedGain_alike (op := .rotCirc) nofun _ true .circ ee n) ha ha'
  case vecCircA ee n => exact approx (seedGain_alike (op := .vecCirc) nofun _ false .circ ee n) ha ha'
  case divLinA ee n => exact approx (seedDivision_alike ee n) ha ha'
  case rotFastA ee n => exact approx (seedFast_alike ee n) ha ha'
  case rotCircI ee n => exact ideal (seedIdeal_alike (op := .rotCirc) nofun true .circ ee n) ha ha'
  case vecCircI ee n => exact ideal (seedIdeal_alike (op := .vecCirc) nofun false .circ ee n) ha ha'
  case rotHypI ee n => exact ideal (seedIdeal_alike (op := .rotHyp) nofun true .hyp ee n) ha ha'
  case divLinI ee n => exact ideal (seedDivisionIdeal_alike ee n) ha ha'
  case rotFastI ee n => exact ideal (seedFastIdeal_alike ee n) ha ha'

end

/-- Settles O60, by a relation between the two runs: the issues establish it, since neither a check nor a seed reads a result or
a left-over value, and every step keeps it, since a run reads only what its seed wrote. -/
theorem commandsAreIndependent : Obligations.CommandsAreIndependent := by
  intro i s s' a a' t t' j hr hr' hp hi hpend hpend' ha ha' ht ht'
  have h := run_agree (exec_agree hr hr' hp hi ⟨hpend, hpend'⟩ ha ha') ht ht'
  exact ⟨h.status, h.results, h.bits⟩

end Sys2Proof.Machine

/-! # Fixed-point primitives (41_fixed_point_primitives.md) -/

namespace Sys2Proof.Machine

/-! ### The checks of a format and of an encoding -/

theorem firstFailure_append_eq_none_iff {a b : List (Bool × Cause)} :
    firstFailure (a ++ b) = none ↔ firstFailure a = none ∧ firstFailure b = none := by
  rw [firstFailure_append]
  cases firstFailure a <;> simp

/-- A format's failure is a ConfigError that names the register (R226). -/
theorem format_of_firstFailure_fmtChecks {name : FmtName} {r : FmtReg} {c : Cause}
    (h : firstFailure (fmtChecks name r) = some c) : ∃ q, c = .format name q := by
  unfold fmtChecks at h
  by_cases h1 : r.w.toNat = 0 ∨ 32 < r.w.toNat
  · exact ⟨.width, by simpa [h1, firstFailure] using h.symm⟩
  · by_cases h2 : r.w.toNat ≤ r.f.toNat
    · exact ⟨.frac, by simpa [h1, h2, firstFailure] using h.symm⟩
    · simp [h1, h2, firstFailure] at h

section
variable {m : RoundMode} {v : Dyad} {f : Fmt} {r : Int} (hr : IsRoundInt m (v.toRat * 2 ^ f.fracBits) r) (subj : RangeSubject)
include hr

theorem firstFailure_encChecks_eq_none_iff : firstFailure (encChecks m v f subj) = none ↔ f.holds r := by
  have h := enc_eq_ok_iff m v f subj r
  rw [enc_eq, roundTo_eq hr] at h
  cases hc : firstFailure (encChecks m v f subj) <;> simpa [hc] using h

theorem firstFailure_encChecks_of_above (h : 2 ^ (f.totalBits - 1) - 1 < r) :
    firstFailure (encChecks m v f subj) = some (.range subj .aboveMax) := by
  rw [encChecks, roundTo_eq hr, f.nmax_eq, decide_eq_true h, firstFailure]

theorem firstFailure_encChecks_of_below (h : r < -2 ^ (f.totalBits - 1)) :
    firstFailure (encChecks m v f subj) = some (.range subj .belowMin) := by
  have hpos : (0 : Int) < 2 ^ (f.totalBits - 1) := by positivity
  rw [encChecks, roundTo_eq hr, f.nmax_eq, f.nmin_eq, decide_eq_false (by omega), decide_eq_true h, firstFailure, firstFailure]

end

/-- Settles O22: Quantize and Enc round to the same integer, and Enc's two checks are the bounds that Quantize saturates to. -/
theorem quantizeSaturatesWhereEncodeRefuses : Obligations.QuantizeSaturatesWhereEncodeRefuses := by
  intro m v f subj r hr
  refine ⟨quantize_eq hr, fun h => ?above, fun _ h => ?below, fun h => (enc_eq_ok_iff ..).2 ⟨roundTo_eq hr, h⟩⟩
  case above => rw [enc_eq, firstFailure_encChecks_of_above hr subj h]
  case below => rw [enc_eq, firstFailure_encChecks_of_below hr subj h]

/-! ### The primitives on the integers of one format (R126) -/

section
variable (m : RoundMode) {f : Fmt} {n k : Int} (subj : RangeSubject)

theorem shiftRight_val (hn : f.holds n) (i : Nat) : shiftRight m (f.val n) i f f subj = .ok (asr n i) := by
  rw [shiftRight, enc_val m subj hn, Except.map, requantize_self m (asr_holds i hn)]

theorem addQ_val (hn : f.holds n) (hk : f.holds k) : addQ m (f.val n) (f.val k) f f = f.sat (n + k) := by
  rw [addQ, quantize_val m hn, quantize_val m hk, addSat, f.clamp_eq_sat, requantize_self m (f.sat_holds _)]

theorem negate_val (hf : f.valid) (hk : f.holds k) : negate m (f.val k) f f subj = .ok (-k - 1) := by
  rw [negate, enc_val m subj hk, Except.map, flipBits_eq hf hk, requantize_self m (negF_holds hk)]

end

/-- Settles O23: an in-range integer passes Enc, Quantize and Rq unchanged, so only the integer operation is left. -/
theorem inLoopPrimitives : Obligations.InLoopPrimitives := by
  intro m f n k i subj hf hn hk
  refine ⟨shiftRight_val m subj hn i, asr_eq_div n i, ?add, f.clamp_eq_sat _, negate_val m subj hf hk, rfl, ?sub,
    f.clamp_eq_sat _⟩
  case add => rw [addQ_val m hn hk, addF, f.clamp_eq_sat]
  case sub =>
    rw [negF, addQ_val m hn (negF_holds hk), subF, f.clamp_eq_sat]
    congr 1
    ring

/-! ### The laws of R129 -/

/-- If the larger of two rationals rounded to less, the two would be one half-way point, which rounds to one integer. -/
theorem isRoundInt_mono {m : RoundMode} {a b : ℚ} {i j : ℤ} (hab : a ≤ b) (hi : IsRoundInt m a i) (hj : IsRoundInt m b j) :
    i ≤ j := by
  by_contra! hlt
  have hlt' : (j : ℚ) + 1 ≤ i := by exact_mod_cast hlt
  obtain ⟨hlo, -⟩ := abs_le.1 hi.1
  obtain ⟨-, hhi⟩ := abs_le.1 hj.1
  obtain rfl : a = b := by linarith
  exact hlt.ne' (isRoundInt_unique hi hj)

theorem quantize_mono (m : RoundMode) {v w : Dyad} (f : Fmt) (h : v.toRat ≤ w.toRat) : quantize m v f ≤ quantize m w f := by
  have hscaled : v.toRat * 2 ^ f.fracBits ≤ w.toRat * 2 ^ f.fracBits := by gcongr
  rw [quantize, quantize, f.clamp_eq_sat, f.clamp_eq_sat]
  exact f.sat_mono (isRoundInt_mono hscaled (roundTo_spec m v f) (roundTo_spec m w f))

theorem addQ_comm (m : RoundMode) (a b : Dyad) (fin fout : Fmt) : addQ m a b fin fout = addQ m b a fin fout := by
  rw [addQ, addQ, addSat, addSat, add_comm]

/-- The shift is a floor, so it leaves less than one step of the value it divides. -/
theorem toRat_sub_asr (f : Fmt) (n : Int) (k : Nat) :
    0 ≤ (f.val n).toRat / 2 ^ k - (f.val (asr n k)).toRat ∧
      (f.val n).toRat / 2 ^ k - (f.val (asr n k)).toRat < 1 / 2 ^ f.fracBits := by
  have hsplit : (f.val n).toRat / 2 ^ k - (f.val (asr n k)).toRat = Int.fract ((n : ℚ) / 2 ^ k) / 2 ^ f.fracBits := by
    rw [f.toRat_val, f.toRat_val, asr_eq_floor, Int.fract]
    ring
  have hlt := Int.fract_lt_one ((n : ℚ) / 2 ^ k)
  rw [hsplit]
  exact ⟨div_nonneg (Int.fract_nonneg _) (by positivity), by gcongr⟩

/-- Settles O24: Negate and SRS of a value of the format are `-n - 1` and the floor; Quantize is monotone because rounding is. -/
theorem lawsOfThePrimitives : Obligations.LawsOfThePrimitives := by
  refine ⟨fun m v f _ => quantize_val m (quantize_holds m v f), fun m v w f _ h => quantize_mono m f h,
    fun m a b fin fout _ => ⟨quantize_holds .., addQ_comm ..⟩, ?notAssoc, fun m f n subj hf hn => ?negate,
    fun m f n k subj _ hn => ⟨asr n k, shiftRight_val m subj hn k, toRat_sub_asr f n k⟩⟩
  case notAssoc =>
    -- `(127 + 1) + (-1)` saturates at its first sum, `127 + (1 + (-1))` does not.
    exact ⟨⟨8, 0⟩, 127, 1, -1, by decide, by decide, by decide, by decide, fun m => by cases m <;> decide⟩
  case negate =>
    refine ⟨-n - 1, negate_val m subj hf hn, negF_holds hn, ?_, ?_, by omega⟩
    · rw [negate_val m subj hf (negF_holds hn)]
      congr 1
      ring
    · rw [f.toRat_val, f.toRat_val]
      push_cast
      ring

/-! ### The issue of a primitive: its checks and its result -/

theorem wordOf_bitsOf (f : Fmt) (n : Int) : wordOf (bitsOf f.totalBits n) = pattern f n := by
  rw [wordOf, bitsOf, pow2_eq, pattern]

/-- A command that ended DONE made its checks without a failure. -/
theorem DecidedBy.of_done {cs : List (Bool × Cause)} {op : BitVec 4} {sem : Bool} {P : State → Prop} {s t : State}
    (h : DecidedBy cs op sem P s (.next t)) (hd : t.status.state = .done) : firstFailure cs = none ∧ P t := by
  obtain ⟨hfail, hpass⟩ := h
  cases hc : firstFailure cs with
  | some c =>
    cases hfail c hc
    cases hd
  | none =>
    obtain ⟨u, hu, hP⟩ := hpass hc
    cases hu
    exact ⟨rfl, hP⟩

/-- The body that NEG and SHR share (R131, R133): OPA is encoded into FMT_IN, `g` is applied to the integer there, and the result
is requantized into FMT_OUT. -/
def unaryBody (g : Fmt → Int → Int) (s : State) : Except Cause State := do
  let fin ← checkFmt .fmtIn s.ins.fmtIn
  let fout ← checkFmt .fmtOut s.ins.fmtOut
  let n ← enc s.params.roundMode (hv s.ins.opA) fin .opA
  let r := requantize s.params.roundMode (g fin n) fin fout
  .ok (s.finishPrimitive (resWord r) (wordOf (bitsOf fin.totalBits n)) 0 (wordOf (bitsOf fout.totalBits r)))

theorem exec_neg (s : State) : exec .neg s = issue 1 false (unaryBody fun f n => flipBits f.totalBits n) s := rfl

theorem exec_shr (k : Nat) (s : State) : exec (.shr k) s = issue 3 false (unaryBody fun _ n => asr n k) s := rfl

/-- The integer QUANT answers (R130). -/
def quantResult (s : State) : Int := quantize s.params.roundMode (hv s.ins.opA) s.ins.fmtOut.fmt

/-- The integer NEG or SHR answers where OPA encodes to `n` (R131, R133). -/
def unaryResult (g : Fmt → Int → Int) (s : State) (n : Int) : Int :=
  requantize s.params.roundMode (g s.ins.fmtIn.fmt n) s.ins.fmtIn.fmt s.ins.fmtOut.fmt

/-- The integer ADD answers (R132). -/
def addResult (s : State) : Int := addQ s.params.roundMode (hv s.ins.opA) (hv s.ins.opB) s.ins.fmtIn.fmt s.ins.fmtOut.fmt

section
variable {s : State} (hr : s.running = false)
include hr

theorem exec_quant_decidedBy : DecidedBy (fmtChecks .fmtOut s.ins.fmtOut) 0 false
    (· = s.completed 0 (quantResult s) s.ins.opA 0 (pattern s.ins.fmtOut.fmt (quantResult s))) s (exec .quant s) := by
  rw [exec, execQuant]
  refine issue_decidedBy hr ((checkFmt_checked ..).bind_ok ?_)
  rintro _ rfl
  rw [wordOf_bitsOf]
  rfl

theorem exec_add_decidedBy :
    DecidedBy (fmtChecks .fmtIn s.ins.fmtIn ++ fmtChecks .fmtOut s.ins.fmtOut) 2 false
      (· = s.completed 2 (addResult s)
        (pattern s.ins.fmtIn.fmt (quantize s.params.roundMode (hv s.ins.opA) s.ins.fmtIn.fmt))
        (pattern s.ins.fmtIn.fmt (quantize s.params.roundMode (hv s.ins.opB) s.ins.fmtIn.fmt))
        (pattern s.ins.fmtOut.fmt (addResult s))) s (exec .add s) := by
  rw [exec, execAdd]
  refine issue_decidedBy hr ((checkFmt_checked ..).bind ?_)
  rintro _ rfl
  refine (checkFmt_checked ..).bind_ok ?_
  rintro _ rfl
  simp only [wordOf_bitsOf]
  rfl

theorem unary_decidedBy (op : BitVec 4) (g : Fmt → Int → Int) {n : Int}
    (hn : IsRoundInt s.params.roundMode (hvRat s.ins.opA * 2 ^ s.ins.fmtIn.fmt.fracBits) n) :
    DecidedBy (fmtChecks .fmtIn s.ins.fmtIn ++ (fmtChecks .fmtOut s.ins.fmtOut ++
        encChecks s.params.roundMode (hv s.ins.opA) s.ins.fmtIn.fmt .opA)) op false
      (· = s.completed op (unaryResult g s n) (pattern s.ins.fmtIn.fmt n) 0 (pattern s.ins.fmtOut.fmt (unaryResult g s n)))
      s (issue op false (unaryBody g) s) := by
  rw [← hv_toRat] at hn
  refine issue_decidedBy hr ((checkFmt_checked ..).bind ?_)
  rintro _ rfl
  refine (checkFmt_checked ..).bind ?_
  rintro _ rfl
  refine (enc_checked ..).bind_ok ?_
  rintro _ rfl
  simp only [wordOf_bitsOf, State.beginIssue_params, roundTo_eq hn]
  rfl

end

/-! ### The rules of QUANT, NEG, ADD and SHR -/

/-- Settles O25: QUANT's only checks are those of FMT_OUT, and a failure of one names FMT_OUT. -/
theorem quantRule : Obligations.QuantRule := by
  intro s hr
  obtain ⟨hfail, hpass⟩ := exec_quant_decidedBy hr
  constructor
  · intro r hf hround
    obtain ⟨t, ht, rfl⟩ := hpass ((firstFailure_fmtChecks_eq_none_iff ..).2 hf)
    rw [← hv_toRat] at hround
    rw [ht, quantResult, quantize_eq hround]
  · intro hf
    obtain ⟨c, hc⟩ := Option.ne_none_iff_exists'.1 (mt (firstFailure_fmtChecks_eq_none_iff ..).1 hf)
    obtain ⟨q, rfl⟩ := format_of_firstFailure_fmtChecks hc
    exact ⟨q, hfail _ hc⟩

/-- Settles O27: valid formats pass ADD's only checks, and each of its roundings saturates as Quantize does. -/
theorem addRule : Obligations.AddRule := by
  intro s a b r hr hin hout ha hb hround
  rw [← hv_toRat] at ha hb
  obtain ⟨t, ht, rfl⟩ := (exec_add_decidedBy hr).2 (firstFailure_append_eq_none_iff.2
    ⟨(firstFailure_fmtChecks_eq_none_iff ..).2 hin, (firstFailure_fmtChecks_eq_none_iff ..).2 hout⟩)
  have hresult : addResult s = s.ins.fmtOut.fmt.sat r := by
    rw [addResult, addQ, quantize_eq ha, quantize_eq hb, addSat, Fmt.clamp_eq_sat]
    exact quantize_eq hround
  rw [ht, hresult, quantize_eq ha, quantize_eq hb]

section
variable {s : State} {n : Int} (hr : s.running = false) (hin : s.ins.fmtIn.fmt.valid) (hout : s.ins.fmtOut.fmt.valid)
  (hn : IsRoundInt s.params.roundMode (hvRat s.ins.opA * 2 ^ s.ins.fmtIn.fmt.fracBits) n)
include hr hin hout hn

/-- With valid formats NEG and SHR are decided by the encoding of OPA (R131, R133). -/
theorem unary_rule (op : BitVec 4) (g : Fmt → Int → Int) :
    (∀ r, s.ins.fmtIn.fmt.holds n →
      IsRoundInt s.params.roundMode
        ((g s.ins.fmtIn.fmt n : ℚ) / 2 ^ s.ins.fmtIn.fmt.fracBits * 2 ^ s.ins.fmtOut.fmt.fracBits) r →
      issue op false (unaryBody g) s = .next (s.completed op (s.ins.fmtOut.fmt.sat r) (pattern s.ins.fmtIn.fmt n) 0
        (pattern s.ins.fmtOut.fmt (s.ins.fmtOut.fmt.sat r)))) ∧
    (2 ^ (s.ins.fmtIn.fmt.totalBits - 1) - 1 < n →
      issue op false (unaryBody g) s = .next (s.refused op false (.range .opA .aboveMax))) ∧
    (n < -2 ^ (s.ins.fmtIn.fmt.totalBits - 1) →
      issue op false (unaryBody g) s = .next (s.refused op false (.range .opA .belowMin))) := by
  obtain ⟨hfail, hpass⟩ := unary_decidedBy hr op g hn
  rw [← hv_toRat] at hn
  rw [firstFailure_append, (firstFailure_fmtChecks_eq_none_iff ..).2 hin, firstFailure_append,
    (firstFailure_fmtChecks_eq_none_iff ..).2 hout] at hfail hpass
  refine ⟨fun r hholds hround => ?_, fun h => hfail _ (firstFailure_encChecks_of_above hn _ h),
    fun h => hfail _ (firstFailure_encChecks_of_below hn _ h)⟩
  obtain ⟨t, ht, rfl⟩ := hpass ((firstFailure_encChecks_eq_none_iff hn _).2 hholds)
  have hresult : unaryResult g s n = s.ins.fmtOut.fmt.sat r := quantize_eq hround
  rw [ht, hresult]

end

/-- Settles O26: NEG's integer operation, the bit flip, is `-n - 1` on the integers of FMT_IN. -/
theorem negRule : Obligations.NegRule := by
  intro s n hr hin hout hn
  rw [exec_neg]
  obtain ⟨hdone, hrefused⟩ := unary_rule hr hin hout hn 1 fun f n => flipBits f.totalBits n
  refine ⟨fun r hholds hround => hdone r hholds ?_, hrefused⟩
  rwa [flipBits_eq hin hholds]

/-- Settles O28: SHR's integer operation is the floor of `n / 2^k`. -/
theorem shrRule : Obligations.ShrRule := by
  intro s k n hr hin hout hn
  rw [exec_shr]
  obtain ⟨hdone, hrefused⟩ := unary_rule hr hin hout hn 3 fun _ n => asr n k
  refine ⟨fun r hholds hround => hdone r hholds ?_, hrefused⟩
  rwa [asr_eq_floor]

/-! ### Bit strings and values (R134) -/

theorem pattern_toNat {f : Fmt} (hf : f.valid) (n : Int) : ((pattern f n).toNat : Int) = n % 2 ^ f.totalBits := by
  have hlt : (2 : Int) ^ f.totalBits ≤ 2 ^ 32 := pow_le_pow_right₀ (by norm_num) hf.2.1
  have hnonneg := Int.emod_nonneg n (b := 2 ^ f.totalBits) (by positivity)
  have hmod := Int.emod_lt_of_pos n (b := 2 ^ f.totalBits) (by positivity)
  rw [pattern, BitVec.toNat_ofInt, Int.emod_eq_of_lt hnonneg (by omega), Int.toNat_of_nonneg hnonneg]

/-- Sign extension from the format's width undoes `bits_W` (R9). -/
theorem sextOf_pattern {f : Fmt} {n : Int} (hf : f.valid) (h : f.holds n) : sextOf f.totalBits (pattern f n).toNat = n := by
  obtain ⟨k, hk⟩ : ∃ k, f.totalBits = k + 1 := ⟨f.totalBits - 1, by omega⟩
  have hP : (2 : Int) ^ (k + 1) = 2 * 2 ^ k := by ring
  rw [pattern_toNat hf]
  simp only [Fmt.holds, hk, Nat.add_sub_cancel] at h
  simp only [sextOf, pow2_eq, hk, Nat.add_sub_cancel]
  rcases le_or_gt 0 n with h0 | h0
  · rw [Int.emod_eq_of_lt h0 (by omega), if_pos (by omega)]
  · rw [← Int.add_emod_right, Int.emod_eq_of_lt (by omega) (by omega), if_neg (by omega)]
    omega

/-- A value of a format is small enough to be read back from a result cell. -/
theorem toInt_ofInt_of_holds {f : Fmt} {n : Int} (hf : f.valid) (h : f.holds n) : (BitVec.ofInt 64 n).toInt = n := by
  have hle : (2 : Int) ^ (f.totalBits - 1) ≤ 2 ^ 31 := pow_le_pow_right₀ (by norm_num) (by omega)
  obtain ⟨hlo, hhi⟩ := h
  rw [BitVec.toInt_ofInt]
  exact Int.bmod_eq_of_le (by omega) (by omega)

theorem completed_out_agrees (s : State) (op : BitVec 4) (inA inB : Word) {f : Fmt} {n : Int} (hf : f.valid) (h : f.holds n) :
    ∃ w : Word, (s.completed op n inA inB (pattern f n)).outs.rx = .word w ∧
      sextOf f.totalBits (s.completed op n inA inB (pattern f n)).outs.out.toNat = w.toInt :=
  ⟨_, rfl, (sextOf_pattern hf h).trans (toInt_ofInt_of_holds hf h).symm⟩

theorem unary_bits_agree {op : BitVec 4} {g : Fmt → Int → Int} {s t : State} {r : Int} (hr : s.running = false)
    (ht : issue op false (unaryBody g) s = .next t) (hdone : t.status.state = .done)
    (hround : IsRoundInt s.params.roundMode (hvRat s.ins.opA * 2 ^ s.ins.fmtIn.fmt.fracBits) r) :
    (∃ w : Word, t.outs.rx = .word w ∧ sextOf s.ins.fmtOut.fmt.totalBits t.outs.out.toNat = w.toInt) ∧
      sextOf s.ins.fmtIn.fmt.totalBits t.outs.inA.toNat = r := by
  obtain ⟨hnone, rfl⟩ := (ht ▸ unary_decidedBy hr op g hround).of_done hdone
  rw [← hv_toRat] at hround
  rw [firstFailure_append_eq_none_iff, firstFailure_append_eq_none_iff, firstFailure_fmtChecks_eq_none_iff,
    firstFailure_fmtChecks_eq_none_iff, firstFailure_encChecks_eq_none_iff hround] at hnone
  obtain ⟨hin, hout, hholds⟩ := hnone
  exact ⟨completed_out_agrees _ _ _ _ hout (quantize_holds ..), sextOf_pattern hin hholds⟩

/-- Settles O29: a completed primitive passed the checks of its formats, in which its patterns and its result are held. -/
theorem bitStringsAgreeWithValues : Obligations.BitStringsAgreeWithValues := by
  intro i s t r hi hr ht hdone hround
  cases i with
  | quant =>
    obtain ⟨hout, rfl⟩ := (ht ▸ exec_quant_decidedBy hr).of_done hdone
    rw [firstFailure_fmtChecks_eq_none_iff] at hout
    exact ⟨completed_out_agrees _ _ _ _ hout (quantize_holds ..), fun h => absurd rfl h⟩
  | add =>
    obtain ⟨hnone, rfl⟩ := (ht ▸ exec_add_decidedBy hr).of_done hdone
    rw [firstFailure_append_eq_none_iff, firstFailure_fmtChecks_eq_none_iff, firstFailure_fmtChecks_eq_none_iff] at hnone
    obtain ⟨hin, hout⟩ := hnone
    rw [← hv_toRat] at hround
    refine ⟨completed_out_agrees _ _ _ _ hout (quantize_holds ..), fun _ => ?_⟩
    rw [if_pos rfl, ← quantize_eq hround]
    exact sextOf_pattern hin (quantize_holds ..)
  | neg =>
    obtain ⟨hagree, hinA⟩ := unary_bits_agree hr (exec_neg s ▸ ht) hdone hround
    exact ⟨hagree, fun _ => hinA⟩
  | shr k =>
    obtain ⟨hagree, hinA⟩ := unary_bits_agree hr (exec_shr k s ▸ ht) hdone hround
    exact ⟨hagree, fun _ => hinA⟩
  | _ => cases hi

end Sys2Proof.Machine

/-! # The angle tables and the ROMs (42_angle_table_rom.md) -/

namespace Sys2Proof.Machine

/-! ### The angle tables -/

/-- A table without repeats lists the indices in order. -/
theorem tableFrom_eq_range' {mode : Mode} (h : mode ≠ .hyp) (n i : Nat) : tableFrom mode n i = List.range' i n := by
  fun_induction tableFrom mode n i with
  | case1 => rfl
  | case2 i => rfl
  | case3 i n hrep => exact absurd hrep.1 h
  | case4 i n _ ih => rw [ih, ← List.range'_succ]

/-- The table of a smaller budget is the start of the table of a larger one: a cut second copy is the only difference. -/
theorem tableFrom_eq_take {mode : Mode} {n m : Nat} (h : n ≤ m) (i : Nat) : tableFrom mode n i = (tableFrom mode m i).take n := by
  fun_induction tableFrom mode n i generalizing m with
  | case1 => rfl
  | case2 i =>
    obtain _ | _ | m := m
    · omega
    · rfl
    · rw [tableFrom]
      split <;> rfl
  | case3 i n hrep ih =>
    obtain _ | _ | m := m
    · omega
    · omega
    · rw [tableFrom, if_pos hrep, List.take_succ_cons, List.take_succ_cons, ← ih (by omega)]
  | case4 i n hrep ih =>
    obtain _ | _ | m := m
    · omega
    · omega
    · rw [tableFrom, if_neg hrep, List.take_succ_cons, ← ih (by omega)]

/-- R144's table of positions, of the largest budget. -/
theorem angleTable_hyp_64_getElem? : ∀ p ∈ List.range' 1 64, (angleTable .hyp 64)[p - 1]? =
    some (if p ≤ 4 then p else if p ≤ 14 then p - 1 else if p ≤ 42 then p - 2 else p - 3) := by
  decide +kernel

/-- Settles O30: a smaller hyperbolic table is the start of that of budget 64, whose positions R144 lists. -/
theorem angleTablePositions : Obligations.AngleTablePositions := by
  refine fun n => ⟨tableFrom_eq_range' (mode := .circ) nofun n 1, tableFrom_eq_range' (mode := .lin) nofun n 1,
    length_angleTable .hyp n, fun hn p h1 hp => ?_⟩
  have htake : angleTable .hyp n = (angleTable .hyp 64).take n := tableFrom_eq_take hn 1
  rw [htake, List.getElem?_take_of_lt (by omega)]
  exact angleTable_hyp_64_getElem? p (List.mem_range'_1.2 ⟨h1, by omega⟩)

/-! ### The angle ROMs -/

/-- Every real the interval at precision `p` holds has the ROM word `w`: `w ≤ r · 2^64 < w + 1`. -/
abbrev Ival.withinWord (p : Nat) (I : Ival) (w : Nat) : Prop :=
  (w : Int) * pow2 p ≤ I.lo * pow2 64 ∧ I.hi * pow2 64 < ((w : Int) + 1) * pow2 p

theorem Ival.floor_eq_of_has {p : Nat} {I : Ival} {r : ℝ} {w : Nat} (hr : I.has p r) (hw : I.withinWord p w) :
    (w : ℤ) = ⌊r * 2 ^ 64⌋ := by
  obtain ⟨hlo, hhi⟩ := hr
  obtain ⟨hwlo, hwhi⟩ := hw
  rw [pow2_eq, pow2_eq] at hwlo hwhi
  have hwlo' : (w : ℝ) * 2 ^ p ≤ I.lo * 2 ^ 64 := by exact_mod_cast hwlo
  have hwhi' : (I.hi : ℝ) * 2 ^ 64 < (w + 1) * 2 ^ p := by exact_mod_cast hwhi
  have hp : (0 : ℝ) < 2 ^ p := by positivity
  have hlt : r * 2 ^ 64 < w + 1 := by
    refine lt_of_mul_lt_mul_right ?_ hp.le
    calc r * 2 ^ 64 * 2 ^ p = r * 2 ^ p * 2 ^ 64 := mul_right_comm ..
      _ ≤ I.hi * 2 ^ 64 := by gcongr
      _ < (w + 1) * 2 ^ p := hwhi'
  have hle : (w : ℝ) ≤ r * 2 ^ 64 := by
    refine le_of_mul_le_mul_right ?_ hp
    calc (w : ℝ) * 2 ^ p ≤ I.lo * 2 ^ 64 := hwlo'
      _ ≤ r * 2 ^ p * 2 ^ 64 := by gcongr
      _ = r * 2 ^ 64 * 2 ^ p := mul_right_comm ..
  exact (Int.floor_eq_iff.2 ⟨by exact_mod_cast hle, by exact_mod_cast hlt⟩).symm

/-- At 256 bits the arc tangent's distance from `2^-i`, about `2^-3i / 3`, shows for every index. -/
theorem atanIval_withinWord_romAtan :
    ∀ i ∈ List.range' 1 64, ((Atom.atan 1 (2 ^ i)).ival 256).withinWord 256 (romAtan i) := by
  decide +kernel

theorem atanhIval_withinWord_romAtanh :
    ∀ i ∈ List.range' 1 64, ((Atom.atanh 1 (2 ^ i)).ival 256).withinWord 256 (romAtanh i) := by
  decide +kernel

theorem romAtan_eq_floor {i : Nat} (h1 : 1 ≤ i) (h2 : i ≤ 64) : (romAtan i : ℤ) = ⌊Real.arctan (1 / 2 ^ i) * 2 ^ 64⌋ := by
  have hwf : (Atom.atan 1 (2 ^ i)).wf := Nat.two_pow_pos i
  have h := Ival.floor_eq_of_has (Atom.ival_has hwf 256) (atanIval_withinWord_romAtan i (List.mem_range'_1.2 ⟨h1, by omega⟩))
  simpa [Atom.toReal] using h

theorem romAtanh_eq_floor {i : Nat} (h1 : 1 ≤ i) (h2 : i ≤ 64) : (romAtanh i : ℤ) = ⌊Real.artanh (1 / 2 ^ i) * 2 ^ 64⌋ := by
  have hwf : (Atom.atanh 1 (2 ^ i)).wf := ⟨Nat.two_pow_pos i, Nat.pow_le_pow_right Nat.two_pos h1⟩
  have h := Ival.floor_eq_of_has (Atom.ival_has hwf 256) (atanhIval_withinWord_romAtanh i (List.mem_range'_1.2 ⟨h1, by omega⟩))
  simpa [Atom.toReal] using h

/-- Settles O31, by the series intervals at 256 bits: each lies between a ROM word and its successor. -/
theorem angleRomsAreFloors : Obligations.AngleRomsAreFloors := fun _ h1 h2 => ⟨romAtan_eq_floor h1 h2, romAtanh_eq_floor h1 h2⟩

/-! ### The quantized angles -/

/-- R148, R206: rounding the floor of `θ · 2^64` at `F < 64` bits rounds `θ · 2^F` itself, since the rounding threshold is an
integer. -/
theorem roundAngle_nearest {θ : ℝ} {w : Nat} {z : Fmt} (hw : (w : ℤ) = ⌊θ * 2 ^ 64⌋) (hz : z.valid) :
    ∃ r : ℤ, |θ * 2 ^ z.fracBits - r| ≤ 1 / 2 ∧ roundAngle w z = z.sat r := by
  refine ⟨_, ?_, z.clamp_eq_sat _⟩
  obtain ⟨k, hk⟩ : ∃ k, 64 = z.fracBits + (k + 1) := ⟨63 - z.fracBits, by omega⟩
  obtain ⟨hwlo, hwhi⟩ := Int.floor_eq_iff.1 hw.symm
  rw [asr_eq_div, pow2_eq, show 63 - z.fracBits = k by omega, show 64 - z.fracBits = k + 1 by omega]
  set r : ℤ := ((w : ℤ) + 2 ^ k) / 2 ^ (k + 1)
  have hpow : (2 : ℤ) ^ (k + 1) = 2 * 2 ^ k := pow_succ' 2 k
  have hrlo : r * 2 ^ (k + 1) ≤ w + 2 ^ k := Int.ediv_mul_le _ (by positivity)
  have hrhi : (w : ℤ) + 2 ^ k + 1 ≤ (r + 1) * 2 ^ (k + 1) := Int.lt_ediv_add_one_mul_self _ (by positivity)
  have hrlo' : (r : ℝ) * 2 ^ (k + 1) ≤ w + 2 ^ k := by exact_mod_cast hrlo
  have hrhi' : (w : ℝ) + 2 ^ k + 1 ≤ (r + 1) * 2 ^ (k + 1) := by exact_mod_cast hrhi
  have hk0 : (0 : ℝ) < 2 ^ k := by positivity
  have hsplit : θ * 2 ^ 64 = θ * 2 ^ z.fracBits * (2 * 2 ^ k) := by rw [hk, pow_add, pow_succ']; ring
  rw [hsplit] at hwlo hwhi
  rw [pow_succ'] at hrlo' hrhi'
  push_cast at hwlo hwhi
  rw [abs_le]
  constructor <;> exact le_of_mul_le_mul_right (by linarith) hk0

theorem thetaQ_lin_isRoundInt (m : RoundMode) (i : Nat) (z : Fmt) :
    ∃ r : ℤ, IsRoundInt m (1 / 2 ^ i * 2 ^ z.fracBits) r ∧ thetaQ m .lin i z = z.sat r := by
  have h := roundTo_spec m ⟨1, i⟩ z
  have hval : (⟨1, i⟩ : Dyad).toRat = 1 / 2 ^ i := by simp [Dyad.toRat]
  exact ⟨_, hval ▸ h, quantize_eq h⟩

theorem phiQ_nearest {e : StageEntry} (he : e.angleExact) {z : Fmt} (hz : z.valid) :
    ∃ r : ℤ, |e.angle * 2 ^ z.fracBits - r| ≤ 1 / 2 ∧ phiQ e z = z.sat r := by
  by_cases hb : e.b = 0
  · exact ⟨0, by simp [StageEntry.angle, hb], by rw [phiQ, if_pos hb, Fmt.sat_of_holds z.holds_zero]⟩
  · rw [phiQ, if_neg hb]
    exact roundAngle_nearest he.1 hz

/-- Settles O33: a floored word rounds as its angle does, and a linear angle is quantized as any dyadic is. -/
theorem quantizedAnglesAreExact : Obligations.QuantizedAnglesAreExact :=
  ⟨fun m i z h1 h2 hz => ⟨roundAngle_nearest (romAtan_eq_floor h1 h2) hz, roundAngle_nearest (romAtanh_eq_floor h1 h2) hz,
    thetaQ_lin_isRoundInt m i z⟩, fun _ _ he hz => phiQ_nearest he hz⟩

/-! ### The gains -/

/-- `√` of a pair's quotient, the form of a gain in a result cell (R145). -/
noncomputable def sqrtRatio (q : Nat × Nat) : ℝ := √((q.1 : ℝ) / q.2)

theorem sqrtRatio_mul (a b c d : Nat) : sqrtRatio (a * b, c * d) = sqrtRatio (a, c) * sqrtRatio (b, d) := by
  simp only [sqrtRatio, Nat.cast_mul]
  rw [← Real.sqrt_mul (by positivity), mul_div_mul_comm]

theorem rpow_neg_half {x : ℝ} (h : 0 ≤ x) : x ^ (-1 / 2 : ℝ) = √x⁻¹ := by
  rw [neg_div, Real.rpow_neg h, ← Real.sqrt_eq_rpow, Real.sqrt_inv]

theorem rpow_neg_three_halves {x : ℝ} (h : 0 ≤ x) : x ^ (-3 / 2 : ℝ) = √(x⁻¹ ^ 3) := by
  rw [show (-3 / 2 : ℝ) = (3 : ℕ) * (-1 / 2) by norm_num, Real.rpow_natCast_mul h, rpow_neg_half (pow_nonneg h 3), inv_pow]

theorem one_sub_inv_four_pow_nonneg (i : Nat) : (0 : ℝ) ≤ 1 - 1 / 4 ^ i := by
  rw [sub_nonneg, div_le_one (by positivity)]
  exact one_le_pow₀ (by norm_num)

theorem inv_one_sub_inv_four_pow (i : Nat) : (1 - 1 / (4 : ℝ) ^ i)⁻¹ = ((4 ^ i : Nat) : ℝ) / ((4 ^ i - 1 : Nat) : ℝ) := by
  rw [Nat.cast_sub (Nat.one_le_pow i 4 (by decide))]
  push_cast
  rw [one_sub_div (by positivity), inv_div]

/-- The factor of a circular entry. -/
theorem circFactor_eq (i : Nat) : (1 + 1 / (4 : ℝ) ^ i) ^ (-1 / 2 : ℝ) = sqrtRatio (4 ^ i, 4 ^ i + 1) := by
  rw [rpow_neg_half (by positivity), sqrtRatio]
  push_cast
  rw [one_add_div (by positivity), inv_div]

/-- The factor of a hyperbolic index that appears once. -/
theorem hypFactor_eq (i : Nat) : (1 - 1 / (4 : ℝ) ^ i) ^ (-1 / 2 : ℝ) = sqrtRatio (4 ^ i, 4 ^ i - 1) := by
  rw [rpow_neg_half (one_sub_inv_four_pow_nonneg i), inv_one_sub_inv_four_pow, sqrtRatio]

/-- The factor under REPO_LITERAL of a hyperbolic index that appears twice. -/
theorem hypFactor_repeated_eq (i : Nat) :
    (1 - 1 / (4 : ℝ) ^ i) ^ (-3 / 2 : ℝ) = sqrtRatio ((4 ^ i) ^ 3, (4 ^ i - 1) ^ 3) := by
  rw [rpow_neg_three_halves (one_sub_inv_four_pow_nonneg i), inv_one_sub_inv_four_pow, sqrtRatio, div_pow]
  push_cast
  rfl


/-- The gain of a list of entries under REPO_LITERAL (R145). -/
noncomputable def literalGain (es : List Nat) : ℝ :=
  (es.dedup.map fun i => (1 - 1 / (4 : ℝ) ^ i) ^ (if es.count i = 1 then (-1 / 2 : ℝ) else (-3 / 2 : ℝ))).prod

/-- The first index `i` of a list, in one or more copies, has a factor of its own, and leaves the others' factors as they are. -/
theorem literalGain_of_count {es fs : List Nat} {i : Nat} (hd : fs.dedup = i :: es.dedup) (hi : i ∉ es)
    (hc : ∀ j, j ≠ i → fs.count j = es.count j) : literalGain fs =
      (1 - 1 / (4 : ℝ) ^ i) ^ (if fs.count i = 1 then (-1 / 2 : ℝ) else (-3 / 2 : ℝ)) * literalGain es := by
  rw [literalGain, hd, List.map_cons, List.prod_cons, literalGain]
  congr 2
  refine List.map_congr_left fun j hj => ?_
  rw [hc j (ne_of_mem_of_not_mem (List.mem_dedup.1 hj) hi)]

theorem literalGain_cons {es : List Nat} {i : Nat} (hi : i ∉ es) :
    literalGain (i :: es) = sqrtRatio (4 ^ i, 4 ^ i - 1) * literalGain es := by
  rw [literalGain_of_count (List.dedup_cons_of_notMem hi) hi fun j hj => List.count_cons_of_ne hj.symm, List.count_cons_self,
    List.count_eq_zero_of_not_mem hi, if_pos rfl, hypFactor_eq]

theorem literalGain_cons_cons {es : List Nat} {i : Nat} (hi : i ∉ es) :
    literalGain (i :: i :: es) = sqrtRatio ((4 ^ i) ^ 3, (4 ^ i - 1) ^ 3) * literalGain es := by
  have hd : (i :: i :: es).dedup = i :: es.dedup := by
    rw [List.dedup_cons_of_mem List.mem_cons_self, List.dedup_cons_of_notMem hi]
  rw [literalGain_of_count hd hi fun j hj => by rw [List.count_cons_of_ne hj.symm, List.count_cons_of_ne hj.symm],
    List.count_cons_self, List.count_cons_self, List.count_eq_zero_of_not_mem hi, if_neg (by decide), hypFactor_repeated_eq]

theorem gainSqLiteral_cons {es : List Nat} {i : Nat} (hi : i ∉ es) :
    gainSqLiteral (i :: es) = (4 ^ i * (gainSqLiteral es).1, (4 ^ i - 1) * (gainSqLiteral es).2) := by
  cases es with
  | nil => simp [gainSqLiteral]
  | cons j es => rw [gainSqLiteral, if_neg (List.ne_of_not_mem_cons hi)]

/-- Each index of a table stands once, or twice with its second copy next to it. -/
theorem literalGain_tableFrom (mode : Mode) (n i : Nat) :
    literalGain (tableFrom mode n i) = sqrtRatio (gainSqLiteral (tableFrom mode n i)) := by
  have hnot {k j : Nat} : j ∉ tableFrom mode k (j + 1) := fun h => absurd (le_of_mem_tableFrom h) (by omega)
  fun_induction tableFrom mode n i with
  | case1 => simp [literalGain, gainSqLiteral, sqrtRatio]
  | case2 i => rw [literalGain_cons List.not_mem_nil, gainSqLiteral]; simp [literalGain]
  | case3 i n _ ih => rw [literalGain_cons_cons hnot, gainSqLiteral, if_pos rfl, sqrtRatio_mul, ih]
  | case4 i n _ ih => rw [literalGain_cons hnot, gainSqLiteral_cons hnot, sqrtRatio_mul, ih]

theorem prod_circFactors (es : List Nat) :
    (es.map fun i => (1 + 1 / (4 : ℝ) ^ i) ^ (-1 / 2 : ℝ)).prod = sqrtRatio (gainSqCirc es) := by
  induction es with
  | nil => simp [gainSqCirc, sqrtRatio]
  | cons i es ih => rw [List.map_cons, List.prod_cons, ih, circFactor_eq, gainSqCirc, sqrtRatio_mul]

theorem prod_hypFactors (es : List Nat) :
    (es.map fun i => (1 - 1 / (4 : ℝ) ^ i) ^ (-1 / 2 : ℝ)).prod = sqrtRatio (gainSqHyp es) := by
  induction es with
  | nil => simp [gainSqHyp, sqrtRatio]
  | cons i es ih => rw [List.map_cons, List.prod_cons, ih, hypFactor_eq, gainSqHyp, sqrtRatio_mul]

/-- R145: the gain of an operation is the root of the exact ratio that a result cell holds. -/
theorem gainOf_eq_sqrtRatio (rule : HypGainRule) (op : EngineOp) (n : Nat) :
    gainOf rule op n = sqrtRatio (gainSq rule op n) := by
  cases op with
  | rotCirc => exact prod_circFactors _
  | vecCirc => exact prod_circFactors _
  | rotHyp =>
    cases rule with
    | perEntry => exact prod_hypFactors _
    | repoLiteral => exact literalGain_tableFrom ..
  | divLin => simp [gainOf, gainSq, sqrtRatio]
  | rotFast => simp [gainOf, gainSq, sqrtRatio]

/-- The word `w` is the nearest to `√(q.1 / q.2) · 2^64`: squared and doubled, `2w - 1 < √(q.1 / q.2) · 2^65 < 2w + 1`. -/
abbrev nearestRoot (q : Nat × Nat) (w : Nat) : Prop :=
  0 < q.2 ∧ 0 < w ∧ (2 * w - 1) ^ 2 * q.2 < q.1 * 2 ^ 130 ∧ q.1 * 2 ^ 130 < (2 * w + 1) ^ 2 * q.2

theorem abs_sqrtRatio_sub_lt_half {q : Nat × Nat} {w : Nat} (h : nearestRoot q w) : |sqrtRatio q * 2 ^ 64 - w| < 1 / 2 := by
  obtain ⟨hq, hw, hlo, hhi⟩ := h
  have hq' : (0 : ℝ) < q.2 := by exact_mod_cast hq
  have hlo' : ((2 * w - 1 : ℝ)) ^ 2 * q.2 < q.1 * 2 ^ 130 := by
    have hcast : ((2 * w - 1 : Nat) : ℝ) = 2 * w - 1 := by rw [Nat.cast_sub (by omega)]; push_cast; rfl
    rw [← hcast]
    exact_mod_cast hlo
  have hhi' : (q.1 * 2 ^ 130 : ℝ) < (2 * w + 1) ^ 2 * q.2 := by exact_mod_cast hhi
  have hroot_lo : (2 * w - 1 : ℝ) / 2 ^ 65 < sqrtRatio q := by
    refine Real.lt_sqrt_of_sq_lt ?_
    rw [div_pow, div_lt_div_iff₀ (by positivity) hq']
    linarith
  have hroot_hi : sqrtRatio q < (2 * w + 1 : ℝ) / 2 ^ 65 := by
    rw [sqrtRatio, Real.sqrt_lt' (by positivity), div_pow, div_lt_div_iff₀ hq' (by positivity)]
    linarith
  rw [div_lt_iff₀ (by positivity)] at hroot_lo
  rw [lt_div_iff₀ (by positivity)] at hroot_hi
  rw [abs_lt]
  constructor <;> linarith

theorem romKC_nearestRoot : ∀ n ∈ List.range' 1 64, nearestRoot (gainSqCirc (angleTable .circ n)) (romKC n) := by
  decide +kernel

theorem romKH_nearestRoot (rule : HypGainRule) :
    ∀ n ∈ List.range' 1 64, nearestRoot (gainSq rule .rotHyp n) (romKH rule n) := by
  cases rule <;> decide +kernel

/-- Settles O32: each gain is the root of an exact ratio, and each word the nearest to that root. -/
theorem gainRomsAreNearest : Obligations.GainRomsAreNearest := by
  intro n h1 h2 rule
  have hn : n ∈ List.range' 1 64 := List.mem_range'_1.2 ⟨h1, by omega⟩
  rw [gainOf_eq_sqrtRatio, gainOf_eq_sqrtRatio]
  exact ⟨abs_sqrtRatio_sub_lt_half (romKC_nearestRoot n hn), abs_sqrtRatio_sub_lt_half (romKH_nearestRoot rule n hn)⟩

end Sys2Proof.Machine

/-! # The CORDIC engine (43_cordic_engine.md) -/

namespace Sys2Proof.Machine

/-! ### The issue of a command whose seeds fail, and the seeds of a command whose operands encode -/

/-- An approximate engine command that passes the checks of its formats and budget, and whose seeds fail. -/
theorem issueApprox_of_seed_error {op : EngineOp} {ee : Bool} {n : Nat}
    {seed : State → Fmt → Fmt → Engine → Except Cause Engine} {s : State} {c : Cause} (h : s.running = false)
    (hp : s.ins.fmtXy.fmt.valid) (hz : s.ins.fmtZ.fmt.valid) (h1 : 1 ≤ n) (h2 : n ≤ 64)
    (hs : seed (s.beginIssue op.code false) s.ins.fmtXy.fmt s.ins.fmtZ.fmt
      { s.eng with latch := ⟨op, .approx, ee, n, s.ins.fmtXy.fmt, s.ins.fmtZ.fmt, hv s.ins.opD⟩ } = .error c) :
    issueApprox op ee n seed s = .next (s.refused op.code false c) := by
  apply issue_of_error h
  simp only [State.beginIssue_ins, State.beginIssue_eng, checkFmt_of_valid hp, checkFmt_of_valid hz, checkIter_of_legal h1 h2]
  simp only [bind, Except.bind, hs]

/-- An ideal engine command that passes the check of its budget, and whose seeds fail. -/
theorem issueIdeal_of_seed_error {op : EngineOp} {ee : Bool} {n : Nat} {seed : State → Engine → Except Cause Engine}
    {s : State} {c : Cause} (h : s.running = false) (h1 : 1 ≤ n) (h2 : n ≤ 64)
    (hs : seed (s.beginIssue op.code true)
      { s.eng with latch := { s.eng.latch with op := op, sem := .ideal, ee := ee, n := n, eps := hv s.ins.opD } } = .error c) :
    issueIdeal op ee n seed s = .next (s.refused op.code true c) := by
  apply issue_of_error h
  simp only [State.beginIssue_ins, State.beginIssue_eng, checkIter_of_legal h1 h2]
  simp only [bind, Except.bind, hs]

section
variable {s : State} {p z : Fmt} {x y : Int} (n : Nat) (e : Engine)

section
variable {kw : Nat} (mode : Mode) (hx : IsEnc s.params.roundMode ((kw : ℚ) / 2 ^ 64 * hvRat s.ins.opA) p x)
  (hy : IsEnc s.params.roundMode ((kw : ℚ) / 2 ^ 64 * hvRat s.ins.opB) p y)
include hx hy

theorem seedGain_target_ok {t : Int} (ht : IsEnc s.params.roundMode (hvRat s.ins.opC) z t) :
    seedGain kw true mode n s p z e = .ok { e with fix := ⟨x, y, t⟩, entries := angleTable mode n } := by
  rw [seedGain, enc_of_isEnc _ (scaledSeed_toRat ..) hx, enc_of_isEnc _ (scaledSeed_toRat ..) hy,
    enc_of_isEnc _ (hv_toRat _) ht]
  rfl

theorem seedGain_ok : seedGain kw false mode n s p z e = .ok { e with fix := ⟨x, y, 0⟩, entries := angleTable mode n } := by
  rw [seedGain, enc_of_isEnc _ (scaledSeed_toRat ..) hx, enc_of_isEnc _ (scaledSeed_toRat ..) hy]
  rfl

end

/-- The zero-divisor test is of the encoded divisor (D20). -/
theorem seedDivision_eq (hx : IsEnc s.params.roundMode (hvRat s.ins.opA) p x)
    (hy : IsEnc s.params.roundMode (hvRat s.ins.opB) p y) : seedDivision n s p z e =
      if x = 0 then .error .zeroDivisor else .ok { e with fix := ⟨x, y, 0⟩, entries := angleTable .lin n } := by
  rw [seedDivision, enc_of_isEnc _ (hv_toRat _) hx, enc_of_isEnc _ (hv_toRat _) hy]
  rfl

end

theorem seedDivisionIdeal_eq (n : Nat) (s : State) (e : Engine) : seedDivisionIdeal n s e =
    if s.ins.opA = 0 then .error .zeroDivisor
    else .ok { e with real := ⟨hv s.ins.opA, hv s.ins.opB, Angle.ofDyad ⟨0, 0⟩⟩, entries := angleTable .lin n } := by
  simp only [seedDivisionIdeal, hv_num_eq_zero_iff]

/-! ### Acceptance (R166) -/

/-- Settles O34: the two commands pass their checks and seed the encoded operands, VEC.CIRC.A with no target. -/
theorem circularApproxAccepted : Obligations.CircularApproxAccepted := fun _ _ n _ _ hr hp hz h1 h2 hx hy =>
  ⟨.trans (issueApprox_of_seed hr hp hz h1 h2 (seedGain_ok n _ .circ hx hy)) rfl,
    fun _ ht => .trans (issueApprox_of_seed hr hp hz h1 h2 (seedGain_target_ok n _ .circ hx hy ht)) rfl⟩

/-- Settles O35: the gain word is that of the column which the command reads from the parameters. -/
theorem hyperbolicApproxAccepted : Obligations.HyperbolicApproxAccepted := fun _ _ n _ _ _ hr hp hz h1 h2 hx hy ht =>
  .trans (issueApprox_of_seed hr hp hz h1 h2 (seedGain_target_ok n _ .hyp hx hy ht)) rfl

/-- Settles O36: the seeds are those of the encoded operands, and fail exactly for an encoded divisor of 0. -/
theorem divisionApproxAccepted : Obligations.DivisionApproxAccepted := fun _ _ n _ _ hr hp hz h1 h2 hx hy =>
  ⟨fun hne => .trans (issueApprox_of_seed hr hp hz h1 h2 (.trans (seedDivision_eq n _ hx hy) (if_neg hne))) rfl,
    fun h0 => issueApprox_of_seed_error hr hp hz h1 h2 (.trans (seedDivision_eq n _ hx hy) (if_pos h0))⟩

/-- Settles O38: the budget is the only check but the division's, and the seeds are the host values themselves. -/
theorem idealCommandsAccepted : Obligations.IdealCommandsAccepted := by
  intro s ee n hr h1 h2
  refine ⟨hv s.ins.opA, hv s.ins.opB, hv s.ins.opC, hv_toRat _, hv_toRat _, hv_toRat _, ?rotCirc, ?vecCirc, ?rotHyp,
    fun hne => ?division, fun h0 => ?zeroDivisor, ?rotFast⟩
  case division => exact .trans (issueIdeal_of_seed hr h1 h2 (.trans (seedDivisionIdeal_eq ..) (if_neg hne))) rfl
  case zeroDivisor => exact issueIdeal_of_seed_error hr h1 h2 (.trans (seedDivisionIdeal_eq ..) (if_pos h0))
  all_goals exact .trans (issueIdeal_of_seed hr h1 h2 rfl) rfl

/-! ### The approximate iterations (R167 to R171) -/

theorem sgnp_iff (n : Int) : sgnp n = true ↔ 0 ≤ n := decide_eq_true_iff

/-- The direction of a division: the signs differ, 0 counting as positive (R171, C3). -/
theorem sgnp_ne_iff (n k : Int) : sgnp n ≠ sgnp k ↔ ¬(0 ≤ n ↔ 0 ≤ k) := by
  rw [ne_eq, Bool.eq_iff_iff, sgnp_iff, sgnp_iff]

theorem shrF_eq_div (n : Int) (i : Nat) : shrF n i = n / 2 ^ i := asr_eq_div n i

theorem addF_eq_sat (f : Fmt) (n k : Int) : addF f n k = f.sat (n + k) := f.clamp_eq_sat _

theorem subF_eq_sat (f : Fmt) (n k : Int) : subF f n k = f.sat (n - k - 1) := f.clamp_eq_sat _

section
variable (m : RoundMode) (p z : Fmt) (i : Nat) (c : FixState)

theorem iterRotCircA_eq : iterRotCircA m p z i c =
    if 0 ≤ c.z then ⟨p.sat (c.x - c.y / 2 ^ i - 1), p.sat (c.y + c.x / 2 ^ i), z.sat (c.z - thetaQ m .circ i z - 1)⟩
    else ⟨p.sat (c.x + c.y / 2 ^ i), p.sat (c.y - c.x / 2 ^ i - 1), z.sat (c.z + thetaQ m .circ i z)⟩ := by
  simp only [iterRotCircA, sgnp_iff, shrF_eq_div, addF_eq_sat, subF_eq_sat]

theorem iterVecCircA_eq : iterVecCircA m p z i c =
    if 0 ≤ c.y then ⟨p.sat (c.x + c.y / 2 ^ i), p.sat (c.y - c.x / 2 ^ i - 1), z.sat (c.z + thetaQ m .circ i z)⟩
    else ⟨p.sat (c.x - c.y / 2 ^ i - 1), p.sat (c.y + c.x / 2 ^ i), z.sat (c.z - thetaQ m .circ i z - 1)⟩ := by
  simp only [iterVecCircA, sgnp_iff, shrF_eq_div, addF_eq_sat, subF_eq_sat]

theorem iterRotHypA_eq : iterRotHypA m p z i c =
    if 0 ≤ c.z then ⟨p.sat (c.x + c.y / 2 ^ i), p.sat (c.y + c.x / 2 ^ i), z.sat (c.z - thetaQ m .hyp i z - 1)⟩
    else ⟨p.sat (c.x - c.y / 2 ^ i - 1), p.sat (c.y - c.x / 2 ^ i - 1), z.sat (c.z + thetaQ m .hyp i z)⟩ := by
  simp only [iterRotHypA, sgnp_iff, shrF_eq_div, addF_eq_sat, subF_eq_sat]

theorem iterDivLinA_eq : iterDivLinA m p z i c =
    if ¬(0 ≤ c.x ↔ 0 ≤ c.y) then ⟨c.x, p.sat (c.y + c.x / 2 ^ i), z.sat (c.z - thetaQ m .lin i z - 1)⟩
    else ⟨c.x, p.sat (c.y - c.x / 2 ^ i - 1), z.sat (c.z + thetaQ m .lin i z)⟩ := by
  simp only [iterDivLinA, sgnp_ne_iff, shrF_eq_div, addF_eq_sat, subF_eq_sat]

end

/-! ### The ideal iterations (R167 to R171) -/

/-- The sign of an exact rational is that of its numerator. -/
theorem sgnp_num_iff (a : Dyad) : sgnp a.num = true ↔ 0 ≤ a.toRat := (sgnp_iff _).trans a.toRat_nonneg_iff.symm

theorem sgnp_num_bne_iff (a b : Dyad) : (sgnp a.num != sgnp b.num) = true ↔ ¬(0 ≤ a.toRat ↔ 0 ≤ b.toRat) := by
  rw [bne_iff_ne, sgnp_ne_iff, a.toRat_nonneg_iff, b.toRat_nonneg_iff]

section
variable (i : Nat) (c : RealState)

theorem iterRotCircI_values :
    (iterRotCircI i c).x.toRat = c.x.toRat - dir c.z.nonneg * (c.y.toRat / 2 ^ i) ∧
    (iterRotCircI i c).y.toRat = c.y.toRat + dir c.z.nonneg * (c.x.toRat / 2 ^ i) ∧
    (iterRotCircI i c).z.toReal = c.z.toReal - (dir c.z.nonneg : ℝ) * elemAngle .circ i := by
  unfold iterRotCircI
  cases c.z.nonneg <;> simp [dir, Angle.toReal_subElem, ← sub_eq_add_neg]

theorem iterVecCircI_values :
    (iterVecCircI i c).x.toRat = c.x.toRat + dir (sgnp c.y.num) * (c.y.toRat / 2 ^ i) ∧
    (iterVecCircI i c).y.toRat = c.y.toRat - dir (sgnp c.y.num) * (c.x.toRat / 2 ^ i) ∧
    (iterVecCircI i c).z.toReal = c.z.toReal + (dir (sgnp c.y.num) : ℝ) * elemAngle .circ i := by
  unfold iterVecCircI
  cases sgnp c.y.num <;> simp [dir, Angle.toReal_subElem, ← sub_eq_add_neg]

theorem iterRotHypI_values :
    (iterRotHypI i c).x.toRat = c.x.toRat + dir c.z.nonneg * (c.y.toRat / 2 ^ i) ∧
    (iterRotHypI i c).y.toRat = c.y.toRat + dir c.z.nonneg * (c.x.toRat / 2 ^ i) ∧
    (iterRotHypI i c).z.toReal = c.z.toReal - (dir c.z.nonneg : ℝ) * elemAngle .hyp i := by
  unfold iterRotHypI
  cases c.z.nonneg <;> simp [dir, Angle.toReal_subElem, ← sub_eq_add_neg]

theorem iterDivLinI_values :
    (iterDivLinI i c).y.toRat = c.y.toRat + dir (sgnp c.x.num != sgnp c.y.num) * (c.x.toRat / 2 ^ i) ∧
    (iterDivLinI i c).z.toReal = c.z.toReal - (dir (sgnp c.x.num != sgnp c.y.num) : ℝ) * elemAngle .lin i := by
  unfold iterDivLinI
  cases sgnp c.x.num != sgnp c.y.num <;> simp [dir, Angle.toReal_subElem, ← sub_eq_add_neg]

end

/-! ### The engine step of a standard mode (R105, R167) -/

/-- Where a standard mode finds an entry, the step answers a state whose values are those that the entry makes. -/
theorem engineStep_of_entry {s : State} {i : Nat} {op : EngineOp} (hop : s.eng.latch.op = op) (hne : op ≠ .rotFast)
    (hi : s.eng.entries[s.eng.k]? = some i) : ∃ t, engineStep s = .next t ∧
      t.eng.fix = (applyEntry s.params.roundMode i s.eng).fix ∧
      t.eng.real = (applyEntry s.params.roundMode i s.eng).real := by
  refine ⟨s.advance (applyEntry s.params.roundMode i s.eng), ?_, by rw [State.advance_eng], by rw [State.advance_eng]⟩
  rw [engineStep, if_neg (hop ▸ hne), hi]

/-- Settles O39: the step's values are those of the mode's iteration; the sign of a well-formed ideal `z` is decided exactly. -/
theorem circularRotationStep : Obligations.CircularRotationStep := by
  intro s i _ hop hi
  obtain ⟨t, ht, hfix, hreal⟩ := engineStep_of_entry hop nofun hi
  refine ⟨t, ht, fun hsem => ?approx, fun hsem => ?ideal⟩ <;> simp only [applyEntry, hop, hsem] at hfix hreal
  case approx => rw [hfix, iterRotCircA_eq]
  case ideal =>
    rw [hreal]
    exact ⟨_, Angle.nonneg_iff_toReal, iterRotCircI_values i s.eng.real⟩

/-- Settles O40: the direction is the sign of `y`, and the iteration is the rotation's by `-d` (C2). -/
theorem circularVectoringStep : Obligations.CircularVectoringStep := by
  intro s i _ hop hi
  obtain ⟨t, ht, hfix, hreal⟩ := engineStep_of_entry hop nofun hi
  refine ⟨t, ht, fun hsem => ?approx, fun hsem => ?ideal⟩ <;> simp only [applyEntry, hop, hsem] at hfix hreal
  case approx => rw [hfix, iterVecCircA_eq]
  case ideal =>
    rw [hreal]
    exact ⟨_, sgnp_num_iff _, iterVecCircI_values i s.eng.real⟩

/-- Settles O41: the direction is that of circular rotation, and `x` moves with `d`, not against it. -/
theorem hyperbolicRotationStep : Obligations.HyperbolicRotationStep := by
  intro s i _ hop hi
  obtain ⟨t, ht, hfix, hreal⟩ := engineStep_of_entry hop nofun hi
  refine ⟨t, ht, fun hsem => ?approx, fun hsem => ?ideal⟩ <;> simp only [applyEntry, hop, hsem] at hfix hreal
  case approx => rw [hfix, iterRotHypA_eq]
  case ideal =>
    rw [hreal]
    exact ⟨_, Angle.nonneg_iff_toReal, iterRotHypI_values i s.eng.real⟩

/-- Settles O42: the direction compares the signs of `x` and `y`, and `x` is left as it is. -/
theorem divisionStep : Obligations.DivisionStep := by
  intro s i _ hop hi
  obtain ⟨t, ht, hfix, hreal⟩ := engineStep_of_entry hop nofun hi
  refine ⟨t, ht, fun hsem => ?approx, fun hsem => ?ideal⟩ <;> simp only [applyEntry, hop, hsem] at hfix hreal
  case approx => rw [hfix, iterDivLinA_eq]
  case ideal =>
    rw [hreal]
    exact ⟨_, sgnp_num_bne_iff _ _, iterDivLinI_x i s.eng.real, iterDivLinI_values i s.eng.real⟩

/-! ### The convergence test (R172) -/

theorem Dyad.abs_le_iff (a eps : Dyad) : a.abs.le eps = true ↔ |(a.toRat : ℝ)| ≤ (eps.toRat : ℝ) := by
  rw [Dyad.le_iff, Dyad.toRat_abs]
  exact_mod_cast Iff.rfl

theorem fixAbsLe_iff (f : Fmt) (n : Int) (eps : Dyad) :
    fixAbsLe f n eps = true ↔ |(n : ℝ) / 2 ^ f.fracBits| ≤ (eps.toRat : ℝ) := by
  have h := (f.val n).abs_le_iff eps
  rw [f.toRat_val] at h
  push_cast at h
  exact h

/-- `|z| ≤ eps` is tested by the signs of `eps - z` and `eps + z`. -/
theorem Angle.absLe_iff {z : Angle} (h : z.wf) (eps : Dyad) : z.absLe eps = true ↔ |z.toReal| ≤ (eps.toRat : ℝ) := by
  rw [Angle.absLe, Bool.and_eq_true, Angle.nonneg_iff_toReal (Angle.wf_addDyad (Angle.wf_neg h) eps),
    Angle.nonneg_iff_toReal (Angle.wf_addDyad h eps), Angle.toReal_addDyad, Angle.toReal_addDyad, Angle.toReal_neg, abs_le]
  constructor <;> rintro ⟨h1, h2⟩ <;> constructor <;> linarith

/-- Settles O47: the test is one of three, by the driven quantity, and each is exact. -/
theorem convergenceTestIsExact : Obligations.ConvergenceTestIsExact := by
  intro e h
  cases hsem : e.latch.sem with
  | approx => cases hop : e.latch.op <;> simp only [converged, Engine.driven, hop, hsem] <;> exact fixAbsLe_iff ..
  | ideal =>
    cases hop : e.latch.op <;> simp only [converged, Engine.driven, hop, hsem]
    case vecCirc | divLin => exact Dyad.abs_le_iff ..
    case rotCirc | rotHyp | rotFast => exact Angle.absLe_iff (by simpa [hop, hsem] using h) _

/-! ### The results of a standard mode (R173) -/

/-- A step that ends the run writes the results of the state it ends in (R106). -/
theorem State.advance_outs_of_ended {s : State} {e : Engine} (hr : s.running = true) (h : (s.advance e).running = false) :
    (s.advance e).outs = { s.outs with rx := resultX s.params.hypGainRule (s.advance e).eng,
                                       ry := resultY s.params.hypGainRule (s.advance e).eng,
                                       rz := resultZ (s.advance e).eng } := by
  obtain ⟨-, -, ht⟩ | ⟨-, -, ht⟩ | ⟨-, -, ht⟩ := State.advance_cases e s <;> rw [ht] at h ⊢
  · rfl
  · rfl
  · exact absurd (h.symm.trans hr) nofun

section
variable (rule : HypGainRule) {e : Engine} (hop : e.latch.op ≠ .rotFast)
include hop

theorem results_of_approx (hsem : e.latch.sem = .approx) :
    resultX rule e = resWord e.fix.x ∧ resultY rule e = resWord e.fix.y ∧ resultZ e = resWord e.fix.z := by
  cases ho : e.latch.op
  case rotFast => contradiction
  all_goals simp only [resultX, resultY, resultZ, ho, hsem, and_self]

theorem results_of_ideal (hsem : e.latch.sem = .ideal) :
    resultX rule e = gainReal rule e.latch e.real.x ∧ resultY rule e = gainReal rule e.latch e.real.y ∧
      resultZ e = .real (.angle e.real.z) := by
  cases ho : e.latch.op
  case rotFast => contradiction
  all_goals simp only [resultX, resultY, resultZ, ho, hsem, and_self]

end

/-- A gain-corrected component is `K(N) · v` (R145, R146). -/
theorem gainReal_toReal (rule : HypGainRule) (l : Latch) (v : Dyad) :
    ∃ r, gainReal rule l v = .real r ∧ r.toReal = gainOf rule l.op l.n * (v.toRat : ℝ) :=
  ⟨_, rfl, by rw [gainOf_eq_sqrtRatio, mul_comm]; rfl⟩

/-- Settles O48: an engine step of a standard mode that answers a state has applied an entry, and at the end of the run the
results are those of the state it ends in. -/
theorem terminationWritesResults : Obligations.TerminationWritesResults := by
  intro s t hr hop ht hend _
  obtain ⟨e, ha, h⟩ | ⟨hfast, -, -⟩ | ⟨-, -, h⟩ := engineStep_cases s
  case inr.inl => exact absurd hfast hop
  case inr.inr => cases h.symm.trans ht
  case inl =>
    cases h.symm.trans ht
    have hlatch : (s.advance e).eng.latch = s.eng.latch := by rw [State.advance_eng, ← ha.frame.1]
    rw [State.advance_outs_of_ended hr hend, ← hlatch]
    rw [← hlatch] at hop
    refine ⟨results_of_approx _ hop, fun hsem => ?_⟩
    obtain ⟨hx, hy, hz⟩ := results_of_ideal s.params.hypGainRule hop hsem
    obtain ⟨rx, hrx, hxval⟩ := gainReal_toReal s.params.hypGainRule (s.advance e).eng.latch (s.advance e).eng.real.x
    obtain ⟨ry, hry, hyval⟩ := gainReal_toReal s.params.hypGainRule (s.advance e).eng.latch (s.advance e).eng.real.y
    exact ⟨rx, ry, _, hx.trans hrx, hy.trans hry, hz, hxval, hyval, rfl⟩

end Sys2Proof.Machine

/-! # The stage-compressed commands (44_stage_compressed.md) -/

namespace Sys2Proof.Machine

/-! ### The lookup (R202) -/

section
variable {p : StageEntry → Bool} {r : ℝ} (hp : ∀ e, p e = true ↔ e.brackets r) (table : List StageEntry)
include hp

/-- The first entry that passes an exact test of the bracket is the least bracket. -/
theorem find?_eq_some_iff_leastBracket (e : StageEntry) : table.find? p = some e ↔ leastBracket table r e := by
  have hnot (e' : StageEntry) : (!p e') = true ↔ ¬e'.brackets r := by rw [Bool.not_eq_true', ← Bool.not_eq_true, hp]
  simp only [List.find?_eq_some_iff_getElem, hp, hnot, leastBracket]
  constructor
  · rintro ⟨he, i, hi, rfl, hmin⟩
    refine ⟨i, List.getElem?_eq_getElem hi, he, fun j e' hj hj' => ?_⟩
    obtain ⟨_, rfl⟩ := List.getElem?_eq_some_iff.1 hj'
    exact hmin j hj
  · rintro ⟨i, hi, he, hmin⟩
    obtain ⟨hlt, rfl⟩ := List.getElem?_eq_some_iff.1 hi
    exact ⟨he, i, hlt, rfl, fun j hj => hmin j _ hj (List.getElem?_eq_getElem _)⟩

theorem find?_eq_none_iff_no_bracket : table.find? p = none ↔ ∀ e ∈ table, ¬e.brackets r := by
  simp only [List.find?_eq_none, hp]

end

/-- The integer test of R202: `|n| · 2^(64 - F)` against the bracket's words is `|n| · 2^-F` against the bracket. -/
theorem bracketTestA_iff {z : Fmt} (hz : z.valid) (n : Int) (e : StageEntry) :
    (decide ((e.lo : Int) ≤ |n| * pow2 (romFrac - z.fracBits)) && decide (|n| * pow2 (romFrac - z.fracBits) < e.hi)) = true ↔
      e.brackets (|(n : ℝ)| / 2 ^ z.fracBits) := by
  obtain ⟨k, hk⟩ : ∃ k, romFrac = z.fracBits + k := ⟨romFrac - z.fracBits, by simp only [romFrac]; omega⟩
  have hF : (0 : ℝ) < 2 ^ z.fracBits := by positivity
  have hscale : |(n : ℝ)| / 2 ^ z.fracBits = ((|n| * 2 ^ k : ℤ) : ℝ) / 2 ^ 64 := by
    rw [show 64 = z.fracBits + k from hk, pow_add]
    push_cast
    field_simp
  rw [Bool.and_eq_true, decide_eq_true_iff, decide_eq_true_iff, pow2_eq, hk, Nat.add_sub_cancel_left, StageEntry.brackets,
    hscale, div_le_div_iff_of_pos_right (by positivity), div_lt_div_iff_of_pos_right (by positivity)]
  exact_mod_cast Iff.rfl

/-- The ideal lookup negates a negative residual: it compares `|z|` with the brackets. -/
theorem Angle.abs_spec {z : Angle} (h : z.wf) :
    (if z.nonneg then z else z.neg).wf ∧ (if z.nonneg then z else z.neg).toReal = |z.toReal| := by
  have hsign := Angle.nonneg_iff_toReal h
  split
  next hz => exact ⟨h, (abs_of_nonneg (hsign.1 hz)).symm⟩
  next hz =>
    rw [hsign, not_le] at hz
    exact ⟨Angle.wf_neg h, by rw [Angle.toReal_neg, abs_of_neg hz]⟩

/-- `r - w · 2^-64 ≥ 0` is decided exactly. -/
theorem Angle.nonneg_sub_ofRom {r : Angle} (h : r.wf) (w : Nat) :
    (r.addDyad (Dyad.ofRom w).neg).nonneg = true ↔ (w : ℝ) / 2 ^ 64 ≤ r.toReal := by
  rw [Angle.nonneg_iff_toReal (Angle.wf_addDyad h _), Angle.toReal_addDyad, Dyad.toRat_neg, Dyad.toRat_ofRom]
  push_cast
  rw [← sub_eq_add_neg, sub_nonneg]

theorem bracketTestI_iff {r : Angle} (h : r.wf) (e : StageEntry) :
    ((r.addDyad (Dyad.ofRom e.lo).neg).nonneg && !(r.addDyad (Dyad.ofRom e.hi).neg).nonneg) = true ↔
      e.brackets r.toReal := by
  rw [Bool.and_eq_true, Bool.not_eq_true', ← Bool.not_eq_true, Angle.nonneg_sub_ofRom h, Angle.nonneg_sub_ofRom h, not_le,
    StageEntry.brackets]

section
variable (table : List StageEntry) {z : Angle} (h : z.wf)
include h

theorem lookupI_eq_some_iff (e : StageEntry) : lookupI table z = some e ↔ leastBracket table |z.toReal| e := by
  obtain ⟨hwf, habs⟩ := Angle.abs_spec h
  exact habs ▸ find?_eq_some_iff_leastBracket (bracketTestI_iff hwf) table e

theorem lookupI_eq_none_iff : lookupI table z = none ↔ ∀ e ∈ table, ¬e.brackets |z.toReal| := by
  obtain ⟨hwf, habs⟩ := Angle.abs_spec h
  exact habs ▸ find?_eq_none_iff_no_bracket (bracketTestI_iff hwf) table

end

/-- Settles O43: each lookup is the first entry that passes a test, and the test of each semantics is exact. -/
theorem lookupFindsTheLeastBracket : Obligations.LookupFindsTheLeastBracket := fun table =>
  ⟨fun _ n hz => ⟨find?_eq_some_iff_leastBracket (bracketTestA_iff hz n) table,
      find?_eq_none_iff_no_bracket (bracketTestA_iff hz n) table⟩,
    fun _ h => ⟨lookupI_eq_some_iff table h, lookupI_eq_none_iff table h⟩⟩

/-! ### Acceptance (R204) -/

theorem seedFast_ok {s : State} {p z : Fmt} {x y t : Int} (e : Engine) (hx : IsEnc s.params.roundMode (hvRat s.ins.opA) p x)
    (hy : IsEnc s.params.roundMode (hvRat s.ins.opB) p y) (ht : IsEnc s.params.roundMode (hvRat s.ins.opC) z t) :
    seedFast s p z e = .ok { e with fix := { e.fix with z := t }, fixAcc := ⟨x, y, 0⟩ } := by
  rw [seedFast, enc_of_isEnc _ (hv_toRat _) hx, enc_of_isEnc _ (hv_toRat _) hy, enc_of_isEnc _ (hv_toRat _) ht]
  rfl

/-- Settles O37: the command passes its checks, and its seeds are the encoded operands. -/
theorem fastApproxAccepted : Obligations.FastApproxAccepted := fun _ _ _ _ _ _ hr hp hz h1 h2 hx hy ht =>
  .trans (issueApprox_of_seed hr hp hz h1 h2 (seedFast_ok _ hx hy ht)) rfl

/-! ### One stage (R206, R207) -/

section
variable {s : State} (hop : s.eng.latch.op = .rotFast)
include hop

theorem engineStep_of_stage {e : Engine} (h : stage s.params.stageTable s.eng = some e) :
    engineStep s = .next (s.advance e) := by
  rw [engineStep, if_pos hop, fastStep_eq, h]

/-- R207: a lookup that finds no bracket raises COVERAGE and changes nothing else. -/
theorem engineStep_of_stage_none (h : stage s.params.stageTable s.eng = none) :
    engineStep s = .next { s with status := { s.status with state := .error, errCode := 2, errDetail := 0x02 } } := by
  rw [engineStep, if_pos hop, fastStep_eq, h]
  rfl

end

section
variable {table : List StageEntry} {e : Engine}

theorem stage_of_lookupA_none (hsem : e.latch.sem = .approx) (h : lookupA table e.latch.z e.fix.z = none) :
    stage table e = none := by
  simp only [stage, hsem, stageA, h, Option.map_none]

theorem stage_of_lookupI_none (hsem : e.latch.sem = .ideal) (h : lookupI table e.real.z = none) : stage table e = none := by
  simp only [stage, hsem, stageI, h, Option.map_none]

/-- The values an approximate stage makes: the direction is the sign of `z`. -/
theorem stage_of_lookupA {st : StageEntry} (hsem : e.latch.sem = .approx) (h : lookupA table e.latch.z e.fix.z = some st) :
    ∃ e', stage table e = some e' ∧ e'.fixAcc = stageAccA st (sgnp e.fix.z) e.fixAcc ∧
      e'.fix.z = if sgnp e.fix.z then subF e.latch.z e.fix.z (phiQ st e.latch.z)
        else addF e.latch.z e.fix.z (phiQ st e.latch.z) := by
  simp only [stage, hsem, stageA, h, Option.map_some]
  exact ⟨_, rfl, rfl, rfl⟩

/-- The values an ideal stage makes: the direction is the model's sign of the exact residual. -/
theorem stage_of_lookupI {st : StageEntry} (hsem : e.latch.sem = .ideal) (h : lookupI table e.real.z = some st) :
    ∃ e', stage table e = some e' ∧ e'.realAcc = stageAccI st e.real.z.nonneg e.realAcc ∧
      e'.real.z = e.real.z.subAtom e.real.z.nonneg (.atan st.b st.a) := by
  simp only [stage, hsem, stageI, h, Option.map_some]
  exact ⟨_, rfl, rfl, rfl⟩

end

/-- The accumulators after a stage, by the sign of an integer residual `n`. -/
theorem stageAccA_eq (st : StageEntry) (n : Int) (c : FixAcc) :
    stageAccA st (sgnp n) c = ⟨st.a * c.X - (if 0 ≤ n then 1 else -1) * st.b * c.Y,
      (if 0 ≤ n then 1 else -1) * st.b * c.X + st.a * c.Y, c.L + st.k⟩ := by
  simp only [stageAccA, sgnp_iff]
  split <;> simp only [one_mul, neg_mul]

theorem phiQ_eq (st : StageEntry) (z : Fmt) :
    phiQ st z = if st.b = 0 then 0 else z.sat ((st.phi + 2 ^ (63 - z.fracBits)) / 2 ^ (64 - z.fracBits)) := by
  rw [phiQ, roundAngle, z.clamp_eq_sat, asr_eq_div, pow2_eq]

theorem stageAccI_values (st : StageEntry) (d : Bool) (c : RealAcc) :
    (stageAccI st d c).X.toRat = st.a * c.X.toRat - dir d * st.b * c.Y.toRat ∧
    (stageAccI st d c).Y.toRat = dir d * st.b * c.X.toRat + st.a * c.Y.toRat := by
  cases d <;> simp [stageAccI, dir]

/-- Settles O44: the lookup decides between COVERAGE and a stage, whose values are those of R206. -/
theorem fastApproxStep : Obligations.FastApproxStep := by
  intro s _ hop hsem
  refine ⟨fun h => engineStep_of_stage_none hop (stage_of_lookupA_none hsem h), fun st h => ?_⟩
  obtain ⟨e, he, hacc, hz⟩ := stage_of_lookupA hsem h
  refine ⟨_, engineStep_of_stage hop he, ?_⟩
  simp only [State.advance_eng, hacc, hz, stageAccA_eq, sgnp_iff, addF_eq_sat, subF_eq_sat, phiQ_eq, and_self]

/-- Settles O45: as O44, with the exact values; the sign of a well-formed residual is decided exactly. -/
theorem fastIdealStep : Obligations.FastIdealStep := by
  intro s _ hop hsem
  refine ⟨fun h => engineStep_of_stage_none hop (stage_of_lookupI_none hsem h), fun st h _ => ?_⟩
  obtain ⟨e, he, hacc, hz⟩ := stage_of_lookupI hsem h
  obtain ⟨hX, hY⟩ := stageAccI_values st s.eng.real.z.nonneg s.eng.realAcc
  refine ⟨_, engineStep_of_stage hop he, s.eng.real.z.nonneg, Angle.nonneg_iff_toReal, ?_⟩
  simp only [State.advance_eng, hacc, hz]
  exact ⟨hX, hY, rfl, Angle.toReal_subAtom ..⟩

/-! ### The final normalization (R208) -/

section
variable (rule : HypGainRule) {e : Engine} (hop : e.latch.op = .rotFast)
include hop

theorem fastResults_of_approx (hsem : e.latch.sem = .approx) :
    resultX rule e = .word (BitVec.ofInt 64 (e.latch.p.sat ⌊(e.fixAcc.X : ℚ) / 2 ^ e.fixAcc.L⌋)) ∧
    resultY rule e = .word (BitVec.ofInt 64 (e.latch.p.sat ⌊(e.fixAcc.Y : ℚ) / 2 ^ e.fixAcc.L⌋)) ∧
    resultZ e = .word (BitVec.ofInt 64 e.fix.z) := by
  simp only [resultX, resultY, resultZ, hop, hsem, Fmt.clamp_eq_sat, asr_eq_floor]
  exact ⟨rfl, rfl, rfl⟩

theorem fastResults_of_ideal (hsem : e.latch.sem = .ideal) :
    resultX rule e = .real (.quot e.realAcc.X e.realAcc.D) ∧ resultY rule e = .real (.quot e.realAcc.Y e.realAcc.D) ∧
      resultZ e = .real (.angle e.real.z) := by
  simp only [resultX, resultY, resultZ, hop, hsem, and_self]

end

/-- Settles O49: a step that ends the run without an error has applied a stage, and writes the normalized accumulators of the state
it ends in. -/
theorem fastNormalization : Obligations.FastNormalization := by
  intro s t hr hop ht hend
  obtain ⟨e, ha, h⟩ | ⟨-, -, h⟩ | ⟨hne, -, -⟩ := engineStep_cases s
  case inr.inl =>
    cases h.symm.trans ht
    simp at hend
  case inr.inr => exact absurd hop hne
  case inl =>
    cases h.symm.trans ht
    have hlatch : (s.advance e).eng.latch = s.eng.latch := by rw [State.advance_eng, ← ha.frame.1]
    have hended : (s.advance e).running = false := by
      rw [State.not_running_iff]
      obtain hst | hst := hend <;> rw [hst] <;> exact nofun
    rw [State.advance_outs_of_ended hr hended, ← hlatch]
    rw [← hlatch] at hop
    refine ⟨fastResults_of_approx _ hop, fun hsem => ?_⟩
    obtain ⟨hx, hy, hz⟩ := fastResults_of_ideal s.params.hypGainRule hop hsem
    exact ⟨_, _, _, hx, hy, hz, rfl, rfl, rfl⟩

/-! ### The accumulators' width (R205) -/

/-- `W_MAX + ITER_MAX · B` bits and a sign hold what any number of stages of a command can make of a format's values. -/
theorem Params.Admissible.accBits_le {params : Params} (h : params.Admissible) {p : Fmt} (hp : p.valid) {k : Nat}
    (hk : k ≤ 64) : accBits params p k ≤ params.fastAccBits - 1 := by
  have hwf := h.integers
  rw [Params.wf, Bool.and_eq_true, decide_eq_true_iff] at hwf
  obtain ⟨-, hbits⟩ := hwf
  have hmul : k * stageBits params.stageTable ≤ 64 * stageBits params.stageTable := Nat.mul_le_mul_right _ hk
  simp only [wMax, iterMax] at hbits
  simp only [accBits]
  omega

/-- Accumulators within R205's bound of a run fit FAST_ACC_BITS bits. -/
theorem FixAcc.Within.fits {params : Params} (h : params.Admissible) {p : Fmt} (hp : p.valid) {k : Nat} (hk : k ≤ 64)
    {c : FixAcc} (hc : c.Within params p k) :
    -2 ^ (params.fastAccBits - 1) ≤ c.X ∧ c.X < 2 ^ (params.fastAccBits - 1) ∧
    -2 ^ (params.fastAccBits - 1) ≤ c.Y ∧ c.Y < 2 ^ (params.fastAccBits - 1) ∧ c.L ≤ 1024 := by
  have hpow : (2 : Int) ^ accBits params p k ≤ 2 ^ (params.fastAccBits - 1) :=
    pow_le_pow_right₀ (by norm_num) (h.accBits_le hp hk)
  obtain ⟨hX, hY, hL⟩ := hc
  omega

/-- Settles O57: the invariant bounds the accumulators by the stages done, and a stage by one more; an error leaves them. -/
theorem accumulatorsFit : Obligations.AccumulatorsFit := by
  intro s t hinv hr hop hsem ht
  have hok := hinv.engine hr
  have hpointer := hok.pointer
  have hbudget := hok.budget
  have hfix := hok.approx hsem
  have hs := (hfix.within hop).fits hinv.params hfix.formats.1 (by omega)
  obtain rfl | ht := ht
  · exact hs
  obtain ⟨e, ha, h⟩ | ⟨-, -, h⟩ | ⟨hne, -, -⟩ := engineStep_cases s
  · cases h.symm.trans ht
    have hnext := (ha.keeps hinv.params hok).1 hsem
    rw [State.advance_eng]
    exact (hnext.within (ha.frame.1 ▸ hop)).fits hinv.params hnext.formats.1 (by simp only; omega)
  · cases h.symm.trans ht
    exact hs
  · exact absurd hop hne

/-! ### Coverage (W6 of R201) -/

/-- W2: brackets that meet leave no gap between the first and the last. -/
theorem exists_bracket_of_bracketsMeet {table : List StageEntry} {first last : StageEntry} {r : ℝ}
    (hmeet : bracketsMeet table = true) (hfirst : table.head? = some first) (hlast : table.getLast? = some last)
    (hlo : (first.lo : ℝ) / 2 ^ 64 ≤ r) (hhi : r < (last.hi : ℝ) / 2 ^ 64) : ∃ e ∈ table, e.brackets r := by
  induction table generalizing first with
  | nil => cases hfirst
  | cons e es ih =>
    cases hfirst
    by_cases he : r < (e.hi : ℝ) / 2 ^ 64
    · exact ⟨e, List.mem_cons_self, hlo, he⟩
    · cases es with
      | nil =>
        cases hlast
        exact absurd hhi he
      | cons f es =>
        simp only [bracketsMeet, Bool.and_eq_true, decide_eq_true_eq] at hmeet
        obtain ⟨hef, hmeet⟩ := hmeet
        rw [List.getLast?_cons_cons] at hlast
        obtain ⟨g, hg, hb⟩ := ih hmeet rfl hlast (hef ▸ not_lt.1 he)
        exact ⟨g, List.mem_cons_of_mem _ hg, hb⟩

/-- With admissible parameters every residual below `hi` of the last entry has a bracket, so a target within `π/4` has one at each
lookup. -/
theorem Params.Admissible.exists_bracket {params : Params} (h : params.Admissible) {target : ℝ}
    (ht : |target| ≤ Real.pi / 4) {n : Nat} (hn : n < 64) {r : ℝ} (hr : StageReach params.stageTable target n r) :
    ∃ e ∈ params.stageTable, e.brackets |r| := by
  have hwf := h.integers
  simp only [Params.wf, stageTableWf, Bool.and_eq_true] at hwf
  obtain ⟨⟨⟨hhead, hmeet⟩, -⟩, -⟩ := hwf
  cases htable : params.stageTable with
  | nil => simp [htable] at hhead
  | cons e es =>
    rw [htable] at hmeet
    have hlo : e.lo = 0 := by simpa [htable] using hhead
    obtain ⟨last, hlast⟩ := Option.ne_none_iff_exists'.1 (by simp : (e :: es).getLast? ≠ none)
    refine exists_bracket_of_bracketsMeet hmeet rfl hlast (by simp [hlo]) ?_
    exact h.covered target ht n hn r hr last (htable ▸ hlast)

/-- `d` as a number is the sign it decides. -/
theorem dir_eq_of_iff {d : Bool} {r : ℝ} (h : d = true ↔ 0 ≤ r) : (dir d : ℝ) = if 0 ≤ r then 1 else -1 := by
  by_cases hr : 0 ≤ r
  · simp [dir, hr, h.2 hr]
  · simp [dir, hr, Bool.eq_false_iff.2 (mt h.1 hr)]

/-- A state of a ROT.FAST.I from the target `target`: while it runs, the stages done lead from the target to its residual, and it
has met no error. -/
structure State.FastRun (target : ℝ) (s : State) : Prop where
  inv : s.Inv
  pending : s.pending = []
  reached : s.running = true → s.eng.latch.op = .rotFast ∧ s.eng.latch.sem = .ideal ∧
    StageReach s.params.stageTable target s.eng.k s.eng.real.z.toReal
  noError : s.status.state ≠ .error

section
variable {target : ℝ} (ht : |target| ≤ Real.pi / 4) {s t : State}
include ht

/-- W6 at work: at each lookup of such a run a bracket holds the residual, so a stage is applied, and it leads one further. -/
theorem State.FastRun.applied (h : s.FastRun target) (hr : s.running = true) : ∃ e, Applied s e ∧
    engineStep s = .next (s.advance e) ∧ StageReach s.params.stageTable target (s.eng.k + 1) e.real.z.toReal := by
  obtain ⟨hop, hsem, hreach⟩ := h.reached hr
  have hok := h.inv.engine hr
  have hwf : s.eng.real.z.wf := ⟨_, (hok.ideal hsem).residual⟩
  have hk : s.eng.k < 64 := hok.pointer.trans_le hok.budget.2
  obtain ⟨g, hg, hgb⟩ := h.inv.params.exists_bracket ht hk hreach
  obtain ⟨st, hst⟩ : ∃ st, lookupI s.params.stageTable s.eng.real.z = some st :=
    Option.ne_none_iff_exists'.1 fun hnone => (lookupI_eq_none_iff _ hwf).1 hnone g hg hgb
  obtain ⟨e, he, -, hz⟩ := stage_of_lookupI hsem hst
  refine ⟨e, .inr ⟨hop, he⟩, engineStep_of_stage hop he, ?_⟩
  rw [hz, Angle.toReal_subAtom, dir_eq_of_iff (Angle.nonneg_iff_toReal hwf)]
  exact .stage hreach ((lookupI_eq_some_iff _ hwf st).1 hst)

theorem State.FastRun.step (h : s.FastRun target) (hs : step s = .next t) : t.FastRun target := by
  have hinv := invariantKeptByEveryStep s t h.inv hs
  have hpending := (step_lastOp h.pending hs).1
  rw [step_nil h.pending] at hs
  cases hr : s.running with
  | false =>
    cases (engineTurn_of_not_running hr).symm.trans hs
    exact h
  | true =>
    obtain ⟨e, ha, he, hreach⟩ := h.applied ht hr
    obtain ⟨hop, hsem, -⟩ := h.reached hr
    cases ((engineTurn_of_running hr).trans he).symm.trans hs
    obtain ⟨hlatch, -, hk⟩ := ha.frame
    refine ⟨hinv, hpending, fun _ => ?_, ?_⟩
    · rw [State.advance_eng, State.advance_params]
      exact ⟨hlatch ▸ hop, hlatch ▸ hsem, hk ▸ hreach⟩
    · rw [State.advance_status, s.running_iff.1 hr]
      dsimp only
      split_ifs <;> exact nofun

theorem State.FastRun.run {j : Nat} (h : s.FastRun target) (hj : Sys2Proof.core.run j s = .next t) : t.FastRun target := by
  induction j generalizing s with
  | zero =>
    cases hj
    exact h
  | succ j ih =>
    obtain ⟨u, hu, hj⟩ := core_run_succ_eq_next hj
    exact ih (h.step ht hu) hj

end

/-- The issue of a ROT.FAST.I starts such a run, its residual the target itself (R204). -/
theorem fastRun_of_exec {s a : State} {ee : Bool} {n : Nat} (hinv : s.Inv) (hr : s.running = false) (hp : s.pending = [])
    (h1 : 1 ≤ n) (h2 : n ≤ 64) (ha : exec (.rotFastI ee n) s = .next a) : a.FastRun (hvRat s.ins.opC) := by
  have hainv := exec_inv hinv ha
  cases (issueIdeal_of_seed (seed := seedFastIdeal) hr h1 h2 rfl).symm.trans ha
  refine ⟨hainv, hp, fun _ => ⟨rfl, rfl, ?_⟩, nofun⟩
  have htarget : (Angle.ofDyad (hv s.ins.opC)).toReal = hvRat s.ins.opC := by rw [Angle.toReal_ofDyad, hv_toRat]
  exact htarget ▸ .seed

/-- Settles O58: no state of a run from a target within `π/4` is in ERROR, by induction on the steps; each lookup finds a bracket by
W6 and W2. -/
theorem coverageHoldsInRange : Obligations.CoverageHoldsInRange := fun _ _ _ _ _ _ hinv hr hp h1 h2 ht ha hj =>
  ((fastRun_of_exec hinv hr hp h1 h2 ha).run ht hj).noError

end Sys2Proof.Machine

/-! # Exceptions (60_exceptions.md) -/

namespace Sys2Proof.Machine

/-! ### The error report (R220) -/

/-- The errors of R220. -/
def Cause.all : List Cause :=
  [RangeSubject.opA, .opB, .opC, .seedX, .seedY].flatMap (fun s => [.range s .aboveMax, .range s .belowMin]) ++
  [.zeroDivisor, .coverage, .reservedOp, .reservedBits, .semNotAllowed] ++
  [FmtName.fmtIn, .fmtOut, .fmtXy, .fmtZ].flatMap (fun r => [.format r .width, .format r .frac]) ++ [.iterZero, .iterTooLarge]

/-- The error that a report of ERR_CODE `code` and ERR_DETAIL `detail` names. -/
def causeOf (code : BitVec 2) (detail : BitVec 8) : Option Cause :=
  Cause.all.find? fun c => decide (c.code = code ∧ c.detail = detail)

theorem causeOf_report (c : Cause) : causeOf c.code c.detail = some c := by
  cases c with
  | range s b => cases s <;> cases b <;> rfl
  | format r q => cases r <;> cases q <;> rfl
  | _ => rfl

/-- Settles O12: the table is `Cause.code` and `Cause.detail` at each error, and `causeOf` reads the error back from the two. -/
theorem errorCodesAndDetails : Obligations.ErrorCodesAndDetails := by
  refine ⟨fun c => ?table, fun c d hcode hdetail => ?inj⟩
  case table =>
    cases c with
    | range s b => cases s <;> cases b <;> rfl
    | format r q => cases r <;> cases q <;> rfl
    | _ => rfl
  case inj =>
    have h := causeOf_report c
    rw [hcode, hdetail, causeOf_report] at h
    exact (Option.some.inj h).symm

/-! ### The order of the checks (R225) -/

theorem DecidedBy.mono {cs : List (Bool × Cause)} {op : BitVec 4} {sem : Bool} {P Q : State → Prop} {s : State} {r : Result}
    (h : DecidedBy cs op sem P s r) (hPQ : ∀ t, P t → Q t) : DecidedBy cs op sem Q s r :=
  h.imp_right fun hpass hc => (hpass hc).imp fun t => And.imp_right (hPQ t)

/-- A primitive makes the checks of R225, in order, and with no failure it is DONE. -/
theorem exec_primitive_decidedBy {i : Instr} (hi : isPrimitive i = true) {s : State} (hr : s.running = false) :
    DecidedBy (checks i s) (instrOp i) (instrSem i) (·.status.state = .done) s (exec i s) := by
  have hn := hv_toRat s.ins.opA ▸ roundTo_spec s.params.roundMode (hv s.ins.opA) s.ins.fmtIn.fmt
  cases i
  case quant => exact (exec_quant_decidedBy hr).mono fun _ ht => ht ▸ rfl
  case add => exact (exec_add_decidedBy hr).mono fun _ ht => ht ▸ rfl
  case neg =>
    rw [checks, List.append_assoc]
    exact (unary_decidedBy hr 1 _ hn).mono fun _ ht => ht ▸ rfl
  case shr k =>
    rw [checks, List.append_assoc]
    exact (unary_decidedBy hr 3 (fun _ n => asr n k) hn).mono fun _ ht => ht ▸ rfl
  all_goals cases hi

/-- Settles O18: a primitive and an engine command are both decided by the checks of R225, and end DONE and RUNNING. -/
theorem validationOrder : Obligations.ValidationOrder := by
  intro i s hr
  cases hi : isPrimitive i with
  | true => exact exec_primitive_decidedBy hi hr
  | false => exact (exec_engine_decidedBy hi hr).mono fun _ ht => ht.1

/-! ### An issue that ends in ERROR (R221) -/

/-- A command with no failing check ends DONE or RUNNING, so one that ends in ERROR was refused. -/
theorem refused_of_exec_error {i : Instr} {s t : State} (hr : s.running = false) (ht : exec i s = .next t)
    (herr : t.status.state = .error) : ∃ c, t = s.refused (instrOp i) (instrSem i) c := by
  obtain ⟨hfail, hpass⟩ := validationOrder i s hr
  cases hc : firstFailure (checks i s) with
  | some c =>
    cases (hfail c hc).symm.trans ht
    exact ⟨c, rfl⟩
  | none =>
    obtain ⟨u, hu, hstate⟩ := hpass hc
    cases hu.symm.trans ht
    rw [herr] at hstate
    split at hstate <;> cases hstate

/-- Settles O17: a command that ends in ERROR was refused with the word's OP and SEM, and so was a word that is no command. -/
theorem errorAtIssueWritesOnlyStatus : Obligations.ErrorAtIssueWritesOnlyStatus := by
  intro s t c hr ht herr
  cases hd : decode c with
  | ok i =>
    obtain ⟨-, hop, hsem⟩ := and_rowMask_eq_matchWord_iff.1 (decode_eq_ok_iff.1 hd).1
    rw [writeCmd_of_decode hd] at ht
    obtain ⟨e, rfl⟩ := refused_of_exec_error hr ht herr
    rw [← hop, ← hsem]
    exact ⟨e, rfl⟩
  | error e =>
    cases (writeCmd_of_error hr hd).symm.trans ht
    exact ⟨decodeCause e, rfl⟩

/-! ### No step ends in a fault or a refusal (R235, R176) -/

theorem writeCmd_next (c : Word) (s : State) : ∃ t, writeCmd c s = .next t := by
  unfold writeCmd
  split
  · exact exec_next _ s
  · obtain ⟨-, h⟩ | ⟨-, t, -, h⟩ | ⟨-, c, -, h⟩ := issue_cases (opField c) (semField c) _ s <;> exact ⟨_, h⟩

/-- The fault of a missing table entry is shut out by the invariant: the pointer is below the budget. -/
theorem engineTurn_next {s : State} (h : s.Inv) : ∃ t, engineTurn s = .next t := by
  cases hr : s.running with
  | false => exact ⟨s, engineTurn_of_not_running hr⟩
  | true =>
    rw [engineTurn_of_running hr]
    obtain ⟨e, -, ht⟩ | ⟨-, -, ht⟩ | ⟨hop, hnone, -⟩ := engineStep_cases s
    · exact ⟨_, ht⟩
    · exact ⟨_, ht⟩
    · exact absurd hnone ((h.engine hr).entry hop)

theorem hostEvent_next (ev : HostEvent) {s : State} (h : s.Inv) : ∃ t, hostEvent ev s = .next t := by
  cases ev with
  | write a w =>
    rw [hostEvent]
    split
    · exact writeCmd_next w s
    · exact ⟨_, rfl⟩
  | read a => exact ⟨_, rfl⟩
  | reset => exact ⟨_, rfl⟩
  | wait => exact ⟨_, rfl⟩
  | engine => exact engineTurn_next h

/-- Settles O54, by the item the step performs; only the engine's turn needs the invariant. -/
theorem everyStepHasAnEffect : Obligations.EveryStepHasAnEffect := by
  intro s h
  cases hp : s.pending with
  | nil => exact step_nil hp ▸ engineTurn_next h
  | cons ev rest => exact step_cons hp ▸ hostEvent_next ev (h.of_frame rfl rfl rfl : (s.setPending rest).Inv)

end Sys2Proof.Machine

/-! # Reset and hazards (70_reset_and_hazards.md) -/

namespace Sys2Proof.Machine

/-! ### Reset (R240) -/

theorem Status.word_reset : Status.reset.word = 0 := by decide

theorem FmtReg.word_reset : FmtReg.reset.word = 0 := by decide

/-- R20: after power-on every address reads as its register's reset value, which is 0. -/
theorem State.readReg_resetWith (p : Params) (a : Addr) : (State.resetWith p).readReg a = .word 0 := by
  unfold State.readReg
  split
  case h_1 => exact congrArg ResVal.word Status.word_reset
  case h_2 | h_3 | h_4 | h_5 => exact congrArg ResVal.word FmtReg.word_reset
  all_goals rfl

/-- A host reads of the block only what the reset action gives its power-on value. -/
theorem State.readReg_resetAction (a : Addr) (s : State) : s.resetAction.readReg a = .word 0 :=
  State.readReg_resetWith s.params a

/-- Settles O5: the step is the reset action, after which every register reads as at power-on. -/
theorem resetClearsTheHostRegisters : Obligations.ResetClearsTheHostRegisters := fun s rest hp =>
  ⟨(s.setPending rest).resetAction, step_cons hp, (State.readReg_resetAction · _), rfl, rfl, rfl, rfl⟩

theorem State.resetWith_inv {p : Params} (hp : p.Admissible) : (State.resetWith p).Inv :=
  .of_not_running nofun hp (.inr ⟨nofun, rfl, rfl⟩) (Nat.zero_le _) fun _ => rfl

/-- Settles O52: the invariant holds at power-on for all admissible parameters, and those `State.reset` names are admissible. -/
theorem invariantHoldsAtReset : Obligations.InvariantHoldsAtReset := State.resetWith_inv exampleParams_admissible

/-! ### What an engine step leaves unchanged (R244) -/

/-- What applying an entry or a stage leaves of the engine's values: those of the other kind of mode, and those of the other
semantics. -/
theorem Applied.values_frame {s : State} {e : Engine} (h : Applied s e) :
    (s.eng.latch.op ≠ .rotFast → e.fixAcc = s.eng.fixAcc ∧ e.realAcc = s.eng.realAcc) ∧
    (s.eng.latch.op = .rotFast → e.fix.x = s.eng.fix.x ∧ e.fix.y = s.eng.fix.y ∧ e.real.x = s.eng.real.x ∧
      e.real.y = s.eng.real.y) ∧
    (s.eng.latch.sem = .approx → e.real = s.eng.real ∧ e.realAcc = s.eng.realAcc) ∧
    (s.eng.latch.sem = .ideal → e.fix = s.eng.fix ∧ e.fixAcc = s.eng.fixAcc) := by
  obtain ⟨hop, i, -, rfl⟩ | ⟨hop, hstage⟩ := h
  · obtain ⟨-, -, -, hfixAcc, hrealAcc, happrox, hideal⟩ := applyEntry_frame s.params.roundMode i s.eng
    exact ⟨fun _ => ⟨hfixAcc, hrealAcc⟩, fun h => absurd h hop, fun h => ⟨happrox h, hrealAcc⟩, fun h => ⟨hideal h, hfixAcc⟩⟩
  · obtain ⟨-, -, -, hx, hy, hrx, hry, happrox, hideal⟩ := stage_frame hstage
    exact ⟨fun h => absurd hop h, fun _ => ⟨hx, hy, hrx, hry⟩, happrox, hideal⟩

/-- The bit strings are a primitive's (R26): an engine step leaves them, terminating or not. -/
theorem State.advance_bits (e : Engine) (s : State) : (s.advance e).outs.inA = s.outs.inA ∧
    (s.advance e).outs.inB = s.outs.inB ∧ (s.advance e).outs.out = s.outs.out := by
  rw [State.advance_outs]
  split <;> exact ⟨rfl, rfl, rfl⟩

/-- The fields of STATUS that a CMD write alone sets (R101, R102). -/
theorem State.advance_issueFields (e : Engine) (s : State) : (s.advance e).status.ovr = s.status.ovr ∧
    (s.advance e).status.lastOp = s.status.lastOp ∧ (s.advance e).status.lastSem = s.status.lastSem := by
  rw [State.advance_status]
  exact ⟨rfl, rfl, rfl⟩

/-- The results are written only by the two tests that end the run (R244, R106). -/
theorem State.advance_outs_of_not_terminated {e : Engine} {s : State}
    (h : (s.advance e).status.state = .running ∨ (s.advance e).status.state = .error) : (s.advance e).outs = s.outs := by
  obtain ⟨-, -, ht⟩ | ⟨-, -, ht⟩ | ⟨-, -, ht⟩ := State.advance_cases e s <;> rw [ht] at h ⊢
  · exact absurd h nofun
  · exact absurd h nofun
  · rfl

/-- Settles O50: the step ends as `State.advance` does, which adds the counter and the results to what the entry or the stage
writes, or raises COVERAGE, which writes only STATUS. -/
theorem engineStepFrame : Obligations.EngineStepFrame := by
  intro s t _ ht
  obtain ⟨e, ha, h⟩ | ⟨-, -, h⟩ | ⟨-, -, h⟩ := engineStep_cases s <;> cases h.symm.trans ht
  case inl =>
    obtain ⟨hlatch, hentries, -⟩ := ha.frame
    obtain ⟨hstandard, hfast, happrox, hideal⟩ := ha.values_frame
    obtain ⟨hinA, hinB, hout⟩ := State.advance_bits e s
    obtain ⟨hovr, hlastOp, hlastSem⟩ := State.advance_issueFields e s
    rw [State.advance_eng]
    exact ⟨State.advance_ins e s, hinA, hinB, hout, State.advance_params e s, State.advance_pending e s,
      State.advance_readData e s, hovr, hlastOp, hlastSem, hlatch, hentries, hstandard, hfast, happrox, hideal,
      State.advance_outs_of_not_terminated⟩
  case inr.inl =>
    exact ⟨rfl, rfl, rfl, rfl, rfl, rfl, rfl, rfl, rfl, rfl, rfl, rfl, fun _ => ⟨rfl, rfl⟩, fun _ => ⟨rfl, rfl, rfl, rfl⟩,
      fun _ => ⟨rfl, rfl⟩, fun _ => ⟨rfl, rfl⟩, fun _ => rfl⟩

/-! ### Host writes while RUNNING (R245) -/

/-- The two tests that end an engine step and the results they write do not read the registers the host writes. -/
theorem State.advance_setIns (r : InRegs) (e : Engine) (s : State) : (s.setIns r).advance e = (s.advance e).setIns r := by
  simp only [State.advance, apply_ite (State.setIns r)]
  rfl

/-- Where the step applies an entry or a stage, it ends as `State.advance` does (R105, R206). -/
theorem engineStep_of_applied {s : State} {e : Engine} (h : Applied s e) : engineStep s = .next (s.advance e) := by
  obtain ⟨hop, i, hi, rfl⟩ | ⟨hop, hstage⟩ := h
  · rw [engineStep, if_neg hop, hi]
  · exact engineStep_of_stage hop hstage

/-- A run reads the latched formats and the seeds, not the format and operand registers (R29, R245). -/
theorem engineStep_setIns {s t : State} (r : InRegs) (h : engineStep s = .next t) :
    engineStep (s.setIns r) = .next (t.setIns r) := by
  obtain ⟨e, ha, ht⟩ | ⟨hop, hnone, ht⟩ | ⟨-, -, ht⟩ := engineStep_cases s <;> cases ht.symm.trans h
  · have ha' : Applied (s.setIns r) e := ha
    rw [engineStep_of_applied ha', State.advance_setIns]
  · exact engineStep_of_stage_none (s := s.setIns r) hop hnone

/-- Settles O59: a register write replaces `ins`, which the engine step neither reads nor writes. -/
theorem writesDoNotTouchTheRun : Obligations.WritesDoNotTouchTheRun := by
  intro s t a w hr ht
  obtain ⟨hins, -⟩ := engineStepFrame s t hr ht
  rw [State.writeReg, State.writeReg, hins]
  exact engineStep_setIns _ ht

end Sys2Proof.Machine
